-- ==== Sys2Proof/Word.lean ====
section
/-! DEFINITION. The word types of the BPS: bytes, 16-bit text units, command words, register words and
binary64 bit patterns. -/

namespace Sys2Proof

/-- One byte of OUT, and one PCM sample (20_memory.md R37, 30_encoding.md R73). -/
abbrev Byte := BitVec 8

/-- One unit of TEXT: a 16-bit code unit (TEXT_UNIT_BITS, 00_scope.md R6; 20_memory.md R39). -/
abbrev TextUnit := BitVec 16

/-- A command word (30_encoding.md R55). -/
abbrev Word := BitVec 32

/-- A host-visible register value (10_state.md R17: every register is 64 bits wide as the host sees it). -/
abbrev Word64 := BitVec 64

/-- A binary64 number held as its bit pattern (00_scope.md R9). -/
abbrev F64 := BitVec 64

end Sys2Proof
end

