-- ==== Sys2Proof/Config.lean ====
section
/-! DEFINITION. What an implementation fixes (the parameters of 00_scope.md R6) and what the spec leaves
free (opaque constants, which no proof can evaluate). -/

namespace Sys2Proof.Config

/-- TRIM_SET's default, the units of 43_encoder.md R101. -/
def trimSetDefault : List TextUnit :=
  [0x0009, 0x000A, 0x000B, 0x000C, 0x000D, 0x0020, 0x00A0, 0x1680,
   0x2000, 0x2001, 0x2002, 0x2003, 0x2004, 0x2005, 0x2006, 0x2007, 0x2008, 0x2009, 0x200A,
   0x2028, 0x2029, 0x202F, 0x205F, 0x3000, 0xFEFF]

/-- The implementation parameters of 00_scope.md R6, each protocol constant with R6's value as its default
(assumption log 7). TEXT_MAX and BUF_MAX are OPEN (92_eei_decisions.md D15) and have no default here. A step
never changes them. NUM_INSTANCES is the number of instances of Machine/System.lean. -/
structure Params where
  /-- TEXT_MAX: units of TEXT. -/
  textMax : Nat
  /-- BUF_MAX: bytes of OUT. -/
  bufMax : Nat
  /-- SAMPLE_RATE. -/
  sampleRate : Nat := 44100
  /-- SHORT_WAVE = fdiv(1.0, 2400.0). -/
  shortWave : F64 := 0x3F3B4E81B4E81B4F
  /-- LONG_WAVE = fdiv(1.0, 1200.0). -/
  longWave : F64 := 0x3F4B4E81B4E81B4F
  /-- FRAME_BITS. -/
  frameBits : Nat := 11
  /-- BYTE_DURATION = fmul(11.0, LONG_WAVE). -/
  byteDuration : F64 := 0x3F82C5F92C5F92C6
  /-- LEADER_DURATION = 5.0. -/
  leaderDuration : F64 := 0x4014000000000000
  /-- TRAILER_DURATION = 5.0. -/
  trailerDuration : F64 := 0x4014000000000000
  /-- LEADER_COUNT = floor_int(fdiv(LEADER_DURATION, SHORT_WAVE)). -/
  leaderCount : Nat := 12000
  /-- TRAILER_COUNT = floor_int(fdiv(TRAILER_DURATION, SHORT_WAVE)). -/
  trailerCount : Nat := 12000
  /-- SLACK_SAMPLES. -/
  slackSamples : Nat := 5
  /-- HEADER_BYTES. -/
  headerBytes : Nat := 44
  /-- SAMPLE_HIGH. -/
  sampleHigh : Byte := 255
  /-- SAMPLE_LOW. -/
  sampleLow : Byte := 0
  /-- SILENCE. -/
  silence : Byte := 127
  /-- DUTY_SPLIT = 0.5. -/
  dutySplit : F64 := 0x3FE0000000000000
  /-- RIFF_SIZE_ADD. -/
  riffSizeAdd : Nat := 28
  /-- FMT_CHUNK_SIZE. -/
  fmtChunkSize : Nat := 16
  /-- AUDIO_FORMAT. -/
  audioFormat : Nat := 1
  /-- CHANNELS. -/
  channels : Nat := 1
  /-- BLOCK_ALIGN. -/
  blockAlign : Nat := 1
  /-- BITS_PER_SAMPLE. -/
  bitsPerSample : Nat := 8
  /-- START_MARKER. -/
  startMarker : Nat := 0x82
  /-- END_MARKER. -/
  endMarker : Nat := 0x83
  /-- DATA_OR. -/
  dataOr : Nat := 0x80
  /-- CR. -/
  cr : TextUnit := 0x000D
  /-- LF. -/
  lf : TextUnit := 0x000A
  /-- TRIM_SET (43_encoder.md R101). -/
  trimSet : List TextUnit := trimSetDefault
deriving DecidableEq, Repr

/-- R6's default of every protocol constant, for any sizes of the two memories: "a claim about the BPS names
the defaults it assumes". -/
abbrev Params.Standard (p : Params) : Prop := p = { textMax := p.textMax, bufMax := p.bufMax }

/-- The parameters State.reset is given: R6's defaults; TEXT_MAX and BUF_MAX are OPEN and their values here are a
DESIGN CHOICE, large enough that neither limit bites (assumption log 6; 95_test_vectors.md assumes the same). -/
def atReset : Params := { textMax := 4294967296, bufMax := 4294967311 }

/-- The binary64 operations that round (00_scope.md R9), as the free value of a NaN result names them. -/
inductive FloatOp where
  | add | sub | mul | div
deriving DecidableEq, Repr

/-- FREE VALUE: the sign and payload of the NaN that operation `op` gives on the operands `a` and `b`, where the
spec states none (assumption log 4). -/
opaque nanBits : FloatOp → F64 → F64 → BitVec 64

/-- FREE VALUE: STATUS bits 2:0 after the n-th fault (60_exceptions.md R117; assumption log 2). -/
opaque lostStatus : Nat → BitVec 3

/-- FREE VALUE: CHK after the n-th fault (60_exceptions.md R117; assumption log 2). -/
opaque lostChk : Nat → Byte

/-- FREE VALUE: EXCESS after the n-th fault (60_exceptions.md R117; assumption log 2). -/
opaque lostExcess : Nat → F64

/-- FREE VALUE: SPERIOD after the n-th fault (60_exceptions.md R117; assumption log 2). -/
opaque lostSperiod : Nat → F64

/-- FREE VALUE: SRATE after the n-th fault (60_exceptions.md R117; assumption log 2). -/
opaque lostSrate : Nat → BitVec 32

/-- FREE VALUE: NSAMP after the n-th fault (60_exceptions.md R117; assumption log 2). -/
opaque lostNsamp : Nat → BitVec 32

/-- FREE VALUE: BUFLEN after the n-th fault (60_exceptions.md R117; assumption log 2). -/
opaque lostBuflen : Nat → Word64

/-- FREE VALUE: CURSOR after the n-th fault (60_exceptions.md R117; assumption log 2). -/
opaque lostCursor : Nat → Word64

end Sys2Proof.Config
end

