-- ==== Sys2Proof/Syntax.lean ====
section
/-! DEFINITION. The commands of the BPS: one constructor per row of spec/opcode_table.json. No command word
carries an operand (30_encoding.md R55), so no constructor has an argument. -/

namespace Sys2Proof

/-- The twelve commands (30_encoding.md R56). -/
inductive Instr where
  /-- CCREATE, 0x10: create a Sample Container (40_sample_container.md R77). -/
  | ccreate
  /-- CAPPEND, 0x11: append one sample (R78). -/
  | cappend
  /-- CFINAL, 0x12: finalise the Sample Container (R79). -/
  | cfinal
  /-- SCREATE, 0x20: create a Waveform Synthesizer and its buffer (41_synthesizer.md R86). -/
  | screate
  /-- SWAVE, 0x21: emit one pulse (R87). -/
  | swave
  /-- SREPEAT, 0x22: emit a burst of equal pulses (R88). -/
  | srepeat
  /-- SFINAL, 0x23: finalise through the synthesizer (R89). -/
  | sfinal
  /-- KRESET, 0x30: clear the checksum accumulator (42_checksum.md R92). -/
  | kreset
  /-- KFOLD, 0x31: fold one byte into the accumulator (R93). -/
  | kfold
  /-- EXMIT, 0x40: transmit one protocol byte, folding it (43_encoder.md R105). -/
  | exmit
  /-- ECHK, 0x41: transmit the checksum byte (R106). -/
  | echk
  /-- ENCODE, 0x42: the whole encode (R107). -/
  | encode
deriving DecidableEq, Repr

end Sys2Proof
end

