-- ==== Sys2Proof/WellFormed.lean ====
section
/-! DEFINITION. What is well formed: a command word (30_encoding.md R55 to R57), an instruction, and the
implementation parameters a claim may assume (00_scope.md R6). -/

namespace Sys2Proof

/-- The reserved field RES, bits 31:8, is zero (30_encoding.md R55). -/
def reservedZero (w : Word) : Bool := w.extractLsb' 8 24 == 0

/-- The opcodes of 30_encoding.md R56. -/
def opcodes : List (BitVec 8) :=
  [0x10, 0x11, 0x12, 0x20, 0x21, 0x22, 0x23, 0x30, 0x31, 0x40, 0x41, 0x42]

/-- The opcode field OPC, bits 7:0, is one of the twelve (30_encoding.md R56). -/
def opcodeKnown (w : Word) : Bool := opcodes.contains (w.extractLsb' 0 8)

/-- A legal command word (30_encoding.md R57: every other word is illegal). -/
def commandWordOk (w : Word) : Bool := reservedZero w && opcodeKnown w

/-- Every instruction is well formed: a command word carries no operand that could be out of range
(30_encoding.md R55, R59). -/
def Instr.wellFormed : Instr → Bool
  | .ccreate => true
  | .cappend => true
  | .cfinal => true
  | .screate => true
  | .swave => true
  | .srepeat => true
  | .sfinal => true
  | .kreset => true
  | .kfold => true
  | .exmit => true
  | .echk => true
  | .encode => true

/-- SAMPLE_RATE is a rate SynthCreate's caller may pass: 1 ≤ sr ≤ 0xFFFFFFFF (41_synthesizer.md R81). -/
def sampleRateOk (p : Config.Params) : Bool := decide (1 ≤ p.sampleRate ∧ p.sampleRate ≤ 0xFFFFFFFF)

/-- HEADER_BYTES is the length of the header that 30_encoding.md R71 lays out. -/
def headerOk (p : Config.Params) : Bool := p.headerBytes == 44

/-- The parameters a claim about the buffer may assume without fixing every protocol constant. -/
def paramsOk (p : Config.Params) : Bool := sampleRateOk p && headerOk p

end Sys2Proof
end

