-- ==== Sys2Proof/Decode.lean ====
section
/-! DEFINITION. Decoding a command word, total on every 32-bit word and rejecting by name, and after it the
encoder (30_encoding.md R55 to R58). -/

namespace Sys2Proof

/-- Why a word is illegal (30_encoding.md R57). -/
inductive DecodeError where
  /-- Some bit of RES, bits 31:8, is set. -/
  | reservedBitsSet
  /-- RES is zero and OPC is none of the twelve opcodes. -/
  | unknownOpcode
deriving DecidableEq, Repr

/-- One row of the opcode table: a word selects the row when, under the mask, it equals the match. -/
structure OpcodeRow where
  mask : Word
  matchWord : Word
  instr : Instr
deriving DecidableEq, Repr

/-- The opcode map of 30_encoding.md R56, every row under mask 0xFFFFFFFF. -/
def opcodeRows : List OpcodeRow :=
  [⟨0xFFFFFFFF, 0x00000010, .ccreate⟩,
   ⟨0xFFFFFFFF, 0x00000011, .cappend⟩,
   ⟨0xFFFFFFFF, 0x00000012, .cfinal⟩,
   ⟨0xFFFFFFFF, 0x00000020, .screate⟩,
   ⟨0xFFFFFFFF, 0x00000021, .swave⟩,
   ⟨0xFFFFFFFF, 0x00000022, .srepeat⟩,
   ⟨0xFFFFFFFF, 0x00000023, .sfinal⟩,
   ⟨0xFFFFFFFF, 0x00000030, .kreset⟩,
   ⟨0xFFFFFFFF, 0x00000031, .kfold⟩,
   ⟨0xFFFFFFFF, 0x00000040, .exmit⟩,
   ⟨0xFFFFFFFF, 0x00000041, .echk⟩,
   ⟨0xFFFFFFFF, 0x00000042, .encode⟩]

/-- Decode a command word (30_encoding.md R56, R57). -/
def decode (w : Word) : Except DecodeError Instr :=
  match opcodeRows.find? (fun r => w &&& r.mask == r.matchWord) with
  | some r => .ok r.instr
  | none => .error (if reservedZero w then .unknownOpcode else .reservedBitsSet)

/-- The word of an instruction (30_encoding.md R56, column "word (match)"). -/
def encode : Instr → Word
  | .ccreate => 0x00000010
  | .cappend => 0x00000011
  | .cfinal => 0x00000012
  | .screate => 0x00000020
  | .swave => 0x00000021
  | .srepeat => 0x00000022
  | .sfinal => 0x00000023
  | .kreset => 0x00000030
  | .kfold => 0x00000031
  | .exmit => 0x00000040
  | .echk => 0x00000041
  | .encode => 0x00000042

/-- The low `nbits` bits of `w` as a command word, every bit above them zero (spec/opcode_table.json's
numbering: bit 0 is the least significant bit). -/
def tableWord (nbits w : Nat) : Word := BitVec.ofNat 32 (w % 2 ^ nbits)

/-- The instruction the decoder reads from an opcode-table word. -/
def decodeTableWord (nbits w : Nat) : Option Instr :=
  match decode (tableWord nbits w) with
  | .ok i => some i
  | .error _ => none

end Sys2Proof
end

