-- ==== Sys2Proof/Machine/State.lean ====
section
/-! DEFINITION. The state of one BPS instance as plain data (10_state.md R13, R17), the host's actions, the
fault codes, the reasons a step can stop, and the state after reset (70_reset_and_hazards.md R130). -/

namespace Sys2Proof.Machine

/-- The BPS's own fault codes, 1 to 6 (60_exceptions.md R113). Raising one is a next state, not a stop. -/
inductive FaultCode where
  /-- 1: AppendSample of a value above 255. -/
  | sampleRange
  /-- 2: AppendSample with CURSOR = BUFLEN. -/
  | bufferOverrun
  /-- 3: a command word of 30_encoding.md R57. -/
  | illegalCommand
  /-- 4: the command's STATUS precondition (R114) is false. -/
  | sequence
  /-- 5: an operand out of the range of R115. -/
  | argument
  /-- 6: a buffer of more than BUF_MAX bytes. -/
  | capacity
deriving DecidableEq, Repr

/-- What the host may do to an instance (20_memory.md R54). -/
inductive HostAction where
  /-- Write a 64-bit value to a register by number (10_state.md R18, R19, R20); number 0x00 issues a command. -/
  | writeReg (number : BitVec 8) (value : Word64)
  /-- Read a register by number (10_state.md R18). -/
  | readReg (number : BitVec 8)
  /-- Write one unit of TEXT (20_memory.md R39, R48). -/
  | writeText (index : Nat) (unit : TextUnit)
  /-- Read one byte of OUT (20_memory.md R47). -/
  | readOut (address : Nat)
  /-- Assert reset (70_reset_and_hazards.md R130). -/
  | reset
deriving DecidableEq, Repr

/-- A memory of `w`-bit cells as address and value pairs, addresses strictly rising; an address that is not
listed holds no value (10_state.md R36; assumption log 11). OUT is a `Memory 8`, that is a list of Host.Cell. -/
abbrev Memory (w : Nat) := List (Nat × BitVec w)

/-- One BPS instance. Register numbers and reset values are those of 10_state.md R17. -/
structure State where
  /-- The implementation parameters (00_scope.md R6); no step changes them (assumption log 7). -/
  params : Config.Params
  /-- A0, register 0x01 (R20). -/
  a0 : Word64
  /-- The host has written A0 since reset (R20): before that the spec gives A0 no value, and the model reads the one
  it stores (assumption log 1). No command tests this mark; a claim that keeps to R20 takes it as a premise. -/
  a0Written : Bool
  /-- A1, register 0x02 (R20). -/
  a1 : Word64
  /-- The host has written A1 since reset (R20): before that the spec gives A1 no value, and the model reads the one
  it stores (assumption log 1). No command tests this mark; a claim that keeps to R20 takes it as a premise. -/
  a1Written : Bool
  /-- STATUS, register 0x03, bits 7:0 (R21; the fields are in Machine/Flags.lean). -/
  status : BitVec 8
  /-- FINFO, register 0x04 (R23). -/
  finfo : Word
  /-- CHK, register 0x05, the checksum accumulator (R24). -/
  chk : Byte
  /-- EXCESS, register 0x06, a binary64 pattern (R25). -/
  excess : F64
  /-- SPERIOD, register 0x07, a binary64 pattern (R27). -/
  speriod : F64
  /-- SRATE, register 0x08 (R28). -/
  srate : BitVec 32
  /-- NSAMP, register 0x09 (R29). -/
  nsamp : BitVec 32
  /-- BUFLEN, register 0x0A (R30). -/
  buflen : Word64
  /-- CURSOR, register 0x0B (R31). -/
  cursor : Word64
  /-- OUT, the output memory (20_memory.md R37). -/
  out : Memory 8
  /-- TEXT, the input memory (20_memory.md R39). -/
  text : Memory 16
  /-- The model's own: the host's actions still to come, first first (assumption log 8). -/
  inputs : List HostAction
  /-- The model's own: what the host's reads have returned, oldest first (assumption log 8). -/
  replies : List Word64
  /-- The model's own: how many faults have drawn free values (assumption log 2). -/
  freeIdx : Nat
deriving DecidableEq, Repr

/-- Reasons a step stops with a fault of the MODEL. The BPS's own faults are next states (FaultCode). -/
inductive Fault where
  /-- Raised by a host write of TEXT at or above TEXT_MAX, an index that does not exist (20_memory.md R39;
  assumption log 12). Safe: the spec gives such a write no effect. -/
  | noSuchTextUnit
deriving DecidableEq, Repr

/-- Reasons a step is refused, each where the spec says that a model refuses. -/
inductive Refusal where
  /-- Raised only by an arm of exec for an instruction without a meaning; no arm does. Safe. -/
  | notModelled (mnemonic : String)
  /-- Raised by an ENCODE that reads a TEXT unit the host has not written (20_memory.md R40; 93 I12). Safe. -/
  | textUnwritten
  /-- Raised by a host read of an OUT byte that does not exist or holds no value (20_memory.md R47; 93 I13). Safe. -/
  | outUnreadable
deriving DecidableEq, Repr

/-- The state after reset (10_state.md R17, R36; 70_reset_and_hazards.md R130): no value in A0, A1, TEXT and OUT,
zero in every other register. The stored zeros of A0 and A1, the sizes of the memories and the three fields of the
model's own are DESIGN CHOICES (assumption log 1, 6, 8, 2). -/
def State.reset : State where
  params := Config.atReset
  a0 := 0
  a0Written := false
  a1 := 0
  a1Written := false
  status := 0
  finfo := 0
  chk := 0
  excess := 0
  speriod := 0
  srate := 0
  nsamp := 0
  buflen := 0
  cursor := 0
  out := []
  text := []
  inputs := []
  replies := []
  freeIdx := 0

end Sys2Proof.Machine
end

