-- ==== Sys2Proof/Machine/Flags.lean ====
section
/-! DEFINITION. The fields of STATUS (10_state.md R21, R22). The BPS has no arithmetic flags (R16). -/

namespace Sys2Proof.Machine

/-- STATUS.CREATED, bit 0: an output buffer exists. -/
def State.created (s : State) : Bool := s.status.getLsbD 0

/-- STATUS.SYNTH, bit 1: the current buffer was created by SynthCreate. -/
def State.synth (s : State) : Bool := s.status.getLsbD 1

/-- STATUS.FINAL, bit 2: ContainerFinalize has completed on the current buffer. -/
def State.final (s : State) : Bool := s.status.getLsbD 2

/-- STATUS.FAULT, bit 3: a fault has been taken. -/
def State.faulted (s : State) : Bool := s.status.getLsbD 3

/-- STATUS.FCODE, bits 7:4: the code of the fault taken, 0 while FAULT = 0. -/
def State.fcode (s : State) : BitVec 4 := s.status.extractLsb' 4 4

/-- The value FCODE takes for a fault (60_exceptions.md R113). -/
def FaultCode.bits : FaultCode → BitVec 4
  | .sampleRange => 1
  | .bufferOverrun => 2
  | .illegalCommand => 3
  | .sequence => 4
  | .argument => 5
  | .capacity => 6

/-- STATUS from its five fields (R21). -/
def statusOf (code : BitVec 4) (faulted final synth created : Bool) : BitVec 8 :=
  code ++ BitVec.ofBool faulted ++ BitVec.ofBool final ++ BitVec.ofBool synth ++ BitVec.ofBool created

/-- Write STATUS.CREATED, STATUS.SYNTH and STATUS.FINAL; FAULT and FCODE stay. -/
def State.setStructure (created synth final : Bool) (s : State) : State :=
  { s with status := statusOf s.fcode s.faulted final synth created }

/-- STATUS.FINAL <- 1. -/
def State.setFinal (s : State) : State := s.setStructure s.created s.synth true

/-- STATUS.SYNTH <- 1. -/
def State.setSynth (s : State) : State := s.setStructure s.created true s.final

end Sys2Proof.Machine
end

