-- ==== Sys2Proof/Machine/Ops.lean ====
section
/-! DEFINITION. The named operations on the memories and the registers, fault entry (60_exceptions.md R117) and
its only way back, reset (70_reset_and_hazards.md R130). -/

namespace Sys2Proof.Machine

/-- The cells from address `a` on that hold the values `vs`. -/
def Memory.cells {w : Nat} (a : Nat) (vs : List (BitVec w)) : Memory w :=
  (vs.zipIdx a).map Prod.swap

/-- The value at an address; none where no value is held. -/
def Memory.read {w : Nat} (m : Memory w) (a : Nat) : Option (BitVec w) :=
  match m with
  | [] => none
  | c :: rest => if c.1 = a then some c.2 else Memory.read rest a

/-- Write the values `vs` at addresses `a`, `a + 1`, …; every other address keeps what it has. -/
def Memory.writeBlock {w : Nat} (m : Memory w) (a : Nat) (vs : List (BitVec w)) : Memory w :=
  m.filter (fun c => decide (c.1 < a)) ++ Memory.cells a vs ++ m.filter (fun c => decide (a + vs.length ≤ c.1))

/-- The canonical form: addresses strictly rising. An unlisted address holds no value, so no listed entry equals
what an unlisted address reads as. -/
abbrev Memory.wf {w : Nat} (m : Memory w) : Prop := (m.map Prod.fst).Pairwise (· < ·)

/-- The `n` bytes of `v`, least significant first (20_memory.md R42). -/
def leBytes (n v : Nat) : List Byte := (List.range n).map (fun i => BitVec.ofNat 8 (v >>> (8 * i)))

/-- OUT.MemWrite(a, n, v) (00_scope.md R8, 20_memory.md R42). -/
def Memory.writeLE (m : Memory 8) (a n v : Nat) : Memory 8 := m.writeBlock a (leBytes n v)

/-- Write one cell. -/
def Memory.write {w : Nat} (m : Memory w) (a : Nat) (v : BitVec w) : Memory w := m.writeBlock a [v]

/-- The units TEXT[i] .. TEXT[i + n - 1] in ascending order; none as soon as one holds no value (20_memory.md R39,
R40). -/
def Memory.readRange {w : Nat} (m : Memory w) (i : Nat) : Nat → Option (List (BitVec w))
  | 0 => some []
  | n + 1 =>
    match m.read i with
    | none => none
    | some u =>
      match Memory.readRange m (i + 1) n with
      | none => none
      | some us => some (u :: us)

/-- raise Fault(CODE) for the command whose word is `word` (60_exceptions.md R117): FAULT, FCODE and FINFO are set;
STATUS bits 2:0, CHK, EXCESS, SPERIOD, SRATE, NSAMP, BUFLEN and CURSOR become free values, no OUT byte holds a value,
and A0, A1 and TEXT keep what the host wrote. Nothing is saved and control goes nowhere. -/
def raise (code : FaultCode) (word : Word) (s : State) : State :=
  { s with
    status := code.bits ++ (1#1 ++ Config.lostStatus s.freeIdx)
    finfo := word
    chk := Config.lostChk s.freeIdx
    excess := Config.lostExcess s.freeIdx
    speriod := Config.lostSperiod s.freeIdx
    srate := Config.lostSrate s.freeIdx
    nsamp := Config.lostNsamp s.freeIdx
    buflen := Config.lostBuflen s.freeIdx
    cursor := Config.lostCursor s.freeIdx
    out := []
    freeIdx := s.freeIdx + 1 }

/-- Reset of the instance (70_reset_and_hazards.md R130), the only way out of a fault (60_exceptions.md R119). The
parameters are the platform's; the host's actions still to come, its replies and the draw counter are the model's own
and stay (assumption log 3). -/
def assertReset (s : State) : State :=
  { State.reset with params := s.params, inputs := s.inputs, replies := s.replies, freeIdx := s.freeIdx }

/-- The value a host read of a register returns (10_state.md R17, R18, R21): CMD and the reserved numbers read 0, and
narrower registers read with zero high bits. No register access faults (R18), so an A0 or A1 that the host has not
written reads as what it stores since reset (assumption log 1). -/
def readRegister (number : BitVec 8) (s : State) : Word64 :=
  if number = 0x01 then s.a0
  else if number = 0x02 then s.a1
  else if number = 0x03 then s.status.setWidth 64
  else if number = 0x04 then s.finfo.setWidth 64
  else if number = 0x05 then s.chk.setWidth 64
  else if number = 0x06 then s.excess
  else if number = 0x07 then s.speriod
  else if number = 0x08 then s.srate.setWidth 64
  else if number = 0x09 then s.nsamp.setWidth 64
  else if number = 0x0A then s.buflen
  else if number = 0x0B then s.cursor
  else 0

/-- A host write to a register other than CMD (10_state.md R18, R20): A0 and A1 take the whole value, every other
number ignores it. -/
def writeRegister (number : BitVec 8) (value : Word64) (s : State) : State :=
  if number = 0x01 then { s with a0 := value, a0Written := true }
  else if number = 0x02 then { s with a1 := value, a1Written := true }
  else s

/-- The byte a host read of OUT returns (20_memory.md R37, R47; 60_exceptions.md R118): only while a buffer exists
and no fault has been taken, below BUFLEN, and only a byte that holds a value. -/
def readOutByte (a : Nat) (s : State) : Option Byte :=
  if s.created && !s.faulted && decide (a < s.buflen.toNat) then s.out.read a else none

/-- Hand a value to the host. -/
def reply (v : Word64) (s : State) : State := { s with replies := s.replies ++ [v] }

/-- A host write of TEXT[i] (20_memory.md R39, R48). -/
def writeTextUnit (i : Nat) (u : TextUnit) (s : State) : State := { s with text := s.text.write i u }

end Sys2Proof.Machine
end

