-- ==== Sys2Proof/Machine/Operands.lean ====
section
/-! DEFINITION. How a command reads its operands (30_encoding.md R59; assumption log 1 says what it reads before the host
has written them), checks its STATUS precondition
(60_exceptions.md R114) and ends. -/

namespace Sys2Proof.Machine

/-- What a command's meaning answers. -/
abbrev Result := Host.Outcome State Fault Refusal

/-- u64(Ak): the register as an unsigned integer (30_encoding.md R59). -/
abbrev u64 (v : Word64) : Nat := v.toNat

/-- f64arg(Ak): the register as a binary64 pattern (30_encoding.md R59). -/
abbrev f64arg (v : Word64) : F64 := v

/-- bits 7:0 of a byte operand (30_encoding.md R59). -/
abbrev byteOf (v : Word64) : Byte := v.setWidth 8

/-- End the command `i` with fault entry (60_exceptions.md R112, R117). -/
def fail (i : Instr) (code : FaultCode) (s : State) : Result := .next (raise code (encode i) s)

/-- End the command `i`, begun in `s`, with what its operation gives: the new state, or fault entry. Fault entry
starts from `s`, because no partial effect of the command keeps a value (60_exceptions.md R117). -/
def finish (i : Instr) (s : State) (r : Except FaultCode State) : Result :=
  match r with
  | .ok s' => .next s'
  | .error code => fail i code s

/-- STATUS.CREATED must be 1, else SEQUENCE before anything else (60_exceptions.md R114). -/
def needCreated (i : Instr) (s : State) (k : Result) : Result :=
  if s.created then k else fail i .sequence s

/-- STATUS.SYNTH must be 1, else SEQUENCE before anything else (60_exceptions.md R114). -/
def needSynth (i : Instr) (s : State) (k : Result) : Result :=
  if s.synth then k else fail i .sequence s

/-- The sample rates a create command accepts, 1 to 0xFFFFFFFF (60_exceptions.md R115). -/
def rateOk (sr : Nat) : Bool := decide (1 ≤ sr ∧ sr ≤ 0xFFFFFFFF)

end Sys2Proof.Machine
end

