-- ==== Sys2Proof/Machine/Checksum.lean ====
section
/-! DEFINITION. The Checksum Accumulator: KRESET and KFOLD (42_checksum.md R92, R93). -/

namespace Sys2Proof.Machine

/-- KRESET: clear the accumulator (42_checksum.md R92). -/
def execKreset (s : State) : Result := .next { s with chk := 0 }

/-- KFOLD: fold one byte into the accumulator (42_checksum.md R93). -/
def execKfold (s : State) : Result := .next { s with chk := s.chk ^^^ byteOf s.a0 }

end Sys2Proof.Machine
end

