-- ==== Sys2Proof/Machine/Binary64.lean ====
section
/-! DEFINITION. Binary64 arithmetic on bit patterns (00_scope.md R9): each operation is exact in Nat and Int,
then rounded once to nearest, ties to even. The format is IEEE 754 binary64, as R9 says (assumption log 5). -/

namespace Sys2Proof

/-- The sign bit. -/
def F64.sign (x : F64) : Bool := BitVec.msb x

/-- The 11-bit biased exponent field. -/
def F64.expField (x : F64) : Nat := (BitVec.toNat x >>> 52) % 2048

/-- The 52-bit trailing significand field. -/
def F64.frac (x : F64) : Nat := BitVec.toNat x % 4503599627370496

/-- NaN: exponent field all ones, significand field not zero. -/
def F64.isNaN (x : F64) : Bool := F64.expField x == 2047 && F64.frac x != 0

/-- An infinity: exponent field all ones, significand field zero. -/
def F64.isInf (x : F64) : Bool := F64.expField x == 2047 && F64.frac x == 0

/-- Neither an infinity nor NaN. -/
def F64.isFinite (x : F64) : Bool := F64.expField x != 2047

/-- The integer significand of a finite number: its magnitude is `sig x * 2 ^ ulp x`. -/
def F64.sig (x : F64) : Nat :=
  if F64.expField x = 0 then F64.frac x else F64.frac x + 4503599627370496

/-- The exponent of the unit of `sig x`; a subnormal number has that of the smallest normal one. -/
def F64.ulp (x : F64) : Int := (max (F64.expField x) 1 : Nat) - 1075

/-- The significand with the number's sign. -/
def F64.signedSig (x : F64) : Int := if F64.sign x then -(F64.sig x : Int) else F64.sig x

/-- One of the two zeros. -/
def F64.isZero (x : F64) : Bool := F64.isFinite x && F64.sig x == 0

/-- The pattern with the given sign and the given low 63 bits. -/
def F64.pack (neg : Bool) (low63 : Nat) : F64 :=
  BitVec.ofNat 64 ((if neg then 9223372036854775808 else 0) + low63)

/-- The infinity of the given sign. -/
def F64.infinity (neg : Bool) : F64 := F64.pack neg 0x7FF0000000000000

/-- The zero of the given sign. -/
def F64.zero (neg : Bool) : F64 := F64.pack neg 0

/-- 1.0 -/
def F64.one : F64 := 0x3FF0000000000000

/-- `n / 2 ^ k` rounded to an integer, to nearest, ties to even. -/
def roundShift (n k : Nat) : Nat :=
  let q := n >>> k
  let r := n % 2 ^ k
  let half := 2 ^ k / 2
  if k ≠ 0 ∧ (half < r ∨ (half = r ∧ q % 2 = 1)) then q + 1 else q

/-- The binary64 number nearest to `(-1)^neg * m * 2^e`, ties to even, with gradual underflow and overflow to
infinity. `u` is the exponent of the result's unit in the last place. The packed sum lets a significand that rounds
up to a power of two carry into the exponent field. -/
def F64.round (neg : Bool) (m : Nat) (e : Int) : F64 :=
  if m = 0 then F64.zero neg
  else
    let u := max (e + (m.log2 : Int) - 52) (-1074)
    let sig := if u ≤ e then m <<< (e - u).toNat else roundShift m (u - e).toNat
    let low63 := (u + 1074).toNat * 4503599627370496 + sig
    if 0x7FF0000000000000 ≤ low63 then F64.infinity neg else F64.pack neg low63

/-- The binary64 number nearest to `(-1)^neg * (n / d) * 2^e` for d > 0: the quotient is kept to more than 60
significant bits and one more bit says whether anything is left, which decides a tie. -/
def F64.roundRatio (neg : Bool) (n d : Nat) (e : Int) : F64 :=
  let k := d.log2 + 62
  let q := (n <<< k) / d
  let sticky := if (n <<< k) % d = 0 then 0 else 1
  F64.round neg (2 * q + sticky) (e - k - 1)

/-- The one NaN pattern the spec writes down (95_test_vectors.md V-S-12, V-S-31). -/
def F64.specNaN : F64 := 0x7FF8000000000000

/-- The pattern of a NaN result. Where the only NaN among the operands is the pattern of V-S-31, that vector
states the result; elsewhere the spec states no pattern, and the sign and payload are a free value (assumption
log 4). -/
def F64.nanResult (op : Config.FloatOp) (a b : F64) : F64 :=
  if (F64.isNaN a || F64.isNaN b) && (!F64.isNaN a || a == F64.specNaN) && (!F64.isNaN b || b == F64.specNaN)
  then F64.specNaN
  else F64.specNaN ||| (Config.nanBits op a b &&& 0x8007FFFFFFFFFFFF)

/-- The sum of two patterns, none where it is NaN. A sum that is exactly zero is +0 unless both operands are
negative. -/
def F64.sum? (a b : F64) : Option F64 :=
  if F64.isNaN a || F64.isNaN b then none
  else if F64.isInf a then (if F64.isInf b && F64.sign a != F64.sign b then none else some a)
  else if F64.isInf b then some b
  else
    let e := min (F64.ulp a) (F64.ulp b)
    let x := F64.signedSig a * 2 ^ (F64.ulp a - e).toNat + F64.signedSig b * 2 ^ (F64.ulp b - e).toNat
    some (if x = 0 then F64.zero (F64.sign a && F64.sign b) else F64.round (decide (x < 0)) x.natAbs e)

/-- The number with the other sign. -/
def F64.flip (x : F64) : F64 := x ^^^ 0x8000000000000000

/-- fadd (00_scope.md R9). -/
def F64.fadd (a b : F64) : F64 := (F64.sum? a b).getD (F64.nanResult .add a b)

/-- fsub (00_scope.md R9). -/
def F64.fsub (a b : F64) : F64 := (F64.sum? a (F64.flip b)).getD (F64.nanResult .sub a b)

/-- fmul (00_scope.md R9). -/
def F64.fmul (a b : F64) : F64 :=
  let neg := F64.sign a != F64.sign b
  if F64.isNaN a || F64.isNaN b || (F64.isInf a && F64.isZero b) || (F64.isZero a && F64.isInf b) then
    F64.nanResult .mul a b
  else if F64.isInf a || F64.isInf b then F64.infinity neg
  else F64.round neg (F64.sig a * F64.sig b) (F64.ulp a + F64.ulp b)

/-- fdiv (00_scope.md R9). -/
def F64.fdiv (a b : F64) : F64 :=
  let neg := F64.sign a != F64.sign b
  if F64.isNaN a || F64.isNaN b || (F64.isInf a && F64.isInf b) || (F64.isZero a && F64.isZero b) then
    F64.nanResult .div a b
  else if F64.isInf a || F64.isZero b then F64.infinity neg
  else if F64.isInf b then F64.zero neg
  else F64.roundRatio neg (F64.sig a) (F64.sig b) (F64.ulp a - F64.ulp b)

/-- The order of the numbers that are not NaN, as integers: the two zeros are equal. -/
def F64.key (x : F64) : Int :=
  let low63 : Nat := BitVec.toNat x % 9223372036854775808
  if F64.sign x then -(low63 : Int) else low63

/-- flt (00_scope.md R9): the ordered comparison, false when either operand is NaN. -/
def F64.flt (a b : F64) : Bool := !F64.isNaN a && !F64.isNaN b && decide (F64.key a < F64.key b)

/-- f64(n) (00_scope.md R9). -/
def F64.ofNat (n : Nat) : F64 := F64.round false n 0

/-- floor_int (00_scope.md R9), for a finite number; no rule asks for it of another one. -/
def F64.floorInt (x : F64) : Int :=
  if 0 ≤ F64.ulp x then F64.signedSig x * 2 ^ (F64.ulp x).toNat
  else F64.signedSig x / 2 ^ (-F64.ulp x).toNat

/-- ceil_int (00_scope.md R9), for a finite number; no rule asks for it of another one. -/
def F64.ceilInt (x : F64) : Int :=
  if 0 ≤ F64.ulp x then F64.signedSig x * 2 ^ (F64.ulp x).toNat
  else -(-F64.signedSig x / 2 ^ (-F64.ulp x).toNat)

end Sys2Proof
end

