-- ==== Sys2Proof/Machine/Tape.lean ====
section
/-! DEFINITION. AppendSample, Wave, TransmitFrame and ContainerFinalize (40_sample_container.md R75, R76;
41_synthesizer.md R82; 43_encoder.md R98) on what one command sees of the sample buffer. A command is one atomic step
(00_scope.md R10), so its samples are gathered and written to OUT when it ends (assumption log 13). -/

namespace Sys2Proof.Machine

/-- The sample buffer as one running command sees it. -/
structure Tape where
  /-- How many samples still fit: BUFLEN - CURSOR. -/
  room : Nat
  /-- The samples this command has appended, NEWEST first. -/
  samples : List Byte
  /-- EXCESS as this command has left it. -/
  excess : F64
  /-- CHK as this command has left it. -/
  chk : Byte
deriving DecidableEq, Repr

/-- The tape a command starts with. -/
def tapeOf (s : State) : Tape where
  room := s.buflen.toNat - s.cursor.toNat
  samples := []
  excess := s.excess
  chk := s.chk

/-- The state in which the command's samples stand in OUT from CURSOR on, CURSOR has moved past them, and EXCESS and
CHK are as the command left them. -/
def commit (s : State) (t : Tape) : State :=
  { s with
    out := s.out.writeBlock s.cursor.toNat t.samples.reverse
    cursor := s.cursor + BitVec.ofNat 64 t.samples.length
    excess := t.excess
    chk := t.chk }

/-- Run an operation on the state's tape. -/
def onTape (f : Tape → Except FaultCode Tape) (s : State) : Except FaultCode State :=
  match f (tapeOf s) with
  | .ok t => .ok (commit s t)
  | .error code => .error code

/-- AppendSample(v) (40_sample_container.md R75): the range test first, then the end of the buffer. -/
def appendSample (v : Nat) (t : Tape) : Except FaultCode Tape :=
  if 255 < v then .error .sampleRange
  else if t.room = 0 then .error .bufferOverrun
  else .ok { t with room := t.room - 1, samples := BitVec.ofNat 8 v :: t.samples }

/-- `repeat n: f`. -/
def repeatTape (f : Tape → Except FaultCode Tape) : Nat → Tape → Except FaultCode Tape
  | 0, t => .ok t
  | n + 1, t =>
    match f t with
    | .ok t' => repeatTape f n t'
    | .error code => .error code

/-- First `f`, then `g`. -/
def andThen (f g : Tape → Except FaultCode Tape) (t : Tape) : Except FaultCode Tape :=
  match f t with
  | .ok t' => g t'
  | .error code => .error code

/-- The value Wave gives the sample at phase `d` of a pulse of duration `dur` (41_synthesizer.md R82). -/
def waveSample (p : Config.Params) (d dur : F64) : Byte :=
  if F64.flt (F64.fdiv d dur) p.dutySplit then p.sampleHigh else p.sampleLow

/-- The loop of Wave (41_synthesizer.md R82), from phase `d`. The first argument bounds the iterations: the loop runs
at most BUFLEN - CURSOR + 1 times (70_reset_and_hazards.md R140), so the bound is never what ends it. -/
def waveLoop (p : Config.Params) (speriod dur : F64) : Nat → F64 → Tape → Except FaultCode (F64 × Tape)
  | 0, d, t => .ok (d, t)
  | n + 1, d, t =>
    if F64.flt d dur then
      match appendSample (waveSample p d dur).toNat t with
      | .ok t' => waveLoop p speriod dur n (F64.fadd d speriod) t'
      | .error code => .error code
    else .ok (d, t)

/-- Wave(dur) (41_synthesizer.md R82). -/
def wave (p : Config.Params) (speriod dur : F64) (t : Tape) : Except FaultCode Tape :=
  match waveLoop p speriod dur (t.room + 1) t.excess t with
  | .ok (d, t') => .ok { t' with excess := F64.fsub d dur }
  | .error code => .error code

/-- The pulses of one frame bit: two short ones for a 1, one long one for a 0 (30_encoding.md R66). -/
def sendBit (p : Config.Params) (speriod : F64) (bit : Bool) : Tape → Except FaultCode Tape :=
  if bit then andThen (wave p speriod p.shortWave) (wave p speriod p.shortWave)
  else wave p speriod p.longWave

/-- Send the low `n` bits of a frame, bit 0 first, shifting it right after each (43_encoder.md R98). -/
def sendBits (p : Config.Params) (speriod : F64) : Nat → Nat → Tape → Except FaultCode Tape
  | 0, _, t => .ok t
  | n + 1, frame, t =>
    match sendBit p speriod (frame.testBit 0) t with
    | .ok t' => sendBits p speriod n (frame >>> 1) t'
    | .error code => .error code

/-- The 11-bit frame of `b` (30_encoding.md R65). -/
def frameOf (b : Nat) : Nat := (1 <<< 10) ||| (1 <<< 9) ||| (b <<< 1)

/-- XOR bits 7:0 of `b` into CHK (42_checksum.md R93). -/
def foldByte (b : Nat) (t : Tape) : Tape := { t with chk := t.chk ^^^ BitVec.ofNat 8 b }

/-- TransmitFrame(b, fold) (43_encoder.md R98): the fold, if any, comes before any sample. -/
def transmitFrame (p : Config.Params) (speriod : F64) (b : Nat) (fold : Bool) (t : Tape) : Except FaultCode Tape :=
  sendBits p speriod p.frameBits (frameOf b) (if fold then foldByte b t else t)

/-- Transmit the checksum byte, which is not folded (43_encoder.md R106, R107 step 7). -/
def transmitChecksum (p : Config.Params) (speriod : F64) (t : Tape) : Except FaultCode Tape :=
  transmitFrame p speriod t.chk.toNat false t

/-- Transmit bytes one after another, each folded. -/
def transmitAll (p : Config.Params) (speriod : F64) : List Nat → Tape → Except FaultCode Tape
  | [], t => .ok t
  | b :: bs, t =>
    match transmitFrame p speriod b true t with
    | .ok t' => transmitAll p speriod bs t'
    | .error code => .error code

/-- The loop of ContainerFinalize (40_sample_container.md R76), bounded by the room left. -/
def padLoop (silence : Byte) : Nat → Tape → Except FaultCode Tape
  | 0, t => .ok t
  | n + 1, t =>
    match appendSample silence.toNat t with
    | .ok t' => padLoop silence n t'
    | .error code => .error code

/-- ContainerFinalize() (40_sample_container.md R76). -/
def containerFinalize (s : State) : Except FaultCode State :=
  match onTape (fun t => padLoop s.params.silence t.room t) s with
  | .ok s' => .ok s'.setFinal
  | .error code => .error code

end Sys2Proof.Machine
end

