-- ==== Sys2Proof/Machine/Container.lean ====
section
/-! DEFINITION. The Sample Container: ContainerCreate (40_sample_container.md R74) and the commands CCREATE, CAPPEND
and CFINAL (R77 to R79). -/

namespace Sys2Proof.Machine

/-- The header's fields as (offset, bytes, value), in the order they are written (30_encoding.md R71,
40_sample_container.md R74). -/
def headerFields (p : Config.Params) (sr ns : Nat) : List (Nat × Nat × Nat) :=
  [(0, 4, 0x46464952),
   (4, 4, ns + p.riffSizeAdd),
   (8, 4, 0x45564157),
   (12, 4, 0x20746D66),
   (16, 4, p.fmtChunkSize),
   (20, 2, p.audioFormat),
   (22, 2, p.channels),
   (24, 4, sr),
   (28, 4, sr),
   (32, 2, p.blockAlign),
   (34, 2, p.bitsPerSample),
   (36, 4, 0x61746164),
   (40, 4, ns)]

/-- OUT with nothing but the header, written field by field. -/
def headerMemory (p : Config.Params) (sr ns : Nat) : Memory 8 :=
  (headerFields p sr ns).foldl (fun m f => m.writeLE f.1 f.2.1 f.2.2) []

/-- ContainerCreate(sr, ns) (40_sample_container.md R74). Its callers guarantee 1 ≤ sr ≤ 0xFFFFFFFF and
ns ≤ 0xFFFFFFE3. -/
def containerCreate (sr ns : Nat) (s : State) : Except FaultCode State :=
  if s.params.bufMax < ns + s.params.headerBytes then .error .capacity
  else
    .ok (State.setStructure true false false
      { s with
        srate := BitVec.ofNat 32 sr
        nsamp := BitVec.ofNat 32 ns
        buflen := BitVec.ofNat 64 (ns + s.params.headerBytes)
        cursor := BitVec.ofNat 64 s.params.headerBytes
        out := headerMemory s.params sr ns })

/-- CCREATE: create a Sample Container (40_sample_container.md R77). -/
def execCcreate (s : State) : Result :=
  if !rateOk (u64 s.a0) then fail .ccreate .argument s
  else if 0xFFFFFFE3 < u64 s.a1 then fail .ccreate .argument s
  else finish .ccreate s (containerCreate (u64 s.a0) (u64 s.a1) s)

/-- CAPPEND: append one sample (40_sample_container.md R78). -/
def execCappend (s : State) : Result :=
  needCreated .cappend s (finish .cappend s (onTape (appendSample (u64 s.a0)) s))

/-- CFINAL: finalise the Sample Container (40_sample_container.md R79). -/
def execCfinal (s : State) : Result :=
  needCreated .cfinal s (finish .cfinal s (containerFinalize s))

end Sys2Proof.Machine
end

