-- ==== Sys2Proof/Machine/Synthesizer.lean ====
section
/-! DEFINITION. The Waveform Synthesizer: SynthCreate (41_synthesizer.md R81) and the commands SCREATE, SWAVE,
SREPEAT and SFINAL (R86 to R89). -/

namespace Sys2Proof.Machine

/-- SynthCreate(sr, t) (41_synthesizer.md R81): the product is rounded before the ceiling is taken. -/
def synthCreate (sr : Nat) (t : F64) (s : State) : Except FaultCode State :=
  let x := F64.fmul t (F64.ofNat sr)
  if !F64.isFinite x then .error .argument
  else
    let ns := F64.ceilInt x + s.params.slackSamples
    if ns < 0 ∨ 0xFFFFFFE3 < ns then .error .argument
    else
      match containerCreate sr ns.toNat s with
      | .ok s' => .ok (State.setSynth { s' with excess := F64.zero false, speriod := F64.fdiv F64.one (F64.ofNat sr) })
      | .error code => .error code

/-- SCREATE: create a Waveform Synthesizer and its buffer (41_synthesizer.md R86). -/
def execScreate (s : State) : Result :=
  if !rateOk (u64 s.a0) then fail .screate .argument s
  else finish .screate s (synthCreate (u64 s.a0) (f64arg s.a1) s)

/-- SWAVE: emit one pulse (41_synthesizer.md R87). -/
def execSwave (s : State) : Result :=
  needSynth .swave s (finish .swave s (onTape (wave s.params s.speriod (f64arg s.a0)) s))

/-- SREPEAT: emit a burst of equal pulses (41_synthesizer.md R88). -/
def execSrepeat (s : State) : Result :=
  needSynth .srepeat s
    (finish .srepeat s (onTape (repeatTape (wave s.params s.speriod (f64arg s.a0)) (u64 s.a1)) s))

/-- SFINAL: finalise through the synthesizer (41_synthesizer.md R89). -/
def execSfinal (s : State) : Result :=
  needSynth .sfinal s (finish .sfinal s (containerFinalize s))

end Sys2Proof.Machine
end

