-- ==== Sys2Proof/Machine/Encoder.lean ====
section
/-! DEFINITION. The Protocol Encoder: Normalize (43_encoder.md R100, R101), TotalDuration (R103) and the commands
EXMIT, ECHK and ENCODE (R105 to R107). -/

namespace Sys2Proof.Machine

/-- The line-terminator loop of Normalize (43_encoder.md R100): `prev` is the input unit before this one. -/
def lineTerminators (p : Config.Params) : Option TextUnit → List TextUnit → List TextUnit
  | _, [] => []
  | prev, u :: us =>
    if u = p.lf then
      if prev = some p.cr then lineTerminators p (some u) us else p.cr :: lineTerminators p (some u) us
    else u :: lineTerminators p (some u) us

/-- Remove every unit of TRIM_SET from the front. -/
def trimFront (p : Config.Params) (v : List TextUnit) : List TextUnit := v.dropWhile (p.trimSet.contains ·)

/-- Remove every unit of TRIM_SET from the end. -/
def trimBack (p : Config.Params) (v : List TextUnit) : List TextUnit := (trimFront p v.reverse).reverse

/-- Normalize(u) (43_encoder.md R100). -/
def normalizeText (p : Config.Params) (u : List TextUnit) : List TextUnit :=
  trimBack p (trimFront p (lineTerminators p none u)) ++ [p.cr]

/-- TotalDuration(n), summed left to right (43_encoder.md R103). -/
def totalDuration (p : Config.Params) (n : Nat) : F64 :=
  let t := F64.fadd p.leaderDuration p.byteDuration
  let t := F64.fadd t (F64.fmul (F64.ofNat n) p.byteDuration)
  let t := F64.fadd t p.byteDuration
  let t := F64.fadd t p.byteDuration
  F64.fadd t p.trailerDuration

/-- The byte operand that carries a unit of the normalized text: DATA_OR | c (30_encoding.md R62). -/
def dataByte (p : Config.Params) (c : TextUnit) : Nat := p.dataOr ||| c.toNat

/-- The bytes an encode folds, in order: start marker, text, end marker (42_checksum.md R94). -/
def foldedBytes (p : Config.Params) (nt : List TextUnit) : List Nat :=
  p.startMarker :: nt.map (dataByte p) ++ [p.endMarker]

/-- Steps 4 to 8 of ENCODE (43_encoder.md R107): leader, start marker, text, end marker, checksum, trailer. -/
def encodeTape (p : Config.Params) (speriod : F64) (nt : List TextUnit) : Tape → Except FaultCode Tape :=
  andThen (repeatTape (wave p speriod p.shortWave) p.leaderCount) <|
  andThen (transmitAll p speriod (foldedBytes p nt)) <|
  andThen (transmitChecksum p speriod) <|
  repeatTape (wave p speriod p.shortWave) p.trailerCount

/-- Steps 2 to 9 of ENCODE for the normalized text `nt` (43_encoder.md R107). -/
def encodeText (nt : List TextUnit) (s : State) : Except FaultCode State :=
  match synthCreate s.params.sampleRate (totalDuration s.params nt.length) { s with chk := 0 } with
  | .error code => .error code
  | .ok s1 =>
    match onTape (encodeTape s1.params s1.speriod nt) s1 with
    | .error code => .error code
    | .ok s2 => containerFinalize s2

/-- EXMIT: transmit one protocol byte, folding it (43_encoder.md R105). -/
def execExmit (s : State) : Result :=
  needSynth .exmit s (finish .exmit s (onTape (transmitFrame s.params s.speriod (u64 s.a0) true) s))

/-- ECHK: transmit the checksum byte (43_encoder.md R106). -/
def execEchk (s : State) : Result :=
  needSynth .echk s (finish .echk s (onTape (transmitChecksum s.params s.speriod) s))

/-- ENCODE: the whole encode (43_encoder.md R107); where an unwritten TEXT unit stops it (20_memory.md R40): assumption
log 16. -/
def execEncode (s : State) : Result :=
  if s.params.textMax < u64 s.a0 then fail .encode .argument s
  else
    match s.text.readRange 0 (u64 s.a0) with
    | none => .refused .textUnwritten
    | some u => finish .encode s (encodeText (normalizeText s.params u) s)

end Sys2Proof.Machine
end

