-- ==== Sys2Proof/Machine/Dispatch.lean ====
section
/-! DEFINITION. The meaning of every command, one arm each. -/

namespace Sys2Proof.Machine

def exec (i : Instr) (s : State) : Host.Outcome State Fault Refusal :=
  match i with
  | .ccreate => Sys2Proof.Machine.execCcreate s
  | .cappend => Sys2Proof.Machine.execCappend s
  | .cfinal => Sys2Proof.Machine.execCfinal s
  | .screate => Sys2Proof.Machine.execScreate s
  | .swave => Sys2Proof.Machine.execSwave s
  | .srepeat => Sys2Proof.Machine.execSrepeat s
  | .sfinal => Sys2Proof.Machine.execSfinal s
  | .kreset => Sys2Proof.Machine.execKreset s
  | .kfold => Sys2Proof.Machine.execKfold s
  | .exmit => Sys2Proof.Machine.execExmit s
  | .echk => Sys2Proof.Machine.execEchk s
  | .encode => Sys2Proof.Machine.execEncode s

end Sys2Proof.Machine
end

