-- ==== Sys2Proof/Machine/Port.lean ====
section
/-! DEFINITION. The host's port: issuing a command and serving one host action (10_state.md R18, R19;
20_memory.md R47, R54). -/

namespace Sys2Proof.Machine

/-- A command's word written to CMD (10_state.md R19). While FAULT = 1 the write is ignored (60_exceptions.md R118);
an illegal word raises ILLEGAL_COMMAND before anything else (R116). -/
def issue (word : Word) (s : State) : Result :=
  if s.faulted then .next s
  else
    match decode word with
    | .ok i => exec i s
    | .error _ => .next (raise .illegalCommand word s)

/-- The command word of a value written to CMD: bits 63:32 are ignored (10_state.md R19). -/
def cmdWord (v : Word64) : Word := v.setWidth 32

/-- Serve a host write of a register. -/
def serveWriteReg (number : BitVec 8) (value : Word64) (s : State) : Result :=
  if number = 0x00 then issue (cmdWord value) s else .next (writeRegister number value s)

/-- Serve a host read of a register; it never stops (10_state.md R18). -/
def serveReadReg (number : BitVec 8) (s : State) : Result := .next (reply (readRegister number s) s)

/-- Serve a host write of TEXT[i]; an index at or above TEXT_MAX does not exist (20_memory.md R39). -/
def serveWriteText (index : Nat) (unit : TextUnit) (s : State) : Result :=
  if index < s.params.textMax then .next (writeTextUnit index unit s) else .fault .noSuchTextUnit

/-- Serve a host read of OUT[a] (20_memory.md R47). -/
def serveReadOut (address : Nat) (s : State) : Result :=
  match readOutByte address s with
  | some b => .next (reply (b.setWidth 64) s)
  | none => .refused .outUnreadable

/-- Serve one host action. -/
def serve (action : HostAction) (s : State) : Result :=
  match action with
  | .writeReg number value => serveWriteReg number value s
  | .readReg number => serveReadReg number s
  | .writeText index unit => serveWriteText index unit s
  | .readOut address => serveReadOut address s
  | .reset => .next (assertReset s)

/-- Take the next host action out of the queue and serve it; with none left the instance is idle and keeps all its
state (60_exceptions.md R129). -/
def serveNext (s : State) : Result :=
  match s.inputs with
  | [] => .next s
  | action :: rest => serve action { s with inputs := rest }

/-- The host is about to issue the command word whose low `nbits` bits are those of `w`. -/
def withCommand (s : State) (nbits w : Nat) : State :=
  { s with inputs := .writeReg 0x00 ((tableWord nbits w).setWidth 64) :: s.inputs }

end Sys2Proof.Machine
end

