-- ==== Sys2Proof/Machine/Step.lean ====
section
/-! DEFINITION. One step of the machine, and the state whose next step runs a given command word. -/

namespace Sys2Proof.Machine

/-- One step: the host's next action is served, a command as one atomic step (00_scope.md R10; assumption log 8). -/
def step (s : State) : Host.Outcome State Fault Refusal := serveNext s

/-- The state whose next step issues the given command word (assumption log 9). -/
def State.withFetchWord (s : State) (nbits w : Nat) : State := withCommand s nbits w

end Sys2Proof.Machine
end

