-- ==== Sys2Proof/Machine/Assembler.lean ====
section
/-! DEFINITION. Host programs: the actions that each line of 30_encoding.md R60 and each pseudo-instruction of R61
stands for. A program is a list of host actions; a machine that is given it as its inputs runs it, one action a step. -/

namespace Sys2Proof.Machine

/-- `a0 = x`. -/
def asmA0 (x : Word64) : List HostAction := [.writeReg 0x01 x]

/-- `a1 = x`. -/
def asmA1 (x : Word64) : List HostAction := [.writeReg 0x02 x]

/-- A bare mnemonic: its command word is written to CMD. -/
def asmCommand (i : Instr) : List HostAction := [.writeReg 0x00 ((encode i).setWidth 64)]

/-- `M x`: `a0 = x`, then `M`. -/
def asmCommand1 (i : Instr) (x : Word64) : List HostAction := asmA0 x ++ asmCommand i

/-- `M x, y`: `a0 = x`, `a1 = y`, then `M`. -/
def asmCommand2 (i : Instr) (x y : Word64) : List HostAction := asmA0 x ++ asmA1 y ++ asmCommand i

/-- The UTF-16 code units of a character (R60; PRESUMED, the surrogate pairs are those of UTF-16; assumption log 19). -/
def utf16 (c : Char) : List TextUnit :=
  if c.toNat < 0x10000 then [BitVec.ofNat 16 c.toNat]
  else [BitVec.ofNat 16 (0xD800 + (c.toNat - 0x10000) / 1024), BitVec.ofNat 16 (0xDC00 + (c.toNat - 0x10000) % 1024)]

/-- The value of a hexadecimal digit. -/
def hexDigit (c : Char) : Option Nat :=
  if '0' ≤ c ∧ c ≤ '9' then some (c.toNat - 48)
  else if 'A' ≤ c ∧ c ≤ 'F' then some (c.toNat - 55)
  else if 'a' ≤ c ∧ c ≤ 'f' then some (c.toNat - 87)
  else none

/-- The unit of the escape `\uXXXX`. -/
def hexUnit (a b c d : Char) : Option TextUnit := do
  let a ← hexDigit a
  let b ← hexDigit b
  let c ← hexDigit c
  let d ← hexDigit d
  some (BitVec.ofNat 16 (((a * 16 + b) * 16 + c) * 16 + d))

/-- The unit of a one-letter escape: r, n, t, the double quote (0x22) and the backslash (0x5C). -/
def escapeUnit (c : Char) : Option TextUnit :=
  if c = 'r' then some 0x000D
  else if c = 'n' then some 0x000A
  else if c = 't' then some 0x0009
  else if c.toNat = 0x22 then some 0x0022
  else if c.toNat = 0x5C then some 0x005C
  else none

/-- The units of a text S as it is written between its quotes (R60), at most as many of its items as the first argument
says; none for an escape that R60 does not list. -/
def asmUnitsUpTo : Nat → List Char → Option (List TextUnit)
  | _, [] => some []
  | 0, _ :: _ => none
  | n + 1, c :: rest =>
    if c.toNat = 0x5C then
      match rest with
      | 'u' :: h3 :: h2 :: h1 :: h0 :: rest =>
        match hexUnit h3 h2 h1 h0, asmUnitsUpTo n rest with
        | some u, some us => some (u :: us)
        | _, _ => none
      | e :: rest =>
        match escapeUnit e, asmUnitsUpTo n rest with
        | some u, some us => some (u :: us)
        | _, _ => none
      | [] => none
    else
      match asmUnitsUpTo n rest with
      | some us => some (utf16 c ++ us)
      | none => none

/-- The units of a text S as it is written between its quotes (R60). -/
def asmUnits (source : List Char) : Option (List TextUnit) := asmUnitsUpTo source.length source

/-- `text = "S"`: the units of S into TEXT[0 ..]. -/
def asmText (units : List TextUnit) : List HostAction :=
  (units.zipIdx).map (fun u => .writeText u.2 u.1)

/-- The literal `f64(p/q)` (R60). -/
def literalRatio (p q : Nat) : F64 := F64.fdiv (F64.ofNat p) (F64.ofNat q)

/-- The literal `f64(x)` for the decimal x = n / 10^k: the nearest binary64, ties to even (R60). -/
def literalDecimal (neg : Bool) (n k : Nat) : F64 := F64.roundRatio neg n (10 ^ k) 0

/-- `LEADER`: `SREPEAT f64(1/2400), 12000`. -/
def asmLeader : List HostAction := asmCommand2 .srepeat (literalRatio 1 2400) 12000

/-- `TRAILER`: `SREPEAT f64(1/2400), 12000`. -/
def asmTrailer : List HostAction := asmCommand2 .srepeat (literalRatio 1 2400) 12000

/-- `ENCODE "S"`: `text = "S"`, `a0 = |S|`, `ENCODE`. -/
def asmEncode (units : List TextUnit) : List HostAction :=
  asmText units ++ asmCommand1 .encode (BitVec.ofNat 64 units.length)

/-- `read R`. -/
def asmRead (number : BitVec 8) : List HostAction := [.readReg number]

/-- `read OUT[a..b]`. -/
def asmReadOut (a b : Nat) : List HostAction := (List.range' a (b + 1 - a)).map .readOut

/-- `reset`. -/
def asmReset : List HostAction := [.reset]

/-- The instance with a host program still to come after what it already has. -/
def withProgram (program : List HostAction) (s : State) : State := { s with inputs := s.inputs ++ program }

end Sys2Proof.Machine
end

