-- ==== Sys2Proof/Machine/System.lean ====
section
/-! DEFINITION. NUM_INSTANCES independent instances side by side (10_state.md R35, 60_exceptions.md R127). They share
no state; which one steps next is nobody's to say, so a step names it (assumption log 17). -/

namespace Sys2Proof.Machine

/-- `n` instances right after reset. -/
def systemReset (n : Nat) : List State := List.replicate n State.reset

/-- Instance `k` takes one step, the others stay; an instance that does not exist takes none. -/
def systemStep (k : Nat) (system : List State) : Host.Outcome (List State) Fault Refusal :=
  match system[k]? with
  | none => .next system
  | some s =>
    match step s with
    | .next s' => .next (system.set k s')
    | .fault r => .fault r
    | .refused r => .refused r

end Sys2Proof.Machine
end

