-- ==== Sys2Proof/Safety.lean ====
section
/-! DEFINITION. The terms the claims use: the machine's invariant (10_state.md R34), what fault entry leaves
(60_exceptions.md R117), and, written apart from the machine's arithmetic and loops, what a binary64 pattern holds and
what rounding to it means (00_scope.md R9), the samples of a pulse (41_synthesizer.md R83), the
pulses of a frame (30_encoding.md R65, R66), the stream of an encode (30_encoding.md R69) and the WAV byte sequence
(30_encoding.md R71). -/

namespace Sys2Proof.Machine

/-! ### Binary64, written apart from the machine's arithmetic (00_scope.md R9; assumption log 5) -/

/-- The pattern holds a number: its exponent field is not all ones. -/
def holdsNumber (x : F64) : Bool := x.extractLsb' 52 11 != 0x7FF

/-- The pattern holds one of the two zeros. -/
def holdsZero (x : F64) : Bool := x.extractLsb' 0 63 == 0

/-- The pattern holds one of the two infinities. -/
def holdsInfinity (x : F64) : Bool := x.extractLsb' 0 63 == 0x7FF0000000000000

/-- The pattern holds NaN. -/
def holdsNaN (x : F64) : Bool := !holdsNumber x && !holdsInfinity x

/-- The pattern of the infinity of the given sign. -/
def infinityOf (neg : Bool) : F64 := if neg then 0xFFF0000000000000 else 0x7FF0000000000000

/-- `q`, or `-q`. -/
def signed (neg : Bool) (q : ℚ) : ℚ := if neg then -q else q

/-- The number a pattern holds: `(-1)^sign * 2^(E - 1023) * (1 + f / 2^52)`, or `(-1)^sign * 2^(-1022) * (f / 2^52)` where
the exponent field E is zero; f is the significand field. -/
def valueOf (x : F64) : ℚ :=
  let E : ℕ := (x.extractLsb' 52 11).toNat
  let f : ℕ := (x.extractLsb' 0 52).toNat
  signed x.msb (if E = 0 then f / 2 ^ 52 * 2 ^ (-1022 : ℤ) else (1 + f / 2 ^ 52) * 2 ^ ((E : ℤ) - 1023))

/-- The least magnitude that rounds to infinity: halfway between the largest number, `(2^53 - 1) * 2^971`, and `2^1024`. -/
def overflowBound : ℚ := (2 ^ 54 - 1) * 2 ^ 970

/-- `x` is `q` rounded to nearest, ties to even, with the sign given: below the bound, no number binary64 holds is nearer
to `q`, and where another one is as near, the significand of `x` is even; from the bound on, `x` is an infinity. -/
def RoundedTo (neg : Bool) (q : ℚ) (x : F64) : Prop :=
  x.msb = neg ∧
  (|q| < overflowBound → holdsNumber x = true ∧ ∀ y : F64, holdsNumber y = true →
    |valueOf x - q| ≤ |valueOf y - q| ∧
    (|valueOf x - q| = |valueOf y - q| → valueOf y ≠ valueOf x → x.getLsbD 0 = false)) ∧
  (overflowBound ≤ |q| → holdsInfinity x = true)

/-! ### Pulses, frames and bytes -/

/-- d_k of 41_synthesizer.md R83: the phase position of sample k, counted from the phase `e`. -/
def phase (speriod e : F64) : Nat → F64
  | 0 => e
  | k + 1 => F64.fadd (phase speriod e k) speriod

/-- A pulse of duration `dur` that starts at phase `e` writes exactly `n` samples (41_synthesizer.md R83). -/
def pulseWrites (speriod dur e : F64) (n : Nat) : Bool :=
  (List.range n).all (fun k => F64.flt (phase speriod e k) dur) && !F64.flt (phase speriod e n) dur

/-- The first `n` samples of a pulse: sample k is SAMPLE_HIGH exactly when d_k / dur < DUTY_SPLIT
(41_synthesizer.md R83). -/
def pulseSamples (p : Config.Params) (speriod dur e : F64) (n : Nat) : List Byte :=
  (List.range n).map fun k =>
    if F64.flt (F64.fdiv (phase speriod e k) dur) p.dutySplit then p.sampleHigh else p.sampleLow

/-- The phase a pulse of `n` samples leaves in EXCESS (41_synthesizer.md R82). -/
def pulseEnd (speriod dur e : F64) (n : Nat) : F64 := F64.fsub (phase speriod e n) dur

/-- Pulses of durations `ds`, the first starting at phase `e`, write `ns` samples each, in this order. -/
def trainWrites (speriod : F64) : List F64 → List Nat → F64 → Bool
  | [], [], _ => true
  | d :: ds, n :: ns, e => pulseWrites speriod d e n && trainWrites speriod ds ns (pulseEnd speriod d e n)
  | _, _, _ => false

/-- The samples of a train of pulses. -/
def trainSamples (p : Config.Params) (speriod : F64) : List F64 → List Nat → F64 → List Byte
  | d :: ds, n :: ns, e => pulseSamples p speriod d e n ++ trainSamples p speriod ds ns (pulseEnd speriod d e n)
  | _, _, _ => []

/-- The phase a train of pulses leaves in EXCESS. -/
def trainEnd (speriod : F64) : List F64 → List Nat → F64 → F64
  | d :: ds, n :: ns, e => trainEnd speriod ds ns (pulseEnd speriod d e n)
  | _, _, e => e

/-- The bits of a byte's frame in sending order: start bit 0, the byte least significant bit first, two stop bits 1
(30_encoding.md R65). -/
def frameBitList (b : Byte) : List Bool :=
  [false, b.getLsbD 0, b.getLsbD 1, b.getLsbD 2, b.getLsbD 3, b.getLsbD 4, b.getLsbD 5, b.getLsbD 6, b.getLsbD 7,
   true, true]

/-- The pulses of one frame bit (30_encoding.md R66). -/
def bitPulses (p : Config.Params) (bit : Bool) : List F64 :=
  if bit then [p.shortWave, p.shortWave] else [p.longWave]

/-- The pulses of a byte's frame (30_encoding.md R65, R66). -/
def framePulses (p : Config.Params) (b : Byte) : List F64 := (frameBitList b).flatMap (bitPulses p)

/-- The bytes an encode folds: start marker, one byte per unit of the normalized text, end marker (42_checksum.md R94,
30_encoding.md R62, R63). -/
def protocolBytes (p : Config.Params) (nt : List TextUnit) : List Byte :=
  BitVec.ofNat 8 p.startMarker :: nt.map (fun c => BitVec.ofNat 8 p.dataOr ||| c.setWidth 8)
    ++ [BitVec.ofNat 8 p.endMarker]

/-- The xor of bytes (42_checksum.md R95). -/
def checksumOf (bs : List Byte) : Byte := bs.foldl (· ^^^ ·) 0

/-- The pulses of an encode (30_encoding.md R69): leader, one frame per protocol byte, the checksum's frame, trailer. -/
def encodePulses (p : Config.Params) (nt : List TextUnit) : List F64 :=
  List.replicate p.leaderCount p.shortWave
    ++ (protocolBytes p nt ++ [checksumOf (protocolBytes p nt)]).flatMap (framePulses p)
    ++ List.replicate p.trailerCount p.shortWave

/-- The numSamples SynthCreate computes for a rate and a duration (41_synthesizer.md R81). -/
def synthSamples (p : Config.Params) (sr : Nat) (t : F64) : Int :=
  F64.ceilInt (F64.fmul t (F64.ofNat sr)) + p.slackSamples

/-- SynthCreate accepts a rate and a duration (60_exceptions.md R115): the product is finite and numSamples is in
[0, 0xFFFFFFE3]. -/
def synthSizeOk (p : Config.Params) (sr : Nat) (t : F64) : Bool :=
  F64.isFinite (F64.fmul t (F64.ofNat sr)) &&
    decide (0 ≤ synthSamples p sr t ∧ synthSamples p sr t ≤ 0xFFFFFFE3)

/-- The 44-byte WAV header (30_encoding.md R71), the tags as their ASCII bytes. -/
def wavHeader (p : Config.Params) (sr ns : Nat) : List Byte :=
  [0x52, 0x49, 0x46, 0x46] ++ leBytes 4 (ns + p.riffSizeAdd) ++ [0x57, 0x41, 0x56, 0x45] ++ [0x66, 0x6D, 0x74, 0x20]
    ++ leBytes 4 p.fmtChunkSize ++ leBytes 2 p.audioFormat ++ leBytes 2 p.channels ++ leBytes 4 sr ++ leBytes 4 sr
    ++ leBytes 2 p.blockAlign ++ leBytes 2 p.bitsPerSample ++ [0x64, 0x61, 0x74, 0x61] ++ leBytes 4 ns

/-- OUT holds exactly these bytes, from address 0 on, and no other address holds a value. -/
def OutIs (t : State) (bytes : List Byte) : Prop := ∀ a : Nat, t.out.read a = bytes[a]?

/-- OUT after `bytes` were appended at CURSOR: those addresses hold them, every other one reads as before. -/
def OutAppended (s t : State) (bytes : List Byte) : Prop :=
  ∀ a : Nat, t.out.read a =
    if s.cursor.toNat ≤ a ∧ a < s.cursor.toNat + bytes.length then bytes[a - s.cursor.toNat]? else s.out.read a

/-- What no command touches: A0, A1 and TEXT (10_state.md R14; 20_memory.md R39), and the model's own host side. -/
def HostSideKept (s t : State) : Prop :=
  t.params = s.params ∧ t.a0 = s.a0 ∧ t.a0Written = s.a0Written ∧ t.a1 = s.a1 ∧ t.a1Written = s.a1Written ∧
    t.text = s.text ∧ t.inputs = s.inputs ∧ t.replies = s.replies

/-- STATUS and FINFO as they were. -/
def StatusKept (s t : State) : Prop := t.status = s.status ∧ t.finfo = s.finfo

/-- The description of the buffer as it was: SRATE, NSAMP, BUFLEN and SPERIOD (10_state.md R27 to R30). -/
def BufferKept (s t : State) : Prop :=
  t.srate = s.srate ∧ t.nsamp = s.nsamp ∧ t.buflen = s.buflen ∧ t.speriod = s.speriod

/-- A command appended `bytes` at CURSOR and left `e` in EXCESS and `c` in CHK; nothing else changed. -/
def SamplesAppended (s t : State) (bytes : List Byte) (e : F64) (c : Byte) : Prop :=
  OutAppended s t bytes ∧ t.cursor.toNat = s.cursor.toNat + bytes.length ∧ t.excess = e ∧ t.chk = c ∧
    StatusKept s t ∧ BufferKept s t ∧ HostSideKept s t

/-- FAULT, FCODE and FINFO as they were. -/
def FaultStatusKept (s t : State) : Prop := t.faulted = s.faulted ∧ t.fcode = s.fcode ∧ t.finfo = s.finfo

/-- The buffer's registers describe a buffer of `ns` samples at rate `sr` (10_state.md R28 to R30), and A0, A1, TEXT and
the fault fields are as they were. -/
def BufferOf (s t : State) (sr ns : Nat) : Prop :=
  t.created = true ∧ t.srate.toNat = sr ∧ t.nsamp.toNat = ns ∧ t.buflen.toNat = ns + 44 ∧
    FaultStatusKept s t ∧ HostSideKept s t

/-- ContainerFinalize ran (40_sample_container.md R76): SILENCE up to BUFLEN, CURSOR = BUFLEN, FINAL set, nothing else
changed. -/
def Finalised (s t : State) : Prop :=
  OutAppended s t (List.replicate (s.buflen.toNat - s.cursor.toNat) s.params.silence) ∧ t.cursor = s.buflen ∧
    t.final = true ∧ t.created = s.created ∧ t.synth = s.synth ∧ t.chk = s.chk ∧ t.excess = s.excess ∧
    FaultStatusKept s t ∧ BufferKept s t ∧ HostSideKept s t

/-- What fault entry with a code and a command word leaves (60_exceptions.md R117): FAULT, FCODE and FINFO set, no OUT
byte holding a value, A0, A1 and TEXT kept. Nothing is said of the registers that then hold no value. -/
def TakesFault (code : BitVec 4) (word : Word) (s t : State) : Prop :=
  t.faulted = true ∧ t.fcode = code ∧ t.finfo = word ∧ t.out = [] ∧ HostSideKept s t

/-- The command `i` ends in fault entry with the given code. -/
def Faults (i : Instr) (code : BitVec 4) (s : State) : Prop :=
  ∃ t, exec i s = .next t ∧ TakesFault code (encode i) s t

/-- The buffer's description is consistent while it exists (10_state.md R34 (1), (2), (4); R22). -/
def BufferConsistent (s : State) : Prop :=
  (s.synth = true → s.created = true) ∧
  (s.final = true → s.created = true ∧ s.cursor = s.buflen) ∧
  (s.created = true →
    s.buflen.toNat = s.nsamp.toNat + 44 ∧ 44 ≤ s.cursor.toNat ∧ s.cursor.toNat ≤ s.buflen.toNat ∧
      s.buflen.toNat ≤ s.params.bufMax)

/-- OUT holds a value exactly below CURSOR, and nothing while there is no buffer (10_state.md R34 (3); 20_memory.md
R37). -/
def OutFilled (s : State) : Prop :=
  (s.created = true → ∀ a : Nat, (s.out.read a).isSome = decide (a < s.cursor.toNat)) ∧
  (s.created = false → s.out = [])

/-- SPERIOD is 1 / SRATE while the synthesizer exists (10_state.md R22, R27). -/
def PeriodConsistent (s : State) : Prop :=
  s.synth = true → s.speriod = F64.fdiv F64.one (F64.ofNat s.srate.toNat)

/-- The invariant of one instance (10_state.md R22, R34): both memories in canonical form, TEXT inside its size, and
either no fault and a consistent buffer, or a fault with one of the six codes and an OUT that holds no value. -/
def State.Inv (s : State) : Prop :=
  paramsOk s.params = true ∧ s.out.wf ∧ s.text.wf ∧ (∀ c ∈ s.text, c.1 < s.params.textMax) ∧
  (s.faulted = false → s.fcode = 0 ∧ s.finfo = 0 ∧ BufferConsistent s ∧ OutFilled s ∧ PeriodConsistent s) ∧
  (s.faulted = true → 1 ≤ s.fcode.toNat ∧ s.fcode.toNat ≤ 6 ∧ s.out = [])

/-- The host program that builds an encode from primitive commands (70_reset_and_hazards.md R134), for the normalized
text `nt` and the duration the host computes for it. -/
def primitiveEncode (p : Config.Params) (nt : List TextUnit) : List HostAction :=
  asmCommand2 .screate (BitVec.ofNat 64 p.sampleRate) (totalDuration p nt.length)
    ++ asmCommand .kreset
    ++ asmCommand2 .srepeat p.shortWave (BitVec.ofNat 64 p.leaderCount)
    ++ asmCommand1 .exmit (BitVec.ofNat 64 p.startMarker)
    ++ nt.flatMap (fun c => asmCommand1 .exmit (BitVec.ofNat 64 (p.dataOr ||| c.toNat)))
    ++ asmCommand1 .exmit (BitVec.ofNat 64 p.endMarker)
    ++ asmCommand .echk
    ++ asmCommand2 .srepeat p.shortWave (BitVec.ofNat 64 p.trailerCount)
    ++ asmCommand .sfinal

/-- A receiver's reading of pulses as bits: a long pulse is a 0, two short ones are a 1 (30_encoding.md R70). -/
def receiveBits (p : Config.Params) : List F64 → Option (List Bool)
  | [] => some []
  | [d] => if d = p.longWave then some [false] else none
  | d :: e :: rest =>
    if d = p.longWave then (receiveBits p (e :: rest)).map (false :: ·)
    else if d = p.shortWave ∧ e = p.shortWave then (receiveBits p rest).map (true :: ·)
    else none

/-- A receiver's reading of an 11-bit frame (30_encoding.md R70): start bit 0, eight data bits, two stop bits 1. -/
def receiveByte : List Bool → Option Byte
  | [false, b0, b1, b2, b3, b4, b5, b6, b7, true, true] =>
    some (BitVec.ofBool b7 ++ BitVec.ofBool b6 ++ BitVec.ofBool b5 ++ BitVec.ofBool b4 ++ BitVec.ofBool b3
      ++ BitVec.ofBool b2 ++ BitVec.ofBool b1 ++ BitVec.ofBool b0)
  | _ => none

end Sys2Proof.Machine
end

