-- ==== Sys2Proof/Certificates/Slice0/Obligations.lean ====
section
/-! DEFINITION. The statements about the machine, each with the rule of spec/ it formalises. CURSOR ≤ BUFLEN, where it
is a premise, is part of the invariant State.Inv (10_state.md R34), which InvariantKeptByEveryStep is about. -/

open Sys2Proof Sys2Proof.Machine

/-! ### Command words -/

/-- 30_encoding.md R55, R56: a word decodes to a command exactly when it is the command's word. -/
def Obligations.DecodeExactlyTheEncodings : Prop :=
  ∀ (w : Word) (i : Instr), decode w = .ok i ↔ w = encode i

/-- 30_encoding.md R57: every other word is rejected, by the name of what is wrong with it. -/
def Obligations.IllegalWordsRejectedByName : Prop :=
  ∀ w : Word,
    (decode w = .error .reservedBitsSet ↔ reservedZero w = false) ∧
    (decode w = .error .unknownOpcode ↔ reservedZero w = true ∧ opcodeKnown w = false)

/-- 30_encoding.md R56: some words written out from the opcode table, one of each component, and some of R57. -/
def Obligations.SampleWordsDecode : Prop :=
  decode 0x00000010 = .ok .ccreate ∧ decode 0x00000022 = .ok .srepeat ∧ decode 0x00000031 = .ok .kfold ∧
  decode 0x00000042 = .ok .encode ∧ decode 0x00000000 = .error .unknownOpcode ∧
  decode 0x80000010 = .error .reservedBitsSet

/-! ### The host's port -/

/-- 10_state.md R19: a host write to CMD runs the command whose word is w[31:0], and nothing around it. -/
def Obligations.StepRunsDecodedCommand : Prop :=
  ∀ (s : State) (v : Word64) (rest : List HostAction) (i : Instr),
    s.inputs = .writeReg 0x00 v :: rest → s.faulted = false → decode (v.setWidth 32) = .ok i →
    step s = exec i { s with inputs := rest }

/-- The model's own: withFetchWord makes the next step run the command (assumption log 9). -/
def Obligations.FetchWordRunsCommand : Prop :=
  ∀ (s : State) (i : Instr), s.faulted = false →
    step (s.withFetchWord 32 (encode i).toNat) = exec i s

/-- 30_encoding.md R57: issuing an illegal word raises ILLEGAL_COMMAND, with the word in FINFO. -/
def Obligations.IllegalWordFaults : Prop :=
  ∀ (s : State) (v : Word64) (rest : List HostAction),
    s.inputs = .writeReg 0x00 v :: rest → s.faulted = false → commandWordOk (v.setWidth 32) = false →
    ∃ t, step s = .next t ∧ TakesFault 3 (v.setWidth 32) { s with inputs := rest } t

/-- 60_exceptions.md R118: while FAULT = 1 a CMD write changes nothing, A0, A1 and TEXT are written and registers are
read as ever, and a host read of OUT is refused. -/
def Obligations.FaultedInstanceIgnoresCommands : Prop :=
  ∀ (s : State) (rest : List HostAction), s.faulted = true →
    (∀ v, s.inputs = .writeReg 0x00 v :: rest → step s = .next { s with inputs := rest }) ∧
    (∀ v, s.inputs = .writeReg 0x01 v :: rest →
      step s = .next { s with inputs := rest, a0 := v, a0Written := true }) ∧
    (∀ v, s.inputs = .writeReg 0x02 v :: rest →
      step s = .next { s with inputs := rest, a1 := v, a1Written := true }) ∧
    (∀ i u, s.inputs = .writeText i u :: rest → i < s.params.textMax →
      step s = .next { s with inputs := rest, text := s.text.write i u }) ∧
    (∀ n, s.inputs = .readReg n :: rest →
      step s = .next { s with inputs := rest, replies := s.replies ++ [readRegister n s] }) ∧
    (∀ a, s.inputs = .readOut a :: rest → step s = .refused .outUnreadable)

/-- 10_state.md R18 (with R17, R20): what a host write and a host read of each register does; no register access faults.
An A0 or A1 that the host has not written reads as what the state stores for it: that it reads so is the model's choice
(assumption log 1). -/
def Obligations.HostRegisterAccess : Prop :=
  ∀ (s : State) (n : BitVec 8) (rest : List HostAction),
    (∀ v, s.inputs = .writeReg n v :: rest → n ≠ 0x00 →
      step s = .next (if n = 0x01 then { s with inputs := rest, a0 := v, a0Written := true }
        else if n = 0x02 then { s with inputs := rest, a1 := v, a1Written := true }
        else { s with inputs := rest })) ∧
    (s.inputs = .readReg n :: rest →
      (n = 0x00 → step s = .next { s with inputs := rest, replies := s.replies ++ [0] }) ∧
      (n = 0x01 → step s = .next { s with inputs := rest, replies := s.replies ++ [s.a0] }) ∧
      (n = 0x02 → step s = .next { s with inputs := rest, replies := s.replies ++ [s.a1] }) ∧
      (n = 0x03 → step s = .next { s with inputs := rest, replies := s.replies ++ [s.status.setWidth 64] }) ∧
      (n = 0x04 → step s = .next { s with inputs := rest, replies := s.replies ++ [s.finfo.setWidth 64] }) ∧
      (n = 0x05 → step s = .next { s with inputs := rest, replies := s.replies ++ [s.chk.setWidth 64] }) ∧
      (n = 0x06 → step s = .next { s with inputs := rest, replies := s.replies ++ [s.excess] }) ∧
      (n = 0x07 → step s = .next { s with inputs := rest, replies := s.replies ++ [s.speriod] }) ∧
      (n = 0x08 → step s = .next { s with inputs := rest, replies := s.replies ++ [s.srate.setWidth 64] }) ∧
      (n = 0x09 → step s = .next { s with inputs := rest, replies := s.replies ++ [s.nsamp.setWidth 64] }) ∧
      (n = 0x0A → step s = .next { s with inputs := rest, replies := s.replies ++ [s.buflen] }) ∧
      (n = 0x0B → step s = .next { s with inputs := rest, replies := s.replies ++ [s.cursor] }) ∧
      (0x0C ≤ n.toNat → step s = .next { s with inputs := rest, replies := s.replies ++ [0] }))

/-- 20_memory.md R47 (with R37 and 60_exceptions.md R118): the host reads an OUT byte that exists and holds a value;
every other read of OUT is refused. -/
def Obligations.HostReadsOut : Prop :=
  ∀ (s : State) (a : Nat) (rest : List HostAction), s.inputs = .readOut a :: rest →
    (∀ b, s.created = true → s.faulted = false → a < s.buflen.toNat → s.out.read a = some b →
      step s = .next { s with inputs := rest, replies := s.replies ++ [b.setWidth 64] }) ∧
    (s.created = false ∨ s.faulted = true ∨ s.buflen.toNat ≤ a ∨ s.out.read a = none →
      step s = .refused .outUnreadable)

/-- 20_memory.md R39, R40, R48: a host write of TEXT[i] is what a later read of unit i gives and changes nothing else;
beyond TEXT_MAX the model stops with its own fault (assumption log 12). -/
def Obligations.HostWritesText : Prop :=
  ∀ (s : State) (i : Nat) (u : TextUnit) (rest : List HostAction), s.inputs = .writeText i u :: rest →
    (i < s.params.textMax →
      ∃ m : Memory 16, step s = .next { s with inputs := rest, text := m } ∧ m.read i = some u ∧
        ∀ j, j ≠ i → m.read j = s.text.read j) ∧
    (s.params.textMax ≤ i → step s = .fault .noSuchTextUnit)

/-- 60_exceptions.md R129: with no host action to serve, the instance keeps all its state. -/
def Obligations.IdleKeepsState : Prop :=
  ∀ s : State, s.inputs = [] → step s = .next s

/-- 70_reset_and_hazards.md R130: reset, from any state, and what it leaves; the parameters and the host's side of the
queue are the model's own and stay (assumption log 3). -/
def Obligations.ResetFromAnyState : Prop :=
  ∀ (s : State) (rest : List HostAction), s.inputs = .reset :: rest →
    ∃ t, step s = .next t ∧
      t.status = 0 ∧ t.finfo = 0 ∧ t.chk = 0 ∧ t.excess = 0 ∧ t.speriod = 0 ∧ t.srate = 0 ∧ t.nsamp = 0 ∧
      t.buflen = 0 ∧ t.cursor = 0 ∧ t.a0Written = false ∧ t.a1Written = false ∧
      (∀ a, t.out.read a = none) ∧ (∀ i, t.text.read i = none) ∧
      t.params = s.params ∧ t.inputs = rest ∧ t.replies = s.replies

/-- 10_state.md R36 (with R17, R21): the state after reset. -/
def Obligations.ResetValues : Prop :=
  State.reset.a0Written = false ∧ State.reset.a1Written = false ∧ State.reset.status = 0 ∧
  State.reset.created = false ∧ State.reset.synth = false ∧ State.reset.final = false ∧
  State.reset.faulted = false ∧ State.reset.fcode = 0 ∧ State.reset.finfo = 0 ∧ State.reset.chk = 0 ∧
  State.reset.excess = 0 ∧ State.reset.speriod = 0 ∧ State.reset.srate = 0 ∧ State.reset.nsamp = 0 ∧
  State.reset.buflen = 0 ∧ State.reset.cursor = 0 ∧ (∀ a, State.reset.out.read a = none) ∧
  (∀ i, State.reset.text.read i = none)

/-! ### Faults -/

/-- 60_exceptions.md R117: fault entry, for each code and any command word; the codes are those of R113. -/
def Obligations.FaultEntry : Prop :=
  ∀ (w : Word) (s : State),
    TakesFault 1 w s (raise .sampleRange w s) ∧ TakesFault 2 w s (raise .bufferOverrun w s) ∧
    TakesFault 3 w s (raise .illegalCommand w s) ∧ TakesFault 4 w s (raise .sequence w s) ∧
    TakesFault 5 w s (raise .argument w s) ∧ TakesFault 6 w s (raise .capacity w s)

/-- 60_exceptions.md R114: which commands need CREATED, which need SYNTH, and which need nothing. -/
def Obligations.StatusPreconditions : Prop :=
  ∀ s : State,
    (s.created = false → Faults .cappend 4 s ∧ Faults .cfinal 4 s) ∧
    (s.synth = false →
      Faults .swave 4 s ∧ Faults .srepeat 4 s ∧ Faults .sfinal 4 s ∧ Faults .exmit 4 s ∧ Faults .echk 4 s) ∧
    (∀ (i : Instr) (t : State),
      i = .ccreate ∨ i = .screate ∨ i = .kreset ∨ i = .kfold ∨ i = .encode →
      s.faulted = false → exec i s = .next t → ¬(t.faulted = true ∧ t.fcode = 4))

/-- 60_exceptions.md R113: which commands raise which code, and that FINFO records the word. -/
def Obligations.FaultSources : Prop :=
  ∀ (i : Instr) (s t : State), s.faulted = false → exec i s = .next t → t.faulted = true →
    t.finfo = encode i ∧
    (t.fcode = 1 ∧ i = .cappend ∧ 255 < s.a0.toNat ∨
     t.fcode = 2 ∧ (i = .cappend ∨ i = .swave ∨ i = .srepeat ∨ i = .exmit ∨ i = .echk ∨ i = .encode) ∨
     t.fcode = 4 ∧ (i = .cappend ∨ i = .cfinal ∨ i = .swave ∨ i = .srepeat ∨ i = .sfinal ∨ i = .exmit ∨ i = .echk) ∨
     t.fcode = 5 ∧ (i = .ccreate ∨ i = .screate ∨ i = .encode) ∨
     t.fcode = 6 ∧ (i = .ccreate ∨ i = .screate ∨ i = .encode))

/-- 60_exceptions.md R119: only reset clears a fault, and the first fault's code and word stay. -/
def Obligations.OnlyResetClearsFault : Prop :=
  ∀ (s t : State), s.faulted = true → (∀ rest, s.inputs ≠ .reset :: rest) → step s = .next t →
    t.faulted = true ∧ t.fcode = s.fcode ∧ t.finfo = s.finfo

/-- The model's own (assumption log 1): 10_state.md R20 gives a command that reads an unwritten A0 or A1 no meaning; the
model runs it on what the register stores. So whether the host has written A0 and A1 changes nothing that a command does:
the statements below about written registers hold of unwritten ones too. -/
def Obligations.UnwrittenArgumentsReadAsStored : Prop :=
  ∀ (i : Instr) (s t : State) (w0 w1 : Bool), exec i s = .next t →
    exec i { s with a0Written := w0, a1Written := w1 } = .next { t with a0Written := w0, a1Written := w1 }

/-! ### The Sample Container -/

/-- 40_sample_container.md R77 with ContainerCreate (R74) and the header of 30_encoding.md R71. -/
def Obligations.CcreateRule : Prop :=
  encode .ccreate = 0x00000010 ∧
  ∀ s : State, headerOk s.params = true → s.a0Written = true → s.a1Written = true →
    (s.a0.toNat = 0 ∨ 0xFFFFFFFF < s.a0.toNat → Faults .ccreate 5 s) ∧
    (1 ≤ s.a0.toNat → s.a0.toNat ≤ 0xFFFFFFFF → 0xFFFFFFE3 < s.a1.toNat → Faults .ccreate 5 s) ∧
    (1 ≤ s.a0.toNat → s.a0.toNat ≤ 0xFFFFFFFF → s.a1.toNat ≤ 0xFFFFFFE3 → s.params.bufMax < s.a1.toNat + 44 →
      Faults .ccreate 6 s) ∧
    (1 ≤ s.a0.toNat → s.a0.toNat ≤ 0xFFFFFFFF → s.a1.toNat ≤ 0xFFFFFFE3 → s.a1.toNat + 44 ≤ s.params.bufMax →
      ∃ t, exec .ccreate s = .next t ∧ BufferOf s t s.a0.toNat s.a1.toNat ∧ t.synth = false ∧ t.final = false ∧
        t.cursor = 44 ∧ OutIs t (wavHeader s.params s.a0.toNat s.a1.toNat) ∧
        t.chk = s.chk ∧ t.excess = s.excess ∧ t.speriod = s.speriod)

/-- 40_sample_container.md R78 with AppendSample (R75). -/
def Obligations.CappendRule : Prop :=
  encode .cappend = 0x00000011 ∧
  ∀ s : State, s.cursor.toNat ≤ s.buflen.toNat →
    (s.created = false → Faults .cappend 4 s) ∧
    (s.created = true → s.a0Written = true → 255 < s.a0.toNat → Faults .cappend 1 s) ∧
    (s.created = true → s.a0Written = true → s.a0.toNat ≤ 255 → s.cursor = s.buflen → Faults .cappend 2 s) ∧
    (s.created = true → s.a0Written = true → s.a0.toNat ≤ 255 → s.cursor ≠ s.buflen →
      ∃ t, exec .cappend s = .next t ∧ SamplesAppended s t [s.a0.setWidth 8] s.excess s.chk)

/-- 40_sample_container.md R79 and 41_synthesizer.md R89 with ContainerFinalize (R76): CFINAL gated by CREATED and SFINAL
by SYNTH, the same effect. -/
def Obligations.FinaliseRules : Prop :=
  encode .cfinal = 0x00000012 ∧ encode .sfinal = 0x00000023 ∧
  ∀ s : State, s.cursor.toNat ≤ s.buflen.toNat →
    (s.created = false → Faults .cfinal 4 s) ∧
    (s.synth = false → Faults .sfinal 4 s) ∧
    (s.created = true → ∃ t, exec .cfinal s = .next t ∧ Finalised s t) ∧
    (s.synth = true → ∃ t, exec .sfinal s = .next t ∧ Finalised s t)

/-! ### The Waveform Synthesizer -/

/-- 41_synthesizer.md R86 with SynthCreate (R81). -/
def Obligations.ScreateRule : Prop :=
  encode .screate = 0x00000020 ∧
  ∀ s : State, headerOk s.params = true → s.a0Written = true →
    (s.a0.toNat = 0 ∨ 0xFFFFFFFF < s.a0.toNat → Faults .screate 5 s) ∧
    (1 ≤ s.a0.toNat → s.a0.toNat ≤ 0xFFFFFFFF → s.a1Written = true →
      (synthSizeOk s.params s.a0.toNat s.a1 = false → Faults .screate 5 s) ∧
      (synthSizeOk s.params s.a0.toNat s.a1 = true →
        s.params.bufMax < (synthSamples s.params s.a0.toNat s.a1).toNat + 44 → Faults .screate 6 s) ∧
      (synthSizeOk s.params s.a0.toNat s.a1 = true →
        (synthSamples s.params s.a0.toNat s.a1).toNat + 44 ≤ s.params.bufMax →
        ∃ t, exec .screate s = .next t ∧
          BufferOf s t s.a0.toNat (synthSamples s.params s.a0.toNat s.a1).toNat ∧
          t.synth = true ∧ t.final = false ∧ t.cursor = 44 ∧
          OutIs t (wavHeader s.params s.a0.toNat (synthSamples s.params s.a0.toNat s.a1).toNat) ∧
          t.excess = 0 ∧ t.speriod = F64.fdiv 0x3FF0000000000000 (F64.ofNat s.a0.toNat) ∧ t.chk = s.chk))

/-- 41_synthesizer.md R87 with Wave (R82) and the sample count of R83: a pulse that fits is written sample by sample, one
that does not fit overruns the buffer. -/
def Obligations.SwaveRule : Prop :=
  encode .swave = 0x00000021 ∧
  ∀ s : State, s.cursor.toNat ≤ s.buflen.toNat →
    (s.synth = false → Faults .swave 4 s) ∧
    (∀ n : Nat, s.synth = true → s.a0Written = true → pulseWrites s.speriod s.a0 s.excess n = true →
      s.cursor.toNat + n ≤ s.buflen.toNat →
      ∃ t, exec .swave s = .next t ∧
        SamplesAppended s t (pulseSamples s.params s.speriod s.a0 s.excess n)
          (pulseEnd s.speriod s.a0 s.excess n) s.chk) ∧
    (s.synth = true → s.a0Written = true →
      (∀ k, s.cursor.toNat + k ≤ s.buflen.toNat → F64.flt (phase s.speriod s.excess k) s.a0 = true) →
      Faults .swave 2 s)

/-- 41_synthesizer.md R88: SREPEAT is a train of u64(A1) pulses of one duration; a train that does not fit overruns the
buffer. -/
def Obligations.SrepeatRule : Prop :=
  encode .srepeat = 0x00000022 ∧
  ∀ s : State, s.cursor.toNat ≤ s.buflen.toNat →
    (s.synth = false → Faults .srepeat 4 s) ∧
    (∀ ns : List Nat, s.synth = true → s.a0Written = true → s.a1Written = true →
      trainWrites s.speriod (List.replicate s.a1.toNat s.a0) ns s.excess = true →
      s.cursor.toNat + ns.sum ≤ s.buflen.toNat →
      ∃ t, exec .srepeat s = .next t ∧
        SamplesAppended s t (trainSamples s.params s.speriod (List.replicate s.a1.toNat s.a0) ns s.excess)
          (trainEnd s.speriod (List.replicate s.a1.toNat s.a0) ns s.excess) s.chk) ∧
    (s.synth = true → s.a0Written = true → s.a1Written = true →
      (∀ ns : List Nat, trainWrites s.speriod (List.replicate s.a1.toNat s.a0) ns s.excess = true →
        s.buflen.toNat < s.cursor.toNat + ns.sum) →
      Faults .srepeat 2 s)

/-- 41_synthesizer.md R88, "SREPEAT dur, k is identical in effect to k SWAVE dur commands": k steps that each serve a
write of SWAVE's word end in the state in which SREPEAT ends, where that is not a fault. -/
def Obligations.SrepeatIsIteratedSwave : Prop :=
  ∀ (s t : State), s.Inv → s.faulted = false → exec .srepeat s = .next t → t.faulted = false →
    Host.Core.run Sys2Proof.core s.a1.toNat
      { s with inputs := List.replicate s.a1.toNat (HostAction.writeReg 0x00 0x21) ++ s.inputs } = .next t

/-- 41_synthesizer.md R87 (corner cases): a pulse no longer than the carried phase, or NaN against anything, writes no
sample and sets EXCESS to fsub(EXCESS, dur); NaN, once in EXCESS or in dur, stays in EXCESS. -/
def Obligations.PulseWithoutSamples : Prop :=
  ∀ s : State, s.out.wf → s.synth = true → s.a0Written = true →
    (F64.flt s.excess s.a0 = false → exec .swave s = .next { s with excess := F64.fsub s.excess s.a0 }) ∧
    (F64.isNaN s.excess = true ∨ F64.isNaN s.a0 = true →
      ∃ e, exec .swave s = .next { s with excess := e } ∧ F64.isNaN e = true)

/-! ### The Checksum Accumulator -/

/-- 42_checksum.md R92. -/
def Obligations.KresetRule : Prop :=
  encode .kreset = 0x00000030 ∧ ∀ s : State, exec .kreset s = .next { s with chk := 0 }

/-- 42_checksum.md R93: only bits 7:0 of the operand are folded. -/
def Obligations.KfoldRule : Prop :=
  encode .kfold = 0x00000031 ∧
  ∀ s : State, s.a0Written = true → exec .kfold s = .next { s with chk := s.chk ^^^ s.a0.setWidth 8 }

/-- 42_checksum.md R95: the checksum of an encode does not depend on the order of folding, its bit 7 is n mod 2, and
its bits 6:0 are 0x01 xor the units' bits 6:0. -/
def Obligations.ChecksumOfProtocolBytes : Prop :=
  (∀ bs cs : List Byte, bs.Perm cs → checksumOf bs = checksumOf cs) ∧
  ∀ (p : Config.Params) (nt : List TextUnit), p.Standard →
    (checksumOf (protocolBytes p nt)).getLsbD 7 = decide (nt.length % 2 = 1) ∧
    (checksumOf (protocolBytes p nt)).extractLsb' 0 7 = (nt.map (BitVec.setWidth 7)).foldl (· ^^^ ·) 1

/-! ### The Protocol Encoder -/

/-- 43_encoder.md R105: EXMIT folds the byte and sends its frame's pulses. -/
def Obligations.ExmitRule : Prop :=
  encode .exmit = 0x00000040 ∧
  ∀ s : State, s.params.frameBits = 11 → s.cursor.toNat ≤ s.buflen.toNat →
    (s.synth = false → Faults .exmit 4 s) ∧
    (∀ ns : List Nat, s.synth = true → s.a0Written = true →
      trainWrites s.speriod (framePulses s.params (s.a0.setWidth 8)) ns s.excess = true →
      s.cursor.toNat + ns.sum ≤ s.buflen.toNat →
      ∃ t, exec .exmit s = .next t ∧
        SamplesAppended s t (trainSamples s.params s.speriod (framePulses s.params (s.a0.setWidth 8)) ns s.excess)
          (trainEnd s.speriod (framePulses s.params (s.a0.setWidth 8)) ns s.excess) (s.chk ^^^ s.a0.setWidth 8)) ∧
    (s.synth = true → s.a0Written = true →
      (∀ ns : List Nat, trainWrites s.speriod (framePulses s.params (s.a0.setWidth 8)) ns s.excess = true →
        s.buflen.toNat < s.cursor.toNat + ns.sum) →
      Faults .exmit 2 s)

/-- 43_encoder.md R106: ECHK sends CHK's frame and folds nothing. -/
def Obligations.EchkRule : Prop :=
  encode .echk = 0x00000041 ∧
  ∀ s : State, s.params.frameBits = 11 → s.cursor.toNat ≤ s.buflen.toNat →
    (s.synth = false → Faults .echk 4 s) ∧
    (∀ ns : List Nat, s.synth = true →
      trainWrites s.speriod (framePulses s.params s.chk) ns s.excess = true →
      s.cursor.toNat + ns.sum ≤ s.buflen.toNat →
      ∃ t, exec .echk s = .next t ∧
        SamplesAppended s t (trainSamples s.params s.speriod (framePulses s.params s.chk) ns s.excess)
          (trainEnd s.speriod (framePulses s.params s.chk) ns s.excess) s.chk) ∧
    (s.synth = true →
      (∀ ns : List Nat, trainWrites s.speriod (framePulses s.params s.chk) ns s.excess = true →
        s.buflen.toNat < s.cursor.toNat + ns.sum) →
      Faults .echk 2 s)

/-- 43_encoder.md R107: ENCODE checks its operand and the size, and then OUT is the header, the samples of the pulses of
30_encoding.md R69 and the padding, with CHK the checksum of 42_checksum.md R94. `us` are the text's units, `sr` and `sp`
the rate and the sample period, `sz` the numSamples of the normalized text's duration. -/
def Obligations.EncodeRule : Prop :=
  encode .encode = 0x00000042 ∧
  ∀ s : State, paramsOk s.params = true → s.params.frameBits = 11 → s.a0Written = true →
    (s.params.textMax < s.a0.toNat → Faults .encode 5 s) ∧
    (s.a0.toNat ≤ s.params.textMax → (∃ k, k < s.a0.toNat ∧ s.text.read k = none) →
      exec .encode s = .refused .textUnwritten) ∧
    (∀ us : List TextUnit, s.a0.toNat ≤ s.params.textMax → us.length = s.a0.toNat →
      (∀ k, k < us.length → s.text.read k = us[k]?) →
      let p := s.params
      let nt := normalizeText p us
      let t := totalDuration p nt.length
      let sz := (synthSamples p p.sampleRate t).toNat
      let sp := F64.fdiv 0x3FF0000000000000 (F64.ofNat p.sampleRate)
      let ds := encodePulses p nt
      (synthSizeOk p p.sampleRate t = false → Faults .encode 5 s) ∧
      (synthSizeOk p p.sampleRate t = true → p.bufMax < sz + 44 → Faults .encode 6 s) ∧
      (∀ ns : List Nat, synthSizeOk p p.sampleRate t = true → sz + 44 ≤ p.bufMax →
        trainWrites sp ds ns 0 = true → ns.sum ≤ sz →
        ∃ u, exec .encode s = .next u ∧ BufferOf s u p.sampleRate sz ∧ u.synth = true ∧ u.final = true ∧
          u.cursor = u.buflen ∧ u.speriod = sp ∧ u.excess = trainEnd sp ds ns 0 ∧
          u.chk = checksumOf (protocolBytes p nt) ∧
          OutIs u (wavHeader p p.sampleRate sz ++ trainSamples p sp ds ns 0 ++
            List.replicate (sz - ns.sum) p.silence)) ∧
      (synthSizeOk p p.sampleRate t = true → sz + 44 ≤ p.bufMax →
        (∀ ns : List Nat, trainWrites sp ds ns 0 = true → sz < ns.sum) → Faults .encode 2 s))

/-- 43_encoder.md R108: an encode that ends without a fault depends on the parameters, L and TEXT[0 .. L-1] alone. -/
def Obligations.EncodeIsPure : Prop :=
  ∀ (s₁ s₂ t₁ : State), s₁.params = s₂.params → s₁.a0 = s₂.a0 → s₁.a0Written = true → s₂.a0Written = true →
    (∀ k, k < s₁.a0.toNat → s₁.text.read k = s₂.text.read k) →
    exec .encode s₁ = .next t₁ → t₁.faulted = false →
    ∃ t₂, exec .encode s₂ = .next t₂ ∧ t₂.out = t₁.out ∧ t₂.chk = t₁.chk ∧ t₂.excess = t₁.excess ∧
      t₂.speriod = t₁.speriod ∧ t₂.srate = t₁.srate ∧ t₂.nsamp = t₁.nsamp ∧ t₂.buflen = t₁.buflen ∧
      t₂.cursor = t₁.cursor ∧ t₂.created = t₁.created ∧ t₂.synth = t₁.synth ∧ t₂.final = t₁.final

/-- 70_reset_and_hazards.md R134: the host program of primitive commands leaves what ENCODE of the same text leaves. -/
def Obligations.EncodeEqualsPrimitiveCommands : Prop :=
  ∀ (s t : State) (us : List TextUnit), s.Inv → s.faulted = false →
    s.params.leaderCount < 2 ^ 64 → s.params.trailerCount < 2 ^ 64 → s.params.frameBits = 11 →
    s.text.readRange 0 s.a0.toNat = some us → exec .encode s = .next t → t.faulted = false →
    let program := primitiveEncode s.params (normalizeText s.params us)
    ∃ u, Host.Core.run Sys2Proof.core program.length { s with inputs := program } = .next u ∧
      u.out = t.out ∧ u.chk = t.chk ∧ u.excess = t.excess ∧ u.speriod = t.speriod ∧ u.srate = t.srate ∧
      u.nsamp = t.nsamp ∧ u.buflen = t.buflen ∧ u.cursor = t.cursor ∧ u.status = t.status ∧ u.finfo = t.finfo

/-- 43_encoder.md R99 (with 30_encoding.md R65): the bits of a frame, and that only bits 7:0 of the operand matter. -/
def Obligations.FrameOfByteOperand : Prop :=
  ∀ b : Nat,
    (frameOf b).testBit 0 = false ∧ (∀ k, 1 ≤ k → k ≤ 8 → (frameOf b).testBit k = b.testBit (k - 1)) ∧
    (frameOf b).testBit 9 = true ∧ (frameOf b).testBit 10 = true ∧
    ∀ (p : Config.Params) (sp : F64) (fold : Bool) (t : Tape), p.frameBits = 11 →
      transmitFrame p sp b fold t = transmitFrame p sp (b % 256) fold t

/-- 30_encoding.md R70: a receiver that reverses R66 and R65 recovers every byte from its frame's pulses. -/
def Obligations.ReceiverRecoversByte : Prop :=
  ∀ (p : Config.Params) (b : Byte), p.shortWave ≠ p.longWave →
    (receiveBits p (framePulses p b)).bind receiveByte = some b

/-- 43_encoder.md R102: the shape of a normalized text, at the parameters' defaults. -/
def Obligations.NormalizedTextShape : Prop :=
  ∀ (p : Config.Params) (u : List TextUnit), p.Standard →
    (∃ v : List TextUnit, normalizeText p u = v ++ [0x000D] ∧
      (∀ x, v.getLast? = some x → p.trimSet.contains x = false) ∧
      (∀ x, v.head? = some x → p.trimSet.contains x = false)) ∧
    1 ≤ (normalizeText p u).length ∧ (0x000A : TextUnit) ∉ normalizeText p u ∧
    ((∀ x ∈ u, p.trimSet.contains x = true) → normalizeText p u = [0x000D]) ∧
    (∀ a b : List TextUnit, lineTerminators p none (a ++ 0x000D :: 0x000A :: b) =
      lineTerminators p none a ++ 0x000D :: lineTerminators p (some 0x000A) b) ∧
    (∀ a b : List TextUnit, a.getLast? ≠ some 0x000D → lineTerminators p none (a ++ 0x000A :: b) =
      lineTerminators p none a ++ 0x000D :: lineTerminators p (some 0x000A) b) ∧
    (∀ a b : List TextUnit, lineTerminators p none (a ++ 0x000D :: b) =
      lineTerminators p none a ++ 0x000D :: lineTerminators p (some 0x000D) b) ∧
    (∀ a b : List TextUnit, a.getLast? ≠ some 0x000D → lineTerminators p none (a ++ 0x000A :: 0x000D :: b) =
      lineTerminators p none a ++ 0x000D :: 0x000D :: lineTerminators p (some 0x000D) b) ∧
    normalizeText p [0x31, 0x30, 0x20, 0x50, 0x52, 0x49, 0x4E, 0x54, 0x0A] =
      [0x31, 0x30, 0x20, 0x50, 0x52, 0x49, 0x4E, 0x54, 0x0D] ∧
    normalizeText p [0x20, 0x20, 0x0D, 0x0A, 0x31, 0x30, 0x20, 0x52, 0x45, 0x4D, 0x0A, 0x32, 0x30, 0x20, 0x45, 0x4E, 0x44,
        0x0D, 0x0A, 0x0A] =
      [0x31, 0x30, 0x20, 0x52, 0x45, 0x4D, 0x0D, 0x32, 0x30, 0x20, 0x45, 0x4E, 0x44, 0x0D]

/-- 43_encoder.md R103 (95_test_vectors.md V-L1-7): TotalDuration at the defaults, and that another order of the sum
gives another size for n = 5. -/
def Obligations.TotalDurationVectors : Prop :=
  totalDuration Config.atReset 1 = 0x402412C5F92C5F92 ∧ totalDuration Config.atReset 2 = 0x4024177777777777 ∧
  totalDuration Config.atReset 5 = 0x4024258BF258BF25 ∧ totalDuration Config.atReset 100 = 0x4025E369D0369D03 ∧
  synthSamples Config.atReset 44100 (totalDuration Config.atReset 5) = 444239 ∧
  synthSamples Config.atReset 44100
    (F64.fadd (F64.ofNat 10) (F64.fmul (F64.ofNat 8) Config.atReset.byteDuration)) = 444240

/-- 00_scope.md R6 (with 43_encoder.md R104): the defaults that are computed have the values they are computed from. -/
def Obligations.ProtocolConstants : Prop :=
  Config.atReset.shortWave = F64.fdiv (F64.ofNat 1) (F64.ofNat 2400) ∧
  Config.atReset.longWave = F64.fdiv (F64.ofNat 1) (F64.ofNat 1200) ∧
  Config.atReset.byteDuration = F64.fmul (F64.ofNat 11) Config.atReset.longWave ∧
  Config.atReset.leaderDuration = F64.ofNat 5 ∧ Config.atReset.trailerDuration = F64.ofNat 5 ∧
  Config.atReset.leaderCount = F64.floorInt (F64.fdiv Config.atReset.leaderDuration Config.atReset.shortWave) ∧
  Config.atReset.trailerCount = F64.floorInt (F64.fdiv Config.atReset.trailerDuration Config.atReset.shortWave) ∧
  Config.atReset.dutySplit = F64.fdiv (F64.ofNat 1) (F64.ofNat 2) ∧
  F64.fadd Config.atReset.shortWave Config.atReset.shortWave = Config.atReset.longWave

/-! ### Binary64 -/

/-- 00_scope.md R9: rounding is to nearest, ties to even: of a quotient by a power of two to an integer, of
`(-1)^neg * m * 2^e` and of `(-1)^neg * (n / d) * 2^e` to binary64, whatever their size, and so f64(n). -/
def Obligations.RoundsToNearestEven : Prop :=
  (∀ n k : Nat,
    2 * ((roundShift n k : Int) * 2 ^ k - n).natAbs ≤ 2 ^ k ∧
    (2 * ((roundShift n k : Int) * 2 ^ k - n).natAbs = 2 ^ k → roundShift n k % 2 = 0)) ∧
  (∀ (neg : Bool) (m : Nat) (e : Int), RoundedTo neg (signed neg (m * 2 ^ e)) (F64.round neg m e)) ∧
  (∀ (neg : Bool) (n d : Nat) (e : Int), 0 < d →
    RoundedTo neg (signed neg (n / d * 2 ^ e)) (F64.roundRatio neg n d e)) ∧
  (∀ n : Nat, RoundedTo false n (F64.ofNat n))

/-- 00_scope.md R9: the sum, difference, product and quotient of two numbers are the exact ones, rounded once to nearest
with ties to even. The sign of a zero sum or difference, and of a zero product or quotient, is that of IEEE 754
(assumption log 5). -/
def Obligations.ArithmeticRoundsOnce : Prop :=
  ∀ a b : F64, holdsNumber a = true → holdsNumber b = true →
    RoundedTo (if valueOf a + valueOf b = 0 then a.msb && b.msb else decide (valueOf a + valueOf b < 0))
      (valueOf a + valueOf b) (F64.fadd a b) ∧
    RoundedTo (if valueOf a - valueOf b = 0 then a.msb && !b.msb else decide (valueOf a - valueOf b < 0))
      (valueOf a - valueOf b) (F64.fsub a b) ∧
    RoundedTo (a.msb != b.msb) (valueOf a * valueOf b) (F64.fmul a b) ∧
    (holdsZero b = false → RoundedTo (a.msb != b.msb) (valueOf a / valueOf b) (F64.fdiv a b))

/-- The model's reading of IEEE 754, which 00_scope.md R9 names (assumption log 5): the results of the four operations
where an operand is an infinity or NaN, or a divisor is zero. -/
def Obligations.ArithmeticBeyondNumbers : Prop :=
  ∀ a b : F64,
    (holdsNaN (F64.fadd a b) = (holdsNaN a || holdsNaN b || holdsInfinity a && holdsInfinity b && (a.msb != b.msb))) ∧
    (holdsNaN (F64.fsub a b) = (holdsNaN a || holdsNaN b || holdsInfinity a && holdsInfinity b && (a.msb == b.msb))) ∧
    (holdsNaN (F64.fmul a b) =
      (holdsNaN a || holdsNaN b || holdsInfinity a && holdsZero b || holdsZero a && holdsInfinity b)) ∧
    (holdsNaN (F64.fdiv a b) =
      (holdsNaN a || holdsNaN b || holdsInfinity a && holdsInfinity b || holdsZero a && holdsZero b)) ∧
    (holdsInfinity a = true → holdsNumber b = true →
      F64.fadd a b = a ∧ F64.fadd b a = a ∧ F64.fsub a b = a ∧ F64.fsub b a = infinityOf (!a.msb) ∧
      (holdsZero b = false → F64.fmul a b = infinityOf (a.msb != b.msb) ∧ F64.fmul b a = infinityOf (a.msb != b.msb)) ∧
      F64.fdiv a b = infinityOf (a.msb != b.msb) ∧ holdsZero (F64.fdiv b a) = true ∧ (F64.fdiv b a).msb = (a.msb != b.msb)) ∧
    (holdsInfinity a = true → holdsInfinity b = true →
      (a.msb = b.msb → F64.fadd a b = a) ∧ (a.msb ≠ b.msb → F64.fsub a b = a) ∧ F64.fmul a b = infinityOf (a.msb != b.msb)) ∧
    (holdsNumber a = true → holdsZero a = false → holdsZero b = true → F64.fdiv a b = infinityOf (a.msb != b.msb))

/-- 00_scope.md R9: ceil_int and floor_int of a number. -/
def Obligations.IntegerPartsOfNumbers : Prop :=
  ∀ x : F64, holdsNumber x = true → F64.ceilInt x = ⌈valueOf x⌉ ∧ F64.floorInt x = ⌊valueOf x⌋

/-- 00_scope.md R9: a number that binary64 holds is not changed by rounding, and adding or subtracting nothing gives it
back. -/
def Obligations.RepresentableNumbersKept : Prop :=
  ∀ x : F64, F64.isFinite x = true →
    F64.round (F64.sign x) (F64.sig x) (F64.ulp x) = x ∧ F64.fsub x 0 = x ∧ F64.fsub x x = 0

/-- 00_scope.md R9: flt is false on NaN, compares the values of numbers, and has every number and the other infinity
above the negative infinity and below the positive one. -/
def Obligations.ComparisonOfValues : Prop :=
  ∀ a b : F64,
    (holdsNaN a = true ∨ holdsNaN b = true → F64.flt a b = false) ∧
    (holdsNumber a = true → holdsNumber b = true → (F64.flt a b = true ↔ valueOf a < valueOf b)) ∧
    (holdsInfinity a = true → holdsNaN b = false → F64.flt a b = (a.msb && a != b)) ∧
    (holdsInfinity b = true → holdsNaN a = false → F64.flt a b = (!b.msb && a != b))

/-! ### The whole machine -/

/-- 10_state.md R34 (with R22): the state after reset has the invariant. -/
def Obligations.InvariantHoldsAtReset : Prop := State.reset.Inv

/-- 10_state.md R34 (with R22): every step keeps the invariant, from every state that has it. -/
def Obligations.InvariantKeptByEveryStep : Prop :=
  ∀ s t : State, s.Inv → step s = .next t → t.Inv

/-- 10_state.md R14, 20_memory.md R39: no command writes A0, A1 or TEXT, nor the host's side of the model. -/
def Obligations.CommandsKeepHostSide : Prop :=
  ∀ (i : Instr) (s t : State), exec i s = .next t → HostSideKept s t

/-- 10_state.md R23 to R31: which commands write which register, where the command ends without a fault. -/
def Obligations.RegisterWriters : Prop :=
  ∀ (i : Instr) (s t : State), exec i s = .next t → s.faulted = false → t.faulted = false →
    t.finfo = s.finfo ∧ t.fcode = s.fcode ∧
    (i ≠ .kreset ∧ i ≠ .kfold ∧ i ≠ .exmit ∧ i ≠ .encode → t.chk = s.chk) ∧
    (i = .ccreate ∨ i = .cappend ∨ i = .cfinal ∨ i = .sfinal ∨ i = .kreset ∨ i = .kfold → t.excess = s.excess) ∧
    (i ≠ .screate ∧ i ≠ .encode → t.speriod = s.speriod) ∧
    (i ≠ .ccreate ∧ i ≠ .screate ∧ i ≠ .encode →
      t.srate = s.srate ∧ t.nsamp = s.nsamp ∧ t.buflen = s.buflen ∧ t.created = s.created ∧ t.synth = s.synth) ∧
    (i = .cappend ∨ i = .swave ∨ i = .srepeat ∨ i = .kreset ∨ i = .kfold ∨ i = .exmit ∨ i = .echk →
      t.status = s.status) ∧
    (i = .kreset ∨ i = .kfold → t.cursor = s.cursor ∧ t.out = s.out)

/-- 40_sample_container.md R80 (3): the payload is written in address order, each byte once: a command that ends without
a fault leaves every byte outside [old CURSOR, new CURSOR) as it was, except where it creates a new buffer. -/
def Obligations.PayloadWrittenInOrder : Prop :=
  ∀ (i : Instr) (s t : State), s.cursor.toNat ≤ s.buflen.toNat →
    i ≠ .ccreate → i ≠ .screate → i ≠ .encode →
    exec i s = .next t → s.faulted = false → t.faulted = false →
    s.cursor.toNat ≤ t.cursor.toNat ∧ t.cursor.toNat ≤ t.buflen.toNat ∧
    ∀ a : Nat, a < s.cursor.toNat ∨ t.cursor.toNat ≤ a → t.out.read a = s.out.read a

/-- 60_exceptions.md R127, 10_state.md R35: instances share nothing: a step of one leaves the others as they are, and
steps of two instances can be taken in either order. -/
def Obligations.InstancesIndependent : Prop :=
  ∀ (j k : Nat) (sys a b : List State), j ≠ k → systemStep j sys = .next a → systemStep k sys = .next b →
    (∀ m, m ≠ j → a[m]? = sys[m]?) ∧
    ∃ c, systemStep k a = .next c ∧ systemStep j b = .next c
end

