-- ==== Sys2Proof/Laws/Binary64.lean ====
section
/-! SUPPORT. The laws of the binary64 operations: the fields of a pattern, and that NaN stays NaN. -/

namespace Sys2Proof

theorem F64.frac_lt (x : F64) : F64.frac x < 4503599627370496 := Nat.mod_lt _ (by decide)

theorem F64.expField_lt (x : F64) : F64.expField x < 2048 := Nat.mod_lt _ (by decide)

theorem F64.expField_eq (x : F64) : F64.expField x = BitVec.toNat x / 4503599627370496 % 2048 := by
  simp [F64.expField, Nat.shiftRight_eq_div_pow]

theorem F64.sign_eq (x : F64) : F64.sign x = decide (9223372036854775808 ≤ BitVec.toNat x) := by
  simp [F64.sign, BitVec.msb_eq_decide]

/-- A pattern is its sign, its exponent field and its significand field. -/
theorem F64.toNat_eq (x : F64) :
    BitVec.toNat x = (if F64.sign x then 9223372036854775808 else 0) + F64.expField x * 4503599627370496 + F64.frac x := by
  have := x.isLt
  rw [F64.sign_eq, F64.expField_eq, F64.frac]
  split <;> simp_all <;> omega

theorem F64.not_isNaN_of_isFinite {x : F64} (h : F64.isFinite x = true) : F64.isNaN x = false := by
  simp_all [F64.isFinite, F64.isNaN]

theorem F64.not_isInf_of_isFinite {x : F64} (h : F64.isFinite x = true) : F64.isInf x = false := by
  simp_all [F64.isFinite, F64.isInf]

/-! ### The number with the other sign -/

theorem F64.expField_extract (x : F64) : F64.expField x = BitVec.toNat (BitVec.extractLsb' 52 11 x) := by
  simp [F64.expField, BitVec.extractLsb'_toNat]

theorem F64.frac_extract (x : F64) : F64.frac x = BitVec.toNat (BitVec.extractLsb' 0 52 x) := by
  simp [F64.frac, BitVec.extractLsb'_toNat]

@[simp] theorem F64.expField_flip (x : F64) : F64.expField (F64.flip x) = F64.expField x := by
  have h : BitVec.extractLsb' 52 11 (0x8000000000000000 : F64) = BitVec.zero _ := by decide
  rw [F64.expField_extract, F64.expField_extract, F64.flip, BitVec.extractLsb'_xor, h]; simp

@[simp] theorem F64.frac_flip (x : F64) : F64.frac (F64.flip x) = F64.frac x := by
  have h : BitVec.extractLsb' 0 52 (0x8000000000000000 : F64) = BitVec.zero _ := by decide
  rw [F64.frac_extract, F64.frac_extract, F64.flip, BitVec.extractLsb'_xor, h]; simp

@[simp] theorem F64.sign_flip (x : F64) : F64.sign (F64.flip x) = !F64.sign x := by
  have h : BitVec.msb (0x8000000000000000 : F64) = true := by decide
  rw [F64.sign, F64.sign, F64.flip, BitVec.msb_xor, h, Bool.xor_true]

@[simp] theorem F64.isNaN_flip (x : F64) : F64.isNaN (F64.flip x) = F64.isNaN x := by simp [F64.isNaN]

@[simp] theorem F64.isInf_flip (x : F64) : F64.isInf (F64.flip x) = F64.isInf x := by simp [F64.isInf]

@[simp] theorem F64.sig_flip (x : F64) : F64.sig (F64.flip x) = F64.sig x := by simp [F64.sig]

@[simp] theorem F64.ulp_flip (x : F64) : F64.ulp (F64.flip x) = F64.ulp x := by simp [F64.ulp]

@[simp] theorem F64.signedSig_flip (x : F64) : F64.signedSig (F64.flip x) = -F64.signedSig x := by
  simp only [F64.signedSig, F64.sign_flip, F64.sig_flip]; cases F64.sign x <;> simp

/-! ### NaN -/

/-- A NaN result is NaN, whatever its free bits are. -/
theorem F64.isNaN_nanResult (op : Config.FloatOp) (a b : F64) : F64.isNaN (F64.nanResult op a b) = true := by
  unfold F64.nanResult
  split
  · decide
  · generalize Config.nanBits op a b &&& 0x8007FFFFFFFFFFFF = v
    have hbit : ∀ k, 51 ≤ k → k < 63 → (F64.specNaN ||| v).getLsbD k = true := by
      intro k h1 h2
      rw [BitVec.getLsbD_or]
      have h : ∀ j : Fin 12, F64.specNaN.getLsbD (51 + j) = true := by decide
      have := h ⟨k - 51, by omega⟩
      simp only [show 51 + (k - 51) = k by omega] at this
      simp [this]
    have hexp : F64.expField (F64.specNaN ||| v) = 2047 := by
      have : BitVec.extractLsb' 52 11 (F64.specNaN ||| v) = BitVec.allOnes 11 := by
        apply BitVec.eq_of_getLsbD_eq
        intro i hi
        rw [BitVec.getLsbD_extractLsb', hbit (52 + i) (by omega) (by omega), BitVec.getLsbD_allOnes]
        simp [hi]
      rw [F64.expField_extract, this]; decide
    have hfrac : F64.frac (F64.specNaN ||| v) ≠ 0 := by
      intro h
      have h1 : (BitVec.toNat (F64.specNaN ||| v)).testBit 51 = true := hbit 51 (by omega) (by omega)
      have h2 : (BitVec.toNat (F64.specNaN ||| v) % 2 ^ 52).testBit 51 = false := by
        have : BitVec.toNat (F64.specNaN ||| v) % 2 ^ 52 = 0 := h
        rw [this]; simp
      rw [Nat.testBit_mod_two_pow, h1] at h2
      simp at h2
    simp [F64.isNaN, hexp, hfrac]

theorem F64.sum?_of_isNaN {a b : F64} (h : F64.isNaN a = true ∨ F64.isNaN b = true) : F64.sum? a b = none := by
  unfold F64.sum?; rcases h with h | h <;> simp [h]

theorem F64.isNaN_fadd {a b : F64} (h : F64.isNaN a = true ∨ F64.isNaN b = true) :
    F64.isNaN (F64.fadd a b) = true := by
  rw [F64.fadd, F64.sum?_of_isNaN h]; exact F64.isNaN_nanResult _ _ _

theorem F64.isNaN_fsub {a b : F64} (h : F64.isNaN a = true ∨ F64.isNaN b = true) :
    F64.isNaN (F64.fsub a b) = true := by
  rw [F64.fsub, F64.sum?_of_isNaN (by simpa using h)]; exact F64.isNaN_nanResult _ _ _

end Sys2Proof
end

