-- ==== Sys2Proof/Laws/Memory.lean ====
section
/-! SUPPORT. The laws of the memories: what a read finds after a write, and that every memory operation keeps the
canonical form. -/

namespace Sys2Proof.Machine

variable {w : Nat}

@[simp] theorem Memory.read_nil (a : Nat) : Memory.read ([] : Memory w) a = none := rfl

theorem Memory.read_cons (c : Nat × BitVec w) (m : Memory w) (a : Nat) :
    Memory.read (c :: m) a = if c.1 = a then some c.2 else Memory.read m a := rfl

theorem Memory.read_append (m₁ m₂ : Memory w) (a : Nat) :
    Memory.read (m₁ ++ m₂) a = (Memory.read m₁ a).or (Memory.read m₂ a) := by
  induction m₁ with
  | nil => simp
  | cons c m ih =>
    simp only [List.cons_append, Memory.read_cons]
    split <;> simp [ih]

theorem Memory.read_filter (P : Nat → Bool) (m : Memory w) (a : Nat) :
    Memory.read (m.filter (fun c => P c.1)) a = if P a then Memory.read m a else none := by
  induction m with
  | nil => simp
  | cons c m ih =>
    by_cases hc : P c.1
    · rw [List.filter_cons_of_pos (by exact hc), Memory.read_cons, Memory.read_cons, ih]
      by_cases ha : c.1 = a
      · subst ha; simp [hc]
      · simp [ha]
    · rw [List.filter_cons_of_neg (by exact hc), Memory.read_cons, ih]
      by_cases ha : c.1 = a
      · subst ha; simp [hc]
      · simp [ha]

theorem Memory.cells_cons (a : Nat) (v : BitVec w) (vs : List (BitVec w)) :
    Memory.cells a (v :: vs) = (a, v) :: Memory.cells (a + 1) vs := by
  simp [Memory.cells, List.zipIdx_cons]

@[simp] theorem Memory.cells_nil (a : Nat) : Memory.cells a ([] : List (BitVec w)) = [] := rfl

theorem Memory.read_cells (vs : List (BitVec w)) (a b : Nat) :
    Memory.read (Memory.cells a vs) b = if a ≤ b then vs[b - a]? else none := by
  induction vs generalizing a with
  | nil => simp
  | cons v vs ih =>
    rw [Memory.cells_cons, Memory.read_cons, ih]
    rcases Nat.lt_trichotomy a b with h | h | h
    · obtain ⟨k, rfl⟩ : ∃ k, b = a + 1 + k := ⟨b - (a + 1), by omega⟩
      have h2 : a + 1 + k - a = k + 1 := by omega
      simp [h2, show ¬ a = a + 1 + k by omega, show a ≤ a + 1 + k by omega]
    · subst h; simp
    · simp [show ¬ a = b by omega, show ¬ a + 1 ≤ b by omega, show ¬ a ≤ b by omega]

/-- A read after a write: a written address gives the value written, every other address what it gave before. -/
theorem Memory.read_writeBlock (m : Memory w) (a : Nat) (vs : List (BitVec w)) (b : Nat) :
    Memory.read (m.writeBlock a vs) b =
      if a ≤ b ∧ b < a + vs.length then vs[b - a]? else Memory.read m b := by
  unfold Memory.writeBlock
  rw [Memory.read_append, Memory.read_append, Memory.read_filter (fun x => decide (x < a)),
    Memory.read_filter (fun x => decide (a + vs.length ≤ x)), Memory.read_cells]
  rcases Nat.lt_or_ge b a with h | h
  · simp [h, show ¬ a ≤ b by omega, show ¬ a + vs.length ≤ b by omega]
  · rcases Nat.lt_or_ge b (a + vs.length) with h2 | h2
    · have hlt : b - a < vs.length := by omega
      simp [h, h2, show ¬ b < a by omega, List.getElem?_eq_getElem hlt]
    · have hge : vs.length ≤ b - a := by omega
      simp [h, h2, show ¬ b < a by omega, List.getElem?_eq_none hge, show ¬ b < a + vs.length by omega]

theorem Memory.read_writeBlock_outside (m : Memory w) (a : Nat) (vs : List (BitVec w)) (b : Nat)
    (h : b < a ∨ a + vs.length ≤ b) : Memory.read (m.writeBlock a vs) b = Memory.read m b := by
  rw [Memory.read_writeBlock, if_neg (by omega)]

theorem Memory.read_write (m : Memory w) (a : Nat) (v : BitVec w) (b : Nat) :
    Memory.read (m.write a v) b = if b = a then some v else Memory.read m b := by
  unfold Memory.write
  rw [Memory.read_writeBlock]
  by_cases h : b = a
  · subst h; simp
  · rw [if_neg (by simp; omega), if_neg h]

@[simp] theorem leBytes_length (n v : Nat) : (leBytes n v).length = n := by simp [leBytes]

theorem Memory.mem_cells {vs : List (BitVec w)} {a : Nat} {c : Nat × BitVec w}
    (h : c ∈ Memory.cells a vs) : a ≤ c.1 ∧ c.1 < a + vs.length := by
  induction vs generalizing a with
  | nil => simp at h
  | cons v vs ih =>
    rw [Memory.cells_cons, List.mem_cons] at h
    rcases h with rfl | h
    · simp
    · have := ih h; simp; omega

theorem Memory.wf_nil : Memory.wf ([] : Memory w) := List.Pairwise.nil

theorem Memory.wf_cells (a : Nat) (vs : List (BitVec w)) : Memory.wf (Memory.cells a vs) := by
  induction vs generalizing a with
  | nil => exact Memory.wf_nil
  | cons v vs ih =>
    rw [Memory.cells_cons]
    refine List.Pairwise.cons ?_ (ih (a + 1))
    intro x hx
    obtain ⟨c, hc, rfl⟩ := List.mem_map.1 hx
    have := Memory.mem_cells hc
    simp; omega

theorem Memory.wf_filter {m : Memory w} (h : m.wf) (P : Nat × BitVec w → Bool) :
    Memory.wf (m.filter P) :=
  List.Pairwise.sublist (List.filter_sublist.map _) h

theorem Memory.wf_append {m₁ m₂ : Memory w} (h₁ : m₁.wf) (h₂ : m₂.wf)
    (h : ∀ c ∈ m₁, ∀ d ∈ m₂, c.1 < d.1) : Memory.wf (m₁ ++ m₂) := by
  unfold Memory.wf
  rw [List.map_append, List.pairwise_append]
  refine ⟨h₁, h₂, ?_⟩
  intro x hx y hy
  obtain ⟨c, hc, rfl⟩ := List.mem_map.1 hx
  obtain ⟨d, hd, rfl⟩ := List.mem_map.1 hy
  exact h c hc d hd

/-- A write keeps the canonical form. -/
theorem Memory.wf_writeBlock {m : Memory w} (h : m.wf) (a : Nat) (vs : List (BitVec w)) :
    Memory.wf (m.writeBlock a vs) := by
  unfold Memory.writeBlock
  refine Memory.wf_append (Memory.wf_append (Memory.wf_filter h _) (Memory.wf_cells a vs) ?_)
    (Memory.wf_filter h _) ?_
  · intro c hc d hd
    have h1 := (List.mem_filter.1 hc).2
    have h2 := Memory.mem_cells hd
    simp at h1; omega
  · intro c hc d hd
    have h1 := (List.mem_filter.1 hd).2
    simp at h1
    rcases List.mem_append.1 hc with hc | hc
    · have h2 := (List.mem_filter.1 hc).2
      simp at h2; omega
    · have h2 := Memory.mem_cells hc
      omega

theorem Memory.wf_write {m : Memory w} (h : m.wf) (a : Nat) (v : BitVec w) : Memory.wf (m.write a v) :=
  Memory.wf_writeBlock h a [v]

theorem Memory.wf_writeLE {m : Memory 8} (h : m.wf) (a n v : Nat) : Memory.wf (m.writeLE a n v) :=
  Memory.wf_writeBlock h a _

/-- The addresses a write leaves listed are those listed before and those written. -/
theorem Memory.mem_writeBlock {m : Memory w} {a : Nat} {vs : List (BitVec w)} {c : Nat × BitVec w}
    (h : c ∈ m.writeBlock a vs) : c ∈ m ∨ (a ≤ c.1 ∧ c.1 < a + vs.length) := by
  unfold Memory.writeBlock at h
  simp only [List.mem_append, List.mem_filter] at h
  rcases h with (h | h) | h
  · exact .inl h.1
  · exact .inr (Memory.mem_cells h)
  · exact .inl h.1

/-- Writing nothing changes nothing. -/
theorem Memory.writeBlock_nil {m : Memory w} (h : m.wf) (a : Nat) : m.writeBlock a [] = m := by
  unfold Memory.writeBlock
  simp only [Memory.cells_nil, List.append_nil, List.length_nil, Nat.add_zero]
  induction m with
  | nil => rfl
  | cons c m ih =>
    have hm : Memory.wf m := List.Pairwise.of_cons h
    have hc : ∀ d ∈ m, c.1 < d.1 := fun d hd => List.rel_of_pairwise_cons h (List.mem_map_of_mem hd)
    by_cases hlt : c.1 < a
    · rw [List.filter_cons_of_pos (by simpa using hlt), List.filter_cons_of_neg (by simpa using hlt),
        List.cons_append, ih hm]
    · rw [List.filter_cons_of_neg (by simpa using hlt), List.filter_cons_of_pos (by simp; omega)]
      have h1 : m.filter (fun c => decide (c.1 < a)) = [] := by
        rw [List.filter_eq_nil_iff]; intro d hd; have := hc d hd; simp; omega
      have h2 : m.filter (fun c => decide (a ≤ c.1)) = m := by
        rw [List.filter_eq_self]; intro d hd; have := hc d hd; simp; omega
      rw [h1, h2]; rfl

theorem Memory.cells_append (a : Nat) (xs ys : List (BitVec w)) :
    Memory.cells a (xs ++ ys) = Memory.cells a xs ++ Memory.cells (a + xs.length) ys := by
  simp [Memory.cells, List.zipIdx_append]

/-- Two writes one after another, the second from where the first ended, are one write. -/
theorem Memory.writeBlock_append (m : Memory w) (a : Nat) (xs ys : List (BitVec w)) :
    (m.writeBlock a xs).writeBlock (a + xs.length) ys = m.writeBlock a (xs ++ ys) := by
  unfold Memory.writeBlock
  rw [Memory.cells_append]
  simp only [List.filter_append, List.filter_filter, List.length_append]
  have h1 : (Memory.cells a xs).filter (fun c => decide (c.1 < a + xs.length)) = Memory.cells a xs := by
    rw [List.filter_eq_self]; intro c hc; have := Memory.mem_cells hc; simp; omega
  have h2 : (Memory.cells a xs).filter (fun c => decide (a + xs.length + ys.length ≤ c.1)) = [] := by
    rw [List.filter_eq_nil_iff]; intro c hc; have := Memory.mem_cells hc; simp; omega
  have h3 : m.filter (fun c => decide (c.1 < a + xs.length) && decide (c.1 < a))
      = m.filter (fun c => decide (c.1 < a)) := by
    congr 1; funext c; rw [Bool.eq_iff_iff]; simp; omega
  have h4 : m.filter (fun c => decide (c.1 < a + xs.length) && decide (a + xs.length ≤ c.1)) = [] := by
    rw [List.filter_eq_nil_iff]; intro c _; simp
  have h5 : m.filter (fun c => decide (a + xs.length + ys.length ≤ c.1) && decide (c.1 < a)) = [] := by
    rw [List.filter_eq_nil_iff]; intro c _; simp; omega
  have h6 : m.filter (fun c => decide (a + xs.length + ys.length ≤ c.1) && decide (a + xs.length ≤ c.1))
      = m.filter (fun c => decide (a + (xs.length + ys.length) ≤ c.1)) := by
    congr 1; funext c; rw [Bool.eq_iff_iff]; simp; omega
  rw [h1, h2, h3, h4, h5, h6]
  simp [List.append_assoc]

/-- readRange answers exactly the values of the range, and none when one of them holds no value. -/
theorem Memory.readRange_eq_some {m : Memory w} {i n : Nat} {us : List (BitVec w)} :
    m.readRange i n = some us ↔ us.length = n ∧ ∀ k, k < n → m.read (i + k) = us[k]? := by
  induction n generalizing i us with
  | zero => simp [Memory.readRange, eq_comm]
  | succ n ih =>
    unfold Memory.readRange
    constructor
    · intro h
      split at h
      · cases h
      · rename_i u hu
        split at h
        · cases h
        · rename_i us' hus
          cases h
          have := ih.1 hus
          refine ⟨by simp [this.1], ?_⟩
          intro k hk
          cases k with
          | zero => simpa using hu
          | succ k =>
            have := this.2 k (by omega)
            simpa [show i + (k + 1) = i + 1 + k by omega] using this
    · rintro ⟨hlen, h⟩
      cases us with
      | nil => simp at hlen
      | cons u us =>
        have h0 := h 0 (by omega)
        simp at h0
        have h1 : m.readRange (i + 1) n = some us := by
          refine ih.2 ⟨by simpa using hlen, ?_⟩
          intro k hk
          have := h (k + 1) (by omega)
          simpa [show i + (k + 1) = i + 1 + k by omega] using this
        rw [h0, h1]

end Sys2Proof.Machine
end

