-- ==== Sys2Proof/Laws/State.lean ====
section
/-! SUPPORT. What each named update of State does to each field: one lemma a field, each true by unfolding. -/

namespace Sys2Proof.Machine

/-! ### raise -/

@[simp] theorem raise_params (c : FaultCode) (w : Word) (s : State) : (raise c w s).params = s.params := rfl
@[simp] theorem raise_a0 (c : FaultCode) (w : Word) (s : State) : (raise c w s).a0 = s.a0 := rfl
@[simp] theorem raise_a0Written (c : FaultCode) (w : Word) (s : State) : (raise c w s).a0Written = s.a0Written := rfl
@[simp] theorem raise_a1 (c : FaultCode) (w : Word) (s : State) : (raise c w s).a1 = s.a1 := rfl
@[simp] theorem raise_a1Written (c : FaultCode) (w : Word) (s : State) : (raise c w s).a1Written = s.a1Written := rfl
@[simp] theorem raise_status (c : FaultCode) (w : Word) (s : State) : (raise c w s).status = c.bits ++ (1#1 ++ Config.lostStatus s.freeIdx) := rfl
@[simp] theorem raise_finfo (c : FaultCode) (w : Word) (s : State) : (raise c w s).finfo = w := rfl
@[simp] theorem raise_chk (c : FaultCode) (w : Word) (s : State) : (raise c w s).chk = Config.lostChk s.freeIdx := rfl
@[simp] theorem raise_excess (c : FaultCode) (w : Word) (s : State) : (raise c w s).excess = Config.lostExcess s.freeIdx := rfl
@[simp] theorem raise_speriod (c : FaultCode) (w : Word) (s : State) : (raise c w s).speriod = Config.lostSperiod s.freeIdx := rfl
@[simp] theorem raise_srate (c : FaultCode) (w : Word) (s : State) : (raise c w s).srate = Config.lostSrate s.freeIdx := rfl
@[simp] theorem raise_nsamp (c : FaultCode) (w : Word) (s : State) : (raise c w s).nsamp = Config.lostNsamp s.freeIdx := rfl
@[simp] theorem raise_buflen (c : FaultCode) (w : Word) (s : State) : (raise c w s).buflen = Config.lostBuflen s.freeIdx := rfl
@[simp] theorem raise_cursor (c : FaultCode) (w : Word) (s : State) : (raise c w s).cursor = Config.lostCursor s.freeIdx := rfl
@[simp] theorem raise_out (c : FaultCode) (w : Word) (s : State) : (raise c w s).out = [] := rfl
@[simp] theorem raise_text (c : FaultCode) (w : Word) (s : State) : (raise c w s).text = s.text := rfl
@[simp] theorem raise_inputs (c : FaultCode) (w : Word) (s : State) : (raise c w s).inputs = s.inputs := rfl
@[simp] theorem raise_replies (c : FaultCode) (w : Word) (s : State) : (raise c w s).replies = s.replies := rfl
@[simp] theorem raise_freeIdx (c : FaultCode) (w : Word) (s : State) : (raise c w s).freeIdx = s.freeIdx + 1 := rfl

/-! ### assertReset -/

@[simp] theorem assertReset_params (s : State) : (assertReset s).params = s.params := rfl
@[simp] theorem assertReset_a0 (s : State) : (assertReset s).a0 = 0 := rfl
@[simp] theorem assertReset_a0Written (s : State) : (assertReset s).a0Written = false := rfl
@[simp] theorem assertReset_a1 (s : State) : (assertReset s).a1 = 0 := rfl
@[simp] theorem assertReset_a1Written (s : State) : (assertReset s).a1Written = false := rfl
@[simp] theorem assertReset_status (s : State) : (assertReset s).status = 0 := rfl
@[simp] theorem assertReset_finfo (s : State) : (assertReset s).finfo = 0 := rfl
@[simp] theorem assertReset_chk (s : State) : (assertReset s).chk = 0 := rfl
@[simp] theorem assertReset_excess (s : State) : (assertReset s).excess = 0 := rfl
@[simp] theorem assertReset_speriod (s : State) : (assertReset s).speriod = 0 := rfl
@[simp] theorem assertReset_srate (s : State) : (assertReset s).srate = 0 := rfl
@[simp] theorem assertReset_nsamp (s : State) : (assertReset s).nsamp = 0 := rfl
@[simp] theorem assertReset_buflen (s : State) : (assertReset s).buflen = 0 := rfl
@[simp] theorem assertReset_cursor (s : State) : (assertReset s).cursor = 0 := rfl
@[simp] theorem assertReset_out (s : State) : (assertReset s).out = [] := rfl
@[simp] theorem assertReset_text (s : State) : (assertReset s).text = [] := rfl
@[simp] theorem assertReset_inputs (s : State) : (assertReset s).inputs = s.inputs := rfl
@[simp] theorem assertReset_replies (s : State) : (assertReset s).replies = s.replies := rfl
@[simp] theorem assertReset_freeIdx (s : State) : (assertReset s).freeIdx = s.freeIdx := rfl

/-! ### setStructure -/

@[simp] theorem setStructure_params (c y f : Bool) (s : State) : (State.setStructure c y f s).params = s.params := rfl
@[simp] theorem setStructure_a0 (c y f : Bool) (s : State) : (State.setStructure c y f s).a0 = s.a0 := rfl
@[simp] theorem setStructure_a0Written (c y f : Bool) (s : State) : (State.setStructure c y f s).a0Written = s.a0Written := rfl
@[simp] theorem setStructure_a1 (c y f : Bool) (s : State) : (State.setStructure c y f s).a1 = s.a1 := rfl
@[simp] theorem setStructure_a1Written (c y f : Bool) (s : State) : (State.setStructure c y f s).a1Written = s.a1Written := rfl
@[simp] theorem setStructure_status (c y f : Bool) (s : State) : (State.setStructure c y f s).status = statusOf s.fcode s.faulted f y c := rfl
@[simp] theorem setStructure_finfo (c y f : Bool) (s : State) : (State.setStructure c y f s).finfo = s.finfo := rfl
@[simp] theorem setStructure_chk (c y f : Bool) (s : State) : (State.setStructure c y f s).chk = s.chk := rfl
@[simp] theorem setStructure_excess (c y f : Bool) (s : State) : (State.setStructure c y f s).excess = s.excess := rfl
@[simp] theorem setStructure_speriod (c y f : Bool) (s : State) : (State.setStructure c y f s).speriod = s.speriod := rfl
@[simp] theorem setStructure_srate (c y f : Bool) (s : State) : (State.setStructure c y f s).srate = s.srate := rfl
@[simp] theorem setStructure_nsamp (c y f : Bool) (s : State) : (State.setStructure c y f s).nsamp = s.nsamp := rfl
@[simp] theorem setStructure_buflen (c y f : Bool) (s : State) : (State.setStructure c y f s).buflen = s.buflen := rfl
@[simp] theorem setStructure_cursor (c y f : Bool) (s : State) : (State.setStructure c y f s).cursor = s.cursor := rfl
@[simp] theorem setStructure_out (c y f : Bool) (s : State) : (State.setStructure c y f s).out = s.out := rfl
@[simp] theorem setStructure_text (c y f : Bool) (s : State) : (State.setStructure c y f s).text = s.text := rfl
@[simp] theorem setStructure_inputs (c y f : Bool) (s : State) : (State.setStructure c y f s).inputs = s.inputs := rfl
@[simp] theorem setStructure_replies (c y f : Bool) (s : State) : (State.setStructure c y f s).replies = s.replies := rfl
@[simp] theorem setStructure_freeIdx (c y f : Bool) (s : State) : (State.setStructure c y f s).freeIdx = s.freeIdx := rfl

/-! ### setFinal -/

@[simp] theorem setFinal_params (s : State) : (State.setFinal s).params = s.params := rfl
@[simp] theorem setFinal_a0 (s : State) : (State.setFinal s).a0 = s.a0 := rfl
@[simp] theorem setFinal_a0Written (s : State) : (State.setFinal s).a0Written = s.a0Written := rfl
@[simp] theorem setFinal_a1 (s : State) : (State.setFinal s).a1 = s.a1 := rfl
@[simp] theorem setFinal_a1Written (s : State) : (State.setFinal s).a1Written = s.a1Written := rfl
@[simp] theorem setFinal_status (s : State) : (State.setFinal s).status = statusOf s.fcode s.faulted true s.synth s.created := rfl
@[simp] theorem setFinal_finfo (s : State) : (State.setFinal s).finfo = s.finfo := rfl
@[simp] theorem setFinal_chk (s : State) : (State.setFinal s).chk = s.chk := rfl
@[simp] theorem setFinal_excess (s : State) : (State.setFinal s).excess = s.excess := rfl
@[simp] theorem setFinal_speriod (s : State) : (State.setFinal s).speriod = s.speriod := rfl
@[simp] theorem setFinal_srate (s : State) : (State.setFinal s).srate = s.srate := rfl
@[simp] theorem setFinal_nsamp (s : State) : (State.setFinal s).nsamp = s.nsamp := rfl
@[simp] theorem setFinal_buflen (s : State) : (State.setFinal s).buflen = s.buflen := rfl
@[simp] theorem setFinal_cursor (s : State) : (State.setFinal s).cursor = s.cursor := rfl
@[simp] theorem setFinal_out (s : State) : (State.setFinal s).out = s.out := rfl
@[simp] theorem setFinal_text (s : State) : (State.setFinal s).text = s.text := rfl
@[simp] theorem setFinal_inputs (s : State) : (State.setFinal s).inputs = s.inputs := rfl
@[simp] theorem setFinal_replies (s : State) : (State.setFinal s).replies = s.replies := rfl
@[simp] theorem setFinal_freeIdx (s : State) : (State.setFinal s).freeIdx = s.freeIdx := rfl

/-! ### setSynth -/

@[simp] theorem setSynth_params (s : State) : (State.setSynth s).params = s.params := rfl
@[simp] theorem setSynth_a0 (s : State) : (State.setSynth s).a0 = s.a0 := rfl
@[simp] theorem setSynth_a0Written (s : State) : (State.setSynth s).a0Written = s.a0Written := rfl
@[simp] theorem setSynth_a1 (s : State) : (State.setSynth s).a1 = s.a1 := rfl
@[simp] theorem setSynth_a1Written (s : State) : (State.setSynth s).a1Written = s.a1Written := rfl
@[simp] theorem setSynth_status (s : State) : (State.setSynth s).status = statusOf s.fcode s.faulted s.final true s.created := rfl
@[simp] theorem setSynth_finfo (s : State) : (State.setSynth s).finfo = s.finfo := rfl
@[simp] theorem setSynth_chk (s : State) : (State.setSynth s).chk = s.chk := rfl
@[simp] theorem setSynth_excess (s : State) : (State.setSynth s).excess = s.excess := rfl
@[simp] theorem setSynth_speriod (s : State) : (State.setSynth s).speriod = s.speriod := rfl
@[simp] theorem setSynth_srate (s : State) : (State.setSynth s).srate = s.srate := rfl
@[simp] theorem setSynth_nsamp (s : State) : (State.setSynth s).nsamp = s.nsamp := rfl
@[simp] theorem setSynth_buflen (s : State) : (State.setSynth s).buflen = s.buflen := rfl
@[simp] theorem setSynth_cursor (s : State) : (State.setSynth s).cursor = s.cursor := rfl
@[simp] theorem setSynth_out (s : State) : (State.setSynth s).out = s.out := rfl
@[simp] theorem setSynth_text (s : State) : (State.setSynth s).text = s.text := rfl
@[simp] theorem setSynth_inputs (s : State) : (State.setSynth s).inputs = s.inputs := rfl
@[simp] theorem setSynth_replies (s : State) : (State.setSynth s).replies = s.replies := rfl
@[simp] theorem setSynth_freeIdx (s : State) : (State.setSynth s).freeIdx = s.freeIdx := rfl

/-! ### commit -/

@[simp] theorem commit_params (s : State) (t : Tape) : (commit s t).params = s.params := rfl
@[simp] theorem commit_a0 (s : State) (t : Tape) : (commit s t).a0 = s.a0 := rfl
@[simp] theorem commit_a0Written (s : State) (t : Tape) : (commit s t).a0Written = s.a0Written := rfl
@[simp] theorem commit_a1 (s : State) (t : Tape) : (commit s t).a1 = s.a1 := rfl
@[simp] theorem commit_a1Written (s : State) (t : Tape) : (commit s t).a1Written = s.a1Written := rfl
@[simp] theorem commit_status (s : State) (t : Tape) : (commit s t).status = s.status := rfl
@[simp] theorem commit_finfo (s : State) (t : Tape) : (commit s t).finfo = s.finfo := rfl
@[simp] theorem commit_chk (s : State) (t : Tape) : (commit s t).chk = t.chk := rfl
@[simp] theorem commit_excess (s : State) (t : Tape) : (commit s t).excess = t.excess := rfl
@[simp] theorem commit_speriod (s : State) (t : Tape) : (commit s t).speriod = s.speriod := rfl
@[simp] theorem commit_srate (s : State) (t : Tape) : (commit s t).srate = s.srate := rfl
@[simp] theorem commit_nsamp (s : State) (t : Tape) : (commit s t).nsamp = s.nsamp := rfl
@[simp] theorem commit_buflen (s : State) (t : Tape) : (commit s t).buflen = s.buflen := rfl
@[simp] theorem commit_cursor (s : State) (t : Tape) : (commit s t).cursor = s.cursor + BitVec.ofNat 64 t.samples.length := rfl
@[simp] theorem commit_out (s : State) (t : Tape) : (commit s t).out = s.out.writeBlock s.cursor.toNat t.samples.reverse := rfl
@[simp] theorem commit_text (s : State) (t : Tape) : (commit s t).text = s.text := rfl
@[simp] theorem commit_inputs (s : State) (t : Tape) : (commit s t).inputs = s.inputs := rfl
@[simp] theorem commit_replies (s : State) (t : Tape) : (commit s t).replies = s.replies := rfl
@[simp] theorem commit_freeIdx (s : State) (t : Tape) : (commit s t).freeIdx = s.freeIdx := rfl

/-! ### reply -/

@[simp] theorem reply_params (v : Word64) (s : State) : (reply v s).params = s.params := rfl
@[simp] theorem reply_a0 (v : Word64) (s : State) : (reply v s).a0 = s.a0 := rfl
@[simp] theorem reply_a0Written (v : Word64) (s : State) : (reply v s).a0Written = s.a0Written := rfl
@[simp] theorem reply_a1 (v : Word64) (s : State) : (reply v s).a1 = s.a1 := rfl
@[simp] theorem reply_a1Written (v : Word64) (s : State) : (reply v s).a1Written = s.a1Written := rfl
@[simp] theorem reply_status (v : Word64) (s : State) : (reply v s).status = s.status := rfl
@[simp] theorem reply_finfo (v : Word64) (s : State) : (reply v s).finfo = s.finfo := rfl
@[simp] theorem reply_chk (v : Word64) (s : State) : (reply v s).chk = s.chk := rfl
@[simp] theorem reply_excess (v : Word64) (s : State) : (reply v s).excess = s.excess := rfl
@[simp] theorem reply_speriod (v : Word64) (s : State) : (reply v s).speriod = s.speriod := rfl
@[simp] theorem reply_srate (v : Word64) (s : State) : (reply v s).srate = s.srate := rfl
@[simp] theorem reply_nsamp (v : Word64) (s : State) : (reply v s).nsamp = s.nsamp := rfl
@[simp] theorem reply_buflen (v : Word64) (s : State) : (reply v s).buflen = s.buflen := rfl
@[simp] theorem reply_cursor (v : Word64) (s : State) : (reply v s).cursor = s.cursor := rfl
@[simp] theorem reply_out (v : Word64) (s : State) : (reply v s).out = s.out := rfl
@[simp] theorem reply_text (v : Word64) (s : State) : (reply v s).text = s.text := rfl
@[simp] theorem reply_inputs (v : Word64) (s : State) : (reply v s).inputs = s.inputs := rfl
@[simp] theorem reply_replies (v : Word64) (s : State) : (reply v s).replies = s.replies ++ [v] := rfl
@[simp] theorem reply_freeIdx (v : Word64) (s : State) : (reply v s).freeIdx = s.freeIdx := rfl

/-! ### writeTextUnit -/

@[simp] theorem writeTextUnit_params (i : Nat) (u : TextUnit) (s : State) : (writeTextUnit i u s).params = s.params := rfl
@[simp] theorem writeTextUnit_a0 (i : Nat) (u : TextUnit) (s : State) : (writeTextUnit i u s).a0 = s.a0 := rfl
@[simp] theorem writeTextUnit_a0Written (i : Nat) (u : TextUnit) (s : State) : (writeTextUnit i u s).a0Written = s.a0Written := rfl
@[simp] theorem writeTextUnit_a1 (i : Nat) (u : TextUnit) (s : State) : (writeTextUnit i u s).a1 = s.a1 := rfl
@[simp] theorem writeTextUnit_a1Written (i : Nat) (u : TextUnit) (s : State) : (writeTextUnit i u s).a1Written = s.a1Written := rfl
@[simp] theorem writeTextUnit_status (i : Nat) (u : TextUnit) (s : State) : (writeTextUnit i u s).status = s.status := rfl
@[simp] theorem writeTextUnit_finfo (i : Nat) (u : TextUnit) (s : State) : (writeTextUnit i u s).finfo = s.finfo := rfl
@[simp] theorem writeTextUnit_chk (i : Nat) (u : TextUnit) (s : State) : (writeTextUnit i u s).chk = s.chk := rfl
@[simp] theorem writeTextUnit_excess (i : Nat) (u : TextUnit) (s : State) : (writeTextUnit i u s).excess = s.excess := rfl
@[simp] theorem writeTextUnit_speriod (i : Nat) (u : TextUnit) (s : State) : (writeTextUnit i u s).speriod = s.speriod := rfl
@[simp] theorem writeTextUnit_srate (i : Nat) (u : TextUnit) (s : State) : (writeTextUnit i u s).srate = s.srate := rfl
@[simp] theorem writeTextUnit_nsamp (i : Nat) (u : TextUnit) (s : State) : (writeTextUnit i u s).nsamp = s.nsamp := rfl
@[simp] theorem writeTextUnit_buflen (i : Nat) (u : TextUnit) (s : State) : (writeTextUnit i u s).buflen = s.buflen := rfl
@[simp] theorem writeTextUnit_cursor (i : Nat) (u : TextUnit) (s : State) : (writeTextUnit i u s).cursor = s.cursor := rfl
@[simp] theorem writeTextUnit_out (i : Nat) (u : TextUnit) (s : State) : (writeTextUnit i u s).out = s.out := rfl
@[simp] theorem writeTextUnit_text (i : Nat) (u : TextUnit) (s : State) : (writeTextUnit i u s).text = s.text.write i u := rfl
@[simp] theorem writeTextUnit_inputs (i : Nat) (u : TextUnit) (s : State) : (writeTextUnit i u s).inputs = s.inputs := rfl
@[simp] theorem writeTextUnit_replies (i : Nat) (u : TextUnit) (s : State) : (writeTextUnit i u s).replies = s.replies := rfl
@[simp] theorem writeTextUnit_freeIdx (i : Nat) (u : TextUnit) (s : State) : (writeTextUnit i u s).freeIdx = s.freeIdx := rfl

/-! ### withCommand -/

@[simp] theorem withCommand_params (s : State) (nbits w : Nat) : (withCommand s nbits w).params = s.params := rfl
@[simp] theorem withCommand_a0 (s : State) (nbits w : Nat) : (withCommand s nbits w).a0 = s.a0 := rfl
@[simp] theorem withCommand_a0Written (s : State) (nbits w : Nat) : (withCommand s nbits w).a0Written = s.a0Written := rfl
@[simp] theorem withCommand_a1 (s : State) (nbits w : Nat) : (withCommand s nbits w).a1 = s.a1 := rfl
@[simp] theorem withCommand_a1Written (s : State) (nbits w : Nat) : (withCommand s nbits w).a1Written = s.a1Written := rfl
@[simp] theorem withCommand_status (s : State) (nbits w : Nat) : (withCommand s nbits w).status = s.status := rfl
@[simp] theorem withCommand_finfo (s : State) (nbits w : Nat) : (withCommand s nbits w).finfo = s.finfo := rfl
@[simp] theorem withCommand_chk (s : State) (nbits w : Nat) : (withCommand s nbits w).chk = s.chk := rfl
@[simp] theorem withCommand_excess (s : State) (nbits w : Nat) : (withCommand s nbits w).excess = s.excess := rfl
@[simp] theorem withCommand_speriod (s : State) (nbits w : Nat) : (withCommand s nbits w).speriod = s.speriod := rfl
@[simp] theorem withCommand_srate (s : State) (nbits w : Nat) : (withCommand s nbits w).srate = s.srate := rfl
@[simp] theorem withCommand_nsamp (s : State) (nbits w : Nat) : (withCommand s nbits w).nsamp = s.nsamp := rfl
@[simp] theorem withCommand_buflen (s : State) (nbits w : Nat) : (withCommand s nbits w).buflen = s.buflen := rfl
@[simp] theorem withCommand_cursor (s : State) (nbits w : Nat) : (withCommand s nbits w).cursor = s.cursor := rfl
@[simp] theorem withCommand_out (s : State) (nbits w : Nat) : (withCommand s nbits w).out = s.out := rfl
@[simp] theorem withCommand_text (s : State) (nbits w : Nat) : (withCommand s nbits w).text = s.text := rfl
@[simp] theorem withCommand_inputs (s : State) (nbits w : Nat) : (withCommand s nbits w).inputs = .writeReg 0x00 ((tableWord nbits w).setWidth 64) :: s.inputs := rfl
@[simp] theorem withCommand_replies (s : State) (nbits w : Nat) : (withCommand s nbits w).replies = s.replies := rfl
@[simp] theorem withCommand_freeIdx (s : State) (nbits w : Nat) : (withCommand s nbits w).freeIdx = s.freeIdx := rfl

/-! ### withProgram -/

@[simp] theorem withProgram_params (pr : List HostAction) (s : State) : (withProgram pr s).params = s.params := rfl
@[simp] theorem withProgram_a0 (pr : List HostAction) (s : State) : (withProgram pr s).a0 = s.a0 := rfl
@[simp] theorem withProgram_a0Written (pr : List HostAction) (s : State) : (withProgram pr s).a0Written = s.a0Written := rfl
@[simp] theorem withProgram_a1 (pr : List HostAction) (s : State) : (withProgram pr s).a1 = s.a1 := rfl
@[simp] theorem withProgram_a1Written (pr : List HostAction) (s : State) : (withProgram pr s).a1Written = s.a1Written := rfl
@[simp] theorem withProgram_status (pr : List HostAction) (s : State) : (withProgram pr s).status = s.status := rfl
@[simp] theorem withProgram_finfo (pr : List HostAction) (s : State) : (withProgram pr s).finfo = s.finfo := rfl
@[simp] theorem withProgram_chk (pr : List HostAction) (s : State) : (withProgram pr s).chk = s.chk := rfl
@[simp] theorem withProgram_excess (pr : List HostAction) (s : State) : (withProgram pr s).excess = s.excess := rfl
@[simp] theorem withProgram_speriod (pr : List HostAction) (s : State) : (withProgram pr s).speriod = s.speriod := rfl
@[simp] theorem withProgram_srate (pr : List HostAction) (s : State) : (withProgram pr s).srate = s.srate := rfl
@[simp] theorem withProgram_nsamp (pr : List HostAction) (s : State) : (withProgram pr s).nsamp = s.nsamp := rfl
@[simp] theorem withProgram_buflen (pr : List HostAction) (s : State) : (withProgram pr s).buflen = s.buflen := rfl
@[simp] theorem withProgram_cursor (pr : List HostAction) (s : State) : (withProgram pr s).cursor = s.cursor := rfl
@[simp] theorem withProgram_out (pr : List HostAction) (s : State) : (withProgram pr s).out = s.out := rfl
@[simp] theorem withProgram_text (pr : List HostAction) (s : State) : (withProgram pr s).text = s.text := rfl
@[simp] theorem withProgram_inputs (pr : List HostAction) (s : State) : (withProgram pr s).inputs = s.inputs ++ pr := rfl
@[simp] theorem withProgram_replies (pr : List HostAction) (s : State) : (withProgram pr s).replies = s.replies := rfl
@[simp] theorem withProgram_freeIdx (pr : List HostAction) (s : State) : (withProgram pr s).freeIdx = s.freeIdx := rfl

/-! ### tapeOf -/

@[simp] theorem tapeOf_room (s : State) : (tapeOf s).room = s.buflen.toNat - s.cursor.toNat := rfl
@[simp] theorem tapeOf_samples (s : State) : (tapeOf s).samples = [] := rfl
@[simp] theorem tapeOf_excess (s : State) : (tapeOf s).excess = s.excess := rfl
@[simp] theorem tapeOf_chk (s : State) : (tapeOf s).chk = s.chk := rfl

/-! ### The fields of STATUS -/

theorem getLsbD_statusOf (code : BitVec 4) (fa fi sy cr : Bool) :
    (statusOf code fa fi sy cr).getLsbD 0 = cr ∧ (statusOf code fa fi sy cr).getLsbD 1 = sy ∧
    (statusOf code fa fi sy cr).getLsbD 2 = fi ∧ (statusOf code fa fi sy cr).getLsbD 3 = fa ∧
    (statusOf code fa fi sy cr).extractLsb' 4 4 = code := by
  revert code fa fi sy cr; decide +kernel

@[simp] theorem setStructure_created (c y f : Bool) (s : State) : (State.setStructure c y f s).created = c :=
  (getLsbD_statusOf _ _ _ _ _).1
@[simp] theorem setStructure_synth (c y f : Bool) (s : State) : (State.setStructure c y f s).synth = y :=
  (getLsbD_statusOf _ _ _ _ _).2.1
@[simp] theorem setStructure_final (c y f : Bool) (s : State) : (State.setStructure c y f s).final = f :=
  (getLsbD_statusOf _ _ _ _ _).2.2.1
@[simp] theorem setStructure_faulted (c y f : Bool) (s : State) :
    (State.setStructure c y f s).faulted = s.faulted := (getLsbD_statusOf _ _ _ _ _).2.2.2.1
@[simp] theorem setStructure_fcode (c y f : Bool) (s : State) :
    (State.setStructure c y f s).fcode = s.fcode := (getLsbD_statusOf _ _ _ _ _).2.2.2.2

@[simp] theorem setFinal_created (s : State) : (State.setFinal s).created = s.created := setStructure_created _ _ _ s
@[simp] theorem setFinal_synth (s : State) : (State.setFinal s).synth = s.synth := setStructure_synth _ _ _ s
@[simp] theorem setFinal_final (s : State) : (State.setFinal s).final = true := setStructure_final _ _ _ s
@[simp] theorem setFinal_faulted (s : State) : (State.setFinal s).faulted = s.faulted := setStructure_faulted _ _ _ s
@[simp] theorem setFinal_fcode (s : State) : (State.setFinal s).fcode = s.fcode := setStructure_fcode _ _ _ s

@[simp] theorem setSynth_created (s : State) : (State.setSynth s).created = s.created := setStructure_created _ _ _ s
@[simp] theorem setSynth_synth (s : State) : (State.setSynth s).synth = true := setStructure_synth _ _ _ s
@[simp] theorem setSynth_final (s : State) : (State.setSynth s).final = s.final := setStructure_final _ _ _ s
@[simp] theorem setSynth_faulted (s : State) : (State.setSynth s).faulted = s.faulted := setStructure_faulted _ _ _ s
@[simp] theorem setSynth_fcode (s : State) : (State.setSynth s).fcode = s.fcode := setStructure_fcode _ _ _ s

theorem status_bits_of_raise (c : BitVec 4) (x : BitVec 3) :
    (c ++ (1#1 ++ x)).getLsbD 3 = true ∧ (c ++ (1#1 ++ x)).extractLsb' 4 4 = c := by
  revert c x; decide +kernel

@[simp] theorem raise_faulted (c : FaultCode) (w : Word) (s : State) : (raise c w s).faulted = true :=
  (status_bits_of_raise _ _).1
@[simp] theorem raise_fcode (c : FaultCode) (w : Word) (s : State) : (raise c w s).fcode = c.bits :=
  (status_bits_of_raise _ _).2

@[simp] theorem commit_created (s : State) (t : Tape) : (commit s t).created = s.created := rfl
@[simp] theorem commit_synth (s : State) (t : Tape) : (commit s t).synth = s.synth := rfl
@[simp] theorem commit_final (s : State) (t : Tape) : (commit s t).final = s.final := rfl
@[simp] theorem commit_faulted (s : State) (t : Tape) : (commit s t).faulted = s.faulted := rfl
@[simp] theorem commit_fcode (s : State) (t : Tape) : (commit s t).fcode = s.fcode := rfl

@[simp] theorem reply_created (v : Word64) (s : State) : (reply v s).created = s.created := rfl
@[simp] theorem reply_synth (v : Word64) (s : State) : (reply v s).synth = s.synth := rfl
@[simp] theorem reply_final (v : Word64) (s : State) : (reply v s).final = s.final := rfl
@[simp] theorem reply_faulted (v : Word64) (s : State) : (reply v s).faulted = s.faulted := rfl
@[simp] theorem reply_fcode (v : Word64) (s : State) : (reply v s).fcode = s.fcode := rfl

@[simp] theorem writeTextUnit_created (i : Nat) (u : TextUnit) (s : State) : (writeTextUnit i u s).created = s.created := rfl
@[simp] theorem writeTextUnit_synth (i : Nat) (u : TextUnit) (s : State) : (writeTextUnit i u s).synth = s.synth := rfl
@[simp] theorem writeTextUnit_final (i : Nat) (u : TextUnit) (s : State) : (writeTextUnit i u s).final = s.final := rfl
@[simp] theorem writeTextUnit_faulted (i : Nat) (u : TextUnit) (s : State) : (writeTextUnit i u s).faulted = s.faulted := rfl
@[simp] theorem writeTextUnit_fcode (i : Nat) (u : TextUnit) (s : State) : (writeTextUnit i u s).fcode = s.fcode := rfl


@[simp] theorem withCommand_created (s : State) (nbits w : Nat) : (withCommand s nbits w).created = s.created := rfl
@[simp] theorem withCommand_synth (s : State) (nbits w : Nat) : (withCommand s nbits w).synth = s.synth := rfl
@[simp] theorem withCommand_final (s : State) (nbits w : Nat) : (withCommand s nbits w).final = s.final := rfl
@[simp] theorem withCommand_faulted (s : State) (nbits w : Nat) : (withCommand s nbits w).faulted = s.faulted := rfl
@[simp] theorem withCommand_fcode (s : State) (nbits w : Nat) : (withCommand s nbits w).fcode = s.fcode := rfl

@[simp] theorem assertReset_created (s : State) : (assertReset s).created = false := by
  simp [State.created]
@[simp] theorem assertReset_synth (s : State) : (assertReset s).synth = false := by
  simp [State.synth]
@[simp] theorem assertReset_final (s : State) : (assertReset s).final = false := by
  simp [State.final]
@[simp] theorem assertReset_faulted (s : State) : (assertReset s).faulted = false := by
  simp [State.faulted]
@[simp] theorem assertReset_fcode (s : State) : (assertReset s).fcode = 0 := by
  simp [State.fcode]

end Sys2Proof.Machine
end

