-- ==== Sys2Proof/Laws/Tape.lean ====
section
/-! SUPPORT. What the operations on a command's tape do: one lemma for each says everything it can do. A train of
pulses (`playAll`) is the common form of Wave, SREPEAT, TransmitFrame and the stream of ENCODE. -/

namespace Sys2Proof.Machine

variable {p : Config.Params} {speriod : F64}

/-! ### AppendSample -/

theorem appendSample_byte (v : Byte) (t : Tape) :
    appendSample v.toNat t =
      if t.room = 0 then .error .bufferOverrun
      else .ok { t with room := t.room - 1, samples := v :: t.samples } := by
  have : ¬ 255 < v.toNat := by have := v.isLt; omega
  simp [appendSample, this]

theorem appendSample_ok_iff {v : Nat} {t t' : Tape} :
    appendSample v t = .ok t' ↔
      v ≤ 255 ∧ t.room ≠ 0 ∧ t' = { t with room := t.room - 1, samples := BitVec.ofNat 8 v :: t.samples } := by
  unfold appendSample
  split
  · simp; omega
  · split
    · simp; omega
    · simp; constructor
      · intro h; exact ⟨by omega, by omega, h.symm⟩
      · intro h; exact h.2.2.symm

/-! ### Wave -/

theorem pulseWrites_iff {dur e : F64} {n : Nat} :
    pulseWrites speriod dur e n = true ↔
      (∀ k, k < n → F64.flt (phase speriod e k) dur = true) ∧ F64.flt (phase speriod e n) dur = false := by
  simp [pulseWrites]

theorem phase_shift (e : F64) (k : Nat) : phase speriod (F64.fadd e speriod) k = phase speriod e (k + 1) := by
  induction k with
  | zero => rfl
  | succ k ih => exact congrArg (F64.fadd · speriod) ih

theorem pulseSamples_succ (dur e : F64) (n : Nat) :
    pulseSamples p speriod dur e (n + 1) =
      waveSample p e dur :: pulseSamples p speriod dur (F64.fadd e speriod) n := by
  simp only [pulseSamples, List.range_succ_eq_map, List.map_cons, List.map_map]
  congr 1
  refine List.map_congr_left fun k _ => ?_
  simp [phase_shift]

@[simp] theorem pulseSamples_length (dur e : F64) (n : Nat) :
    (pulseSamples p speriod dur e n).length = n := by simp [pulseSamples]

/-- The loop of Wave on a pulse that fits: it stops after exactly the samples the pulse writes. -/
theorem waveLoop_of_writes {dur : F64} (fuel n : Nat) (e : F64) (t : Tape)
    (hw : pulseWrites speriod dur e n = true) (hn : n ≤ t.room) (hf : n < fuel) :
    waveLoop p speriod dur fuel e t =
      .ok (phase speriod e n,
        { t with room := t.room - n, samples := (pulseSamples p speriod dur e n).reverse ++ t.samples }) := by
  induction n generalizing fuel e t with
  | zero =>
    obtain ⟨fuel, rfl⟩ : ∃ f, fuel = f + 1 := ⟨fuel - 1, by omega⟩
    have h0 : F64.flt e dur = false := (pulseWrites_iff.1 hw).2
    simp [waveLoop, h0, phase, pulseSamples]
  | succ n ih =>
    obtain ⟨fuel, rfl⟩ : ∃ f, fuel = f + 1 := ⟨fuel - 1, by omega⟩
    obtain ⟨h1, h2⟩ := pulseWrites_iff.1 hw
    have h0 : F64.flt e dur = true := h1 0 (by omega)
    have hroom : t.room ≠ 0 := by omega
    have hw' : pulseWrites speriod dur (F64.fadd e speriod) n = true := by
      refine pulseWrites_iff.2 ⟨fun k hk => ?_, ?_⟩
      · rw [phase_shift]; exact h1 (k + 1) (by omega)
      · rw [phase_shift]; exact h2
    have := ih fuel (F64.fadd e speriod)
      { t with room := t.room - 1, samples := waveSample p e dur :: t.samples } hw' (by simp; omega) (by omega)
    simp only [waveLoop, h0, if_true, appendSample_byte, if_neg hroom, this, phase_shift, pulseSamples_succ]
    simp [Nat.sub_sub, Nat.add_comm 1 n]

/-- The loop of Wave on a pulse that does not fit. -/
theorem waveLoop_overrun {dur : F64} (e : F64) (t : Tape)
    (h : ∀ k, k ≤ t.room → F64.flt (phase speriod e k) dur = true) :
    waveLoop p speriod dur (t.room + 1) e t = .error .bufferOverrun := by
  obtain ⟨room, samples, excess, chk⟩ := t
  simp only at h ⊢
  induction room generalizing e samples with
  | zero =>
    have h0 : F64.flt e dur = true := h 0 (by omega)
    simp [waveLoop, h0, appendSample_byte]
  | succ room ih =>
    have h0 : F64.flt e dur = true := h 0 (by omega)
    have := ih (F64.fadd e speriod) (waveSample p e dur :: samples)
      (fun k hk => by rw [phase_shift]; exact h (k + 1) (by omega))
    rw [waveLoop, if_pos h0, appendSample_byte]
    simpa using this

/-- Every pulse either fits or does not. -/
theorem pulse_fits_or_overruns (dur e : F64) (room : Nat) :
    (∃ n, n ≤ room ∧ pulseWrites speriod dur e n = true) ∨
      (∀ k, k ≤ room → F64.flt (phase speriod e k) dur = true) := by
  induction room with
  | zero =>
    by_cases h : F64.flt (phase speriod e 0) dur = true
    · exact .inr fun k hk => by obtain rfl : k = 0 := by omega
                                exact h
    · exact .inl ⟨0, le_refl _, pulseWrites_iff.2 ⟨by simp, by simpa using h⟩⟩
  | succ room ih =>
    rcases ih with ⟨n, hn, hw⟩ | hall
    · exact .inl ⟨n, by omega, hw⟩
    · by_cases h : F64.flt (phase speriod e (room + 1)) dur = true
      · refine .inr fun k hk => ?_
        rcases Nat.lt_or_ge k (room + 1) with h1 | h1
        · exact hall k (by omega)
        · obtain rfl : k = room + 1 := by omega
          exact h
      · exact .inl ⟨room + 1, le_refl _, pulseWrites_iff.2 ⟨fun k hk => hall k (by omega), by simpa using h⟩⟩

/-- Wave on a pulse that fits. -/
theorem wave_of_writes {dur : F64} {n : Nat} (t : Tape)
    (hw : pulseWrites speriod dur t.excess n = true) (hn : n ≤ t.room) :
    wave p speriod dur t =
      .ok { t with
        room := t.room - n
        samples := (pulseSamples p speriod dur t.excess n).reverse ++ t.samples
        excess := pulseEnd speriod dur t.excess n } := by
  rw [wave, waveLoop_of_writes (t.room + 1) n t.excess t hw hn (by omega)]
  rfl

/-- Wave on a pulse that does not fit. -/
theorem wave_overrun {dur : F64} (t : Tape)
    (h : ∀ k, k ≤ t.room → F64.flt (phase speriod t.excess k) dur = true) :
    wave p speriod dur t = .error .bufferOverrun := by
  rw [wave, waveLoop_overrun t.excess t h]

/-- Everything Wave can do: it writes the samples of the pulse, or it overruns the buffer. -/
theorem wave_cases (dur : F64) (t : Tape) :
    (∃ n, n ≤ t.room ∧ pulseWrites speriod dur t.excess n = true ∧
      wave p speriod dur t = .ok { t with
        room := t.room - n
        samples := (pulseSamples p speriod dur t.excess n).reverse ++ t.samples
        excess := pulseEnd speriod dur t.excess n }) ∨
      wave p speriod dur t = .error .bufferOverrun := by
  rcases pulse_fits_or_overruns (speriod := speriod) dur t.excess t.room with ⟨n, hn, hw⟩ | h
  · exact .inl ⟨n, hn, hw, wave_of_writes t hw hn⟩
  · exact .inr (wave_overrun t h)

/-! ### Trains of pulses -/

/-- Wave for each duration in turn. -/
def playAll (p : Config.Params) (speriod : F64) : List F64 → Tape → Except FaultCode Tape
  | [], t => .ok t
  | d :: ds, t =>
    match wave p speriod d t with
    | .ok t' => playAll p speriod ds t'
    | .error code => .error code

theorem playAll_append (ds es : List F64) (t : Tape) :
    playAll p speriod (ds ++ es) t = andThen (playAll p speriod ds) (playAll p speriod es) t := by
  induction ds generalizing t with
  | nil => rfl
  | cons d ds ih =>
    simp only [List.cons_append, playAll, andThen]
    cases wave p speriod d t with
    | ok t' => simpa [andThen] using ih t'
    | error c => rfl

theorem playAll_singleton (d : F64) (t : Tape) : playAll p speriod [d] t = wave p speriod d t := by
  simp only [playAll]; cases wave p speriod d t <;> rfl

theorem repeatTape_wave (d : F64) (n : Nat) (t : Tape) :
    repeatTape (wave p speriod d) n t = playAll p speriod (List.replicate n d) t := by
  induction n generalizing t with
  | zero => rfl
  | succ n ih =>
    simp only [repeatTape, List.replicate_succ, playAll]
    cases wave p speriod d t with
    | ok t' => exact ih t'
    | error c => rfl

theorem sendBit_eq (bit : Bool) (t : Tape) : sendBit p speriod bit t = playAll p speriod (bitPulses p bit) t := by
  cases bit with
  | false => simp [sendBit, bitPulses, playAll_singleton]
  | true =>
    simp only [sendBit, bitPulses, if_true, andThen, playAll]
    cases wave p speriod p.shortWave t with
    | ok t' => simp only; cases wave p speriod p.shortWave t' <;> rfl
    | error c => rfl

/-- The bits sendBits sends of a frame. -/
def lowBits (n frame : Nat) : List Bool := (List.range n).map frame.testBit

theorem lowBits_succ (n frame : Nat) :
    lowBits (n + 1) frame = frame.testBit 0 :: lowBits n (frame >>> 1) := by
  simp only [lowBits, List.range_succ_eq_map, List.map_cons, List.map_map]
  congr 1
  refine List.map_congr_left fun k _ => ?_
  simp [Nat.testBit_shiftRight, Nat.add_comm 1 k]

theorem sendBits_eq (n frame : Nat) (t : Tape) :
    sendBits p speriod n frame t = playAll p speriod ((lowBits n frame).flatMap (bitPulses p)) t := by
  induction n generalizing frame t with
  | zero => rfl
  | succ n ih =>
    rw [lowBits_succ, List.flatMap_cons, playAll_append, sendBits]
    simp only [andThen, sendBit_eq]
    cases playAll p speriod (bitPulses p (frame.testBit 0)) t with
    | ok t' => exact ih _ t'
    | error c => rfl

/-- The frame of a byte operand: only bits 7:0 of the operand show (43_encoder.md R99). -/
theorem lowBits_frameOf (b : Nat) : lowBits 11 (frameOf b) = frameBitList (BitVec.ofNat 8 b) := by
  have h : ∀ k, (frameOf b).testBit k =
      (decide (k = 10) || decide (k = 9) || (decide (1 ≤ k) && b.testBit (k - 1))) := by
    intro k
    rw [show frameOf b = 2 ^ 10 ||| 2 ^ 9 ||| (b <<< 1) from rfl, Nat.testBit_or, Nat.testBit_or,
      Nat.testBit_shiftLeft, Nat.testBit_two_pow, Nat.testBit_two_pow]
    simp [eq_comm]
  have h8 : ∀ k, k < 8 → (BitVec.ofNat 8 b).getLsbD k = b.testBit k := by
    intro k hk; rw [BitVec.getLsbD_ofNat]; simp [hk]
  simp only [frameBitList, h8 0 (by omega), h8 1 (by omega), h8 2 (by omega), h8 3 (by omega), h8 4 (by omega),
    h8 5 (by omega), h8 6 (by omega), h8 7 (by omega)]
  simp [lowBits, List.range_succ, h]

/-- TransmitFrame with the standard frame length plays the pulses of the byte's frame. -/
theorem transmitFrame_eq (hf : p.frameBits = 11) (b : Nat) (fold : Bool) (t : Tape) :
    transmitFrame p speriod b fold t =
      playAll p speriod (framePulses p (BitVec.ofNat 8 b)) (if fold then foldByte b t else t) := by
  rw [transmitFrame, sendBits_eq, hf, lowBits_frameOf]
  rfl

/-! ### A train leaves CHK alone -/

/-- The tape with another CHK. -/
def Tape.withChk (c : Byte) (t : Tape) : Tape := { t with chk := c }

theorem wave_withChk (d : F64) (c : Byte) (t : Tape) :
    wave p speriod d (t.withChk c) = (wave p speriod d t).map (Tape.withChk c) := by
  rcases pulse_fits_or_overruns (speriod := speriod) d t.excess t.room with ⟨n, hn, hw⟩ | h
  · rw [wave_of_writes t hw hn, wave_of_writes (t.withChk c) hw hn]; rfl
  · rw [wave_overrun t h, wave_overrun (t.withChk c) h]; rfl

theorem playAll_withChk (ds : List F64) (c : Byte) (t : Tape) :
    playAll p speriod ds (t.withChk c) = (playAll p speriod ds t).map (Tape.withChk c) := by
  induction ds generalizing t with
  | nil => rfl
  | cons d ds ih =>
    simp only [playAll, wave_withChk]
    cases wave p speriod d t with
    | ok t' => exact ih t'
    | error e => rfl

/-! ### What a train does -/

theorem playAll_of_train {ds : List F64} {ns : List Nat} (t : Tape)
    (hw : trainWrites speriod ds ns t.excess = true) (hn : ns.sum ≤ t.room) :
    playAll p speriod ds t =
      .ok { t with
        room := t.room - ns.sum
        samples := (trainSamples p speriod ds ns t.excess).reverse ++ t.samples
        excess := trainEnd speriod ds ns t.excess } := by
  induction ds generalizing ns t with
  | nil =>
    cases ns with
    | nil => rfl
    | cons n ns => simp [trainWrites] at hw
  | cons d ds ih =>
    cases ns with
    | nil => simp [trainWrites] at hw
    | cons n ns =>
      simp only [trainWrites, Bool.and_eq_true] at hw
      rw [List.sum_cons] at hn
      rw [playAll, wave_of_writes t hw.1 (by omega)]
      simp only
      rw [ih _ hw.2 (by simp; omega)]
      simp [trainSamples, trainEnd, Nat.sub_sub]

theorem trainSamples_length {ds : List F64} {ns : List Nat} {e : F64}
    (hw : trainWrites speriod ds ns e = true) : (trainSamples p speriod ds ns e).length = ns.sum := by
  induction ds generalizing ns e with
  | nil => cases ns with
    | nil => rfl
    | cons n ns => simp [trainWrites] at hw
  | cons d ds ih => cases ns with
    | nil => simp [trainWrites] at hw
    | cons n ns =>
      simp only [trainWrites, Bool.and_eq_true] at hw
      simp [trainSamples, ih hw.2]

/-- Everything a train can do: it writes the samples of its pulses, or it overruns the buffer. -/
theorem playAll_cases (ds : List F64) (t : Tape) :
    (∃ ns : List Nat, ns.sum ≤ t.room ∧ trainWrites speriod ds ns t.excess = true) ∨
      playAll p speriod ds t = .error .bufferOverrun := by
  induction ds generalizing t with
  | nil => exact .inl ⟨[], by simp, rfl⟩
  | cons d ds ih =>
    rcases wave_cases (p := p) (speriod := speriod) d t with ⟨n, hn, hw, he⟩ | he
    · rcases ih { t with
          room := t.room - n
          samples := (pulseSamples p speriod d t.excess n).reverse ++ t.samples
          excess := pulseEnd speriod d t.excess n } with ⟨ns, hs, hws⟩ | herr
      · refine .inl ⟨n :: ns, ?_, ?_⟩
        · simp at hs ⊢; omega
        · simp [trainWrites, hw]; exact hws
      · right
        rw [playAll, he]; exact herr
    · right
      rw [playAll, he]

/-! ### The tape's bookkeeping -/

/-- The tape `t'` is `t` with some more samples in its room. -/
def Tape.Extends (t t' : Tape) : Prop :=
  ∃ bs : List Byte, t'.samples = bs.reverse ++ t.samples ∧ t'.room + bs.length = t.room

theorem Tape.Extends.refl (t : Tape) : t.Extends t := ⟨[], by simp, by simp⟩

theorem Tape.Extends.trans {a b c : Tape} (h₁ : a.Extends b) (h₂ : b.Extends c) : a.Extends c := by
  obtain ⟨xs, hx, hr⟩ := h₁
  obtain ⟨ys, hy, hs⟩ := h₂
  exact ⟨xs ++ ys, by simp [hx, hy], by simp; omega⟩

theorem appendSample_extends {v : Nat} {t t' : Tape} (h : appendSample v t = .ok t') : t.Extends t' := by
  obtain ⟨_, hr, rfl⟩ := appendSample_ok_iff.1 h
  exact ⟨[BitVec.ofNat 8 v], by simp, by simp; omega⟩

/-- What a train that fits leaves: an extended tape with the same CHK. -/
theorem playAll_extends {ds : List F64} {t t' : Tape} (h : playAll p speriod ds t = .ok t') :
    t.Extends t' ∧ t'.chk = t.chk := by
  rcases playAll_cases (p := p) (speriod := speriod) ds t with ⟨ns, hs, hw⟩ | herr
  · rw [playAll_of_train t hw hs] at h
    cases h
    exact ⟨⟨trainSamples p speriod ds ns t.excess, rfl, by simp [trainSamples_length hw]; omega⟩, rfl⟩
  · rw [herr] at h; cases h

/-! ### Padding -/

/-- The loop of ContainerFinalize fills the room and cannot fault (40_sample_container.md R76). -/
theorem padLoop_eq (silence : Byte) (t : Tape) :
    padLoop silence t.room t =
      .ok { t with room := 0, samples := List.replicate t.room silence ++ t.samples } := by
  obtain ⟨room, samples, excess, chk⟩ := t
  simp only
  induction room generalizing samples with
  | zero => simp [padLoop]
  | succ room ih =>
    rw [padLoop, appendSample_byte]
    simp only [Nat.add_one_ne_zero, if_false, Nat.add_sub_cancel]
    rw [ih]
    simp [List.replicate_succ', List.append_assoc]

end Sys2Proof.Machine
end

