-- ==== Sys2Proof/Laws/Stream.lean ====
section
/-! SUPPORT. The stream of an encode (30_encoding.md R69) as one train of pulses, and the checksum it folds
(42_checksum.md R94). -/

namespace Sys2Proof.Machine

variable {p : Config.Params} {speriod : F64}

/-- The bytes of operands. -/
def bytesOf (bs : List Nat) : List Byte := bs.map (BitVec.ofNat 8)

/-- Transmitting bytes one after another plays their frames and folds every one of them. -/
theorem transmitAll_eq (hf : p.frameBits = 11) (bs : List Nat) (t : Tape) :
    transmitAll p speriod bs t =
      playAll p speriod ((bytesOf bs).flatMap (framePulses p))
        (t.withChk ((bytesOf bs).foldl (· ^^^ ·) t.chk)) := by
  induction bs generalizing t with
  | nil => rfl
  | cons b bs ih =>
    rw [transmitAll, transmitFrame_eq hf]
    simp only [if_true, bytesOf, List.map_cons, List.flatMap_cons, List.foldl_cons, playAll_append, andThen]
    have h1 : foldByte b t = t.withChk (t.chk ^^^ BitVec.ofNat 8 b) := rfl
    rw [h1, playAll_withChk, playAll_withChk]
    cases hpl : playAll p speriod (framePulses p (BitVec.ofNat 8 b)) t with
    | error c => rfl
    | ok t' =>
      simp only [Except.map]
      rw [ih]
      rfl

theorem bytesOf_foldedBytes (nt : List TextUnit) : bytesOf (foldedBytes p nt) = protocolBytes p nt := by
  have h : ∀ c : TextUnit, BitVec.ofNat 8 (dataByte p c) = BitVec.ofNat 8 p.dataOr ||| c.setWidth 8 := by
    intro c
    rw [dataByte, BitVec.ofNat_or]
    congr 1
  simp [bytesOf, foldedBytes, protocolBytes, h]

/-- Steps 4 to 8 of ENCODE, begun with CHK = 0, play the pulses of R69 and leave the checksum in CHK. -/
theorem encodeTape_eq (hf : p.frameBits = 11) (nt : List TextUnit) (t : Tape) (hc : t.chk = 0) :
    encodeTape p speriod nt t =
      playAll p speriod (encodePulses p nt) (t.withChk (checksumOf (protocolBytes p nt))) := by
  rw [encodePulses, List.flatMap_append, List.flatMap_singleton]
  simp only [encodeTape, andThen, playAll_append, repeatTape_wave, playAll_withChk]
  cases h1 : playAll p speriod (List.replicate p.leaderCount p.shortWave) t with
  | error c => rfl
  | ok t1 =>
    have hc1 : t1.chk = 0 := (playAll_extends h1).2.trans hc
    simp only [Except.map, transmitAll_eq hf, bytesOf_foldedBytes, hc1]
    have hsum : (protocolBytes p nt).foldl (· ^^^ ·) (0 : Byte) = checksumOf (protocolBytes p nt) := rfl
    rw [hsum, playAll_withChk]
    cases h2 : playAll p speriod ((protocolBytes p nt).flatMap (framePulses p)) t1 with
    | error c => rfl
    | ok t2 =>
      simp only [Except.map, transmitChecksum, transmitFrame_eq hf]
      have h3 : (t2.withChk (checksumOf (protocolBytes p nt))).chk = checksumOf (protocolBytes p nt) := rfl
      simp only [h3, BitVec.ofNat_toNat, BitVec.setWidth_eq, Bool.false_eq_true, if_false]
      rw [playAll_withChk]
      cases h4 : playAll p speriod (framePulses p (checksumOf (protocolBytes p nt))) t2 with
      | error c => rfl
      | ok t3 =>
        simp only [Except.map, playAll_withChk]

end Sys2Proof.Machine
end

