-- ==== Sys2Proof/Laws/Command.lean ====
section
/-! SUPPORT. What the operations on the whole state do: the header, ContainerCreate, SynthCreate, the commit of a
command's samples, ContainerFinalize, and the ways a command can end. One lemma for each says everything it can do. -/

namespace Sys2Proof.Machine

variable {p : Config.Params}

/-! ### The header (30_encoding.md R71) -/

theorem Memory.writeLE_after {m : Memory 8} {xs : List Byte} {a : Nat} (n v : Nat)
    (hm : m = Memory.writeBlock [] 0 xs) (ha : xs.length = a) :
    m.writeLE a n v = Memory.writeBlock [] 0 (xs ++ leBytes n v) := by
  subst hm ha
  simpa [Memory.writeLE] using Memory.writeBlock_append ([] : Memory 8) 0 xs (leBytes n v)

theorem wavHeader_length (sr ns : Nat) : (wavHeader p sr ns).length = 44 := by simp [wavHeader]

theorem headerMemory_eq (sr ns : Nat) : headerMemory p sr ns = Memory.writeBlock [] 0 (wavHeader p sr ns) := by
  have tag : leBytes 4 0x46464952 = [0x52, 0x49, 0x46, 0x46] ∧ leBytes 4 0x45564157 = [0x57, 0x41, 0x56, 0x45] ∧
      leBytes 4 0x20746D66 = [0x66, 0x6D, 0x74, 0x20] ∧ leBytes 4 0x61746164 = [0x64, 0x61, 0x74, 0x61] := by decide
  simp only [headerMemory, headerFields, List.foldl_cons, List.foldl_nil]
  have h1 := Memory.writeLE_after (m := []) (xs := []) (a := 0) 4 0x46464952 rfl rfl
  have h2 := Memory.writeLE_after 4 (ns + p.riffSizeAdd) h1 (a := 4) (by simp)
  have h3 := Memory.writeLE_after 4 0x45564157 h2 (a := 8) (by simp)
  have h4 := Memory.writeLE_after 4 0x20746D66 h3 (a := 12) (by simp)
  have h5 := Memory.writeLE_after 4 p.fmtChunkSize h4 (a := 16) (by simp)
  have h6 := Memory.writeLE_after 2 p.audioFormat h5 (a := 20) (by simp)
  have h7 := Memory.writeLE_after 2 p.channels h6 (a := 22) (by simp)
  have h8 := Memory.writeLE_after 4 sr h7 (a := 24) (by simp)
  have h9 := Memory.writeLE_after 4 sr h8 (a := 28) (by simp)
  have h10 := Memory.writeLE_after 2 p.blockAlign h9 (a := 32) (by simp)
  have h11 := Memory.writeLE_after 2 p.bitsPerSample h10 (a := 34) (by simp)
  have h12 := Memory.writeLE_after 4 0x61746164 h11 (a := 36) (by simp)
  have h13 := Memory.writeLE_after 4 ns h12 (a := 40) (by simp)
  rw [h13, tag.1, tag.2.1, tag.2.2.1, tag.2.2.2]
  simp [wavHeader]

theorem read_headerMemory (sr ns a : Nat) : (headerMemory p sr ns).read a = (wavHeader p sr ns)[a]? := by
  rw [headerMemory_eq, Memory.read_writeBlock]
  split
  · simp
  · rw [List.getElem?_eq_none (by omega)]; rfl

theorem headerMemory_wf (sr ns : Nat) : Memory.wf (headerMemory p sr ns) := by
  rw [headerMemory_eq]; exact Memory.wf_writeBlock Memory.wf_nil _ _

/-! ### Operations on the tape -/

/-- The tape after a train of `total` samples `bs`. -/
def tapeAfter (t : Tape) (bs : List Byte) (e : F64) : Tape where
  room := t.room - bs.length
  samples := bs.reverse ++ t.samples
  excess := e
  chk := t.chk

theorem onTape_ok_iff {f : Tape → Except FaultCode Tape} {s s' : State} :
    onTape f s = .ok s' ↔ ∃ t, f (tapeOf s) = .ok t ∧ s' = commit s t := by
  unfold onTape
  cases f (tapeOf s) with
  | ok t => simp [eq_comm]
  | error c => simp

theorem onTape_error_iff {f : Tape → Except FaultCode Tape} {s : State} {c : FaultCode} :
    onTape f s = .error c ↔ f (tapeOf s) = .error c := by
  unfold onTape
  cases f (tapeOf s) with
  | ok t => simp
  | error c => simp

/-- A command whose pulses are the train `ds` and which leaves `c` in CHK. -/
theorem onTape_train {speriod : F64} {ds : List F64} {ns : List Nat} {c : Byte} {s : State}
    {f : Tape → Except FaultCode Tape} (hf : f (tapeOf s) = playAll p speriod ds ((tapeOf s).withChk c))
    (hw : trainWrites speriod ds ns s.excess = true) (hn : ns.sum ≤ s.buflen.toNat - s.cursor.toNat) :
    onTape f s = .ok { s with
      out := s.out.writeBlock s.cursor.toNat (trainSamples p speriod ds ns s.excess)
      cursor := s.cursor + BitVec.ofNat 64 ns.sum
      excess := trainEnd speriod ds ns s.excess
      chk := c } := by
  refine onTape_ok_iff.2 ⟨_, hf.trans (playAll_of_train _ hw hn), ?_⟩
  have hl := trainSamples_length (p := p) hw
  simp only [commit, Tape.withChk, tapeOf, List.append_nil, List.reverse_reverse, List.length_reverse, hl]

/-- ContainerFinalize pads OUT with SILENCE up to BUFLEN, sets FINAL and cannot fault (40_sample_container.md R76). -/
theorem containerFinalize_eq (s : State) :
    containerFinalize s = .ok (State.setFinal { s with
      out := s.out.writeBlock s.cursor.toNat
        (List.replicate (s.buflen.toNat - s.cursor.toNat) s.params.silence)
      cursor := s.cursor + BitVec.ofNat 64 (s.buflen.toNat - s.cursor.toNat) }) := by
  unfold containerFinalize onTape
  simp only [padLoop_eq]
  simp [commit, tapeOf]

/-! ### Creating a buffer -/

/-- The state ContainerCreate leaves when it does not fault. -/
def createdState (sr ns : Nat) (s : State) : State :=
  State.setStructure true false false
    { s with
      srate := BitVec.ofNat 32 sr
      nsamp := BitVec.ofNat 32 ns
      buflen := BitVec.ofNat 64 (ns + s.params.headerBytes)
      cursor := BitVec.ofNat 64 s.params.headerBytes
      out := headerMemory s.params sr ns }

@[simp] theorem createdState_params (sr ns : Nat) (s : State) : (createdState sr ns s).params = s.params := rfl
@[simp] theorem createdState_a0 (sr ns : Nat) (s : State) : (createdState sr ns s).a0 = s.a0 := rfl
@[simp] theorem createdState_a0Written (sr ns : Nat) (s : State) :
    (createdState sr ns s).a0Written = s.a0Written := rfl
@[simp] theorem createdState_a1 (sr ns : Nat) (s : State) : (createdState sr ns s).a1 = s.a1 := rfl
@[simp] theorem createdState_a1Written (sr ns : Nat) (s : State) :
    (createdState sr ns s).a1Written = s.a1Written := rfl
@[simp] theorem createdState_finfo (sr ns : Nat) (s : State) : (createdState sr ns s).finfo = s.finfo := rfl
@[simp] theorem createdState_chk (sr ns : Nat) (s : State) : (createdState sr ns s).chk = s.chk := rfl
@[simp] theorem createdState_excess (sr ns : Nat) (s : State) : (createdState sr ns s).excess = s.excess := rfl
@[simp] theorem createdState_speriod (sr ns : Nat) (s : State) : (createdState sr ns s).speriod = s.speriod := rfl
@[simp] theorem createdState_srate (sr ns : Nat) (s : State) :
    (createdState sr ns s).srate = BitVec.ofNat 32 sr := rfl
@[simp] theorem createdState_nsamp (sr ns : Nat) (s : State) :
    (createdState sr ns s).nsamp = BitVec.ofNat 32 ns := rfl
@[simp] theorem createdState_buflen (sr ns : Nat) (s : State) :
    (createdState sr ns s).buflen = BitVec.ofNat 64 (ns + s.params.headerBytes) := rfl
@[simp] theorem createdState_cursor (sr ns : Nat) (s : State) :
    (createdState sr ns s).cursor = BitVec.ofNat 64 s.params.headerBytes := rfl
@[simp] theorem createdState_out (sr ns : Nat) (s : State) :
    (createdState sr ns s).out = headerMemory s.params sr ns := rfl
@[simp] theorem createdState_text (sr ns : Nat) (s : State) : (createdState sr ns s).text = s.text := rfl
@[simp] theorem createdState_inputs (sr ns : Nat) (s : State) : (createdState sr ns s).inputs = s.inputs := rfl
@[simp] theorem createdState_replies (sr ns : Nat) (s : State) : (createdState sr ns s).replies = s.replies := rfl
@[simp] theorem createdState_freeIdx (sr ns : Nat) (s : State) : (createdState sr ns s).freeIdx = s.freeIdx := rfl
@[simp] theorem createdState_created (sr ns : Nat) (s : State) :
    (createdState sr ns s).created = true := by simp [createdState]
@[simp] theorem createdState_synth (sr ns : Nat) (s : State) :
    (createdState sr ns s).synth = false := by simp [createdState]
@[simp] theorem createdState_final (sr ns : Nat) (s : State) :
    (createdState sr ns s).final = false := by simp [createdState]
@[simp] theorem createdState_faulted (sr ns : Nat) (s : State) :
    (createdState sr ns s).faulted = s.faulted := by simp [createdState]; rfl
@[simp] theorem createdState_fcode (sr ns : Nat) (s : State) :
    (createdState sr ns s).fcode = s.fcode := by simp [createdState]; rfl

theorem containerCreate_eq (sr ns : Nat) (s : State) :
    containerCreate sr ns s =
      if s.params.bufMax < ns + s.params.headerBytes then .error .capacity else .ok (createdState sr ns s) := rfl

/-- The state SynthCreate leaves when it does not fault. -/
def synthState (sr ns : Nat) (s : State) : State :=
  State.setSynth { createdState sr ns s with
    excess := F64.zero false
    speriod := F64.fdiv F64.one (F64.ofNat sr) }

@[simp] theorem synthState_params (sr ns : Nat) (s : State) : (synthState sr ns s).params = s.params := rfl
@[simp] theorem synthState_a0 (sr ns : Nat) (s : State) : (synthState sr ns s).a0 = s.a0 := rfl
@[simp] theorem synthState_a0Written (sr ns : Nat) (s : State) : (synthState sr ns s).a0Written = s.a0Written := rfl
@[simp] theorem synthState_a1 (sr ns : Nat) (s : State) : (synthState sr ns s).a1 = s.a1 := rfl
@[simp] theorem synthState_a1Written (sr ns : Nat) (s : State) : (synthState sr ns s).a1Written = s.a1Written := rfl
@[simp] theorem synthState_finfo (sr ns : Nat) (s : State) : (synthState sr ns s).finfo = s.finfo := rfl
@[simp] theorem synthState_chk (sr ns : Nat) (s : State) : (synthState sr ns s).chk = s.chk := rfl
@[simp] theorem synthState_excess (sr ns : Nat) (s : State) : (synthState sr ns s).excess = F64.zero false := rfl
@[simp] theorem synthState_speriod (sr ns : Nat) (s : State) :
    (synthState sr ns s).speriod = F64.fdiv F64.one (F64.ofNat sr) := rfl
@[simp] theorem synthState_srate (sr ns : Nat) (s : State) : (synthState sr ns s).srate = BitVec.ofNat 32 sr := rfl
@[simp] theorem synthState_nsamp (sr ns : Nat) (s : State) : (synthState sr ns s).nsamp = BitVec.ofNat 32 ns := rfl
@[simp] theorem synthState_buflen (sr ns : Nat) (s : State) :
    (synthState sr ns s).buflen = BitVec.ofNat 64 (ns + s.params.headerBytes) := rfl
@[simp] theorem synthState_cursor (sr ns : Nat) (s : State) :
    (synthState sr ns s).cursor = BitVec.ofNat 64 s.params.headerBytes := rfl
@[simp] theorem synthState_out (sr ns : Nat) (s : State) :
    (synthState sr ns s).out = headerMemory s.params sr ns := rfl
@[simp] theorem synthState_text (sr ns : Nat) (s : State) : (synthState sr ns s).text = s.text := rfl
@[simp] theorem synthState_inputs (sr ns : Nat) (s : State) : (synthState sr ns s).inputs = s.inputs := rfl
@[simp] theorem synthState_replies (sr ns : Nat) (s : State) : (synthState sr ns s).replies = s.replies := rfl
@[simp] theorem synthState_freeIdx (sr ns : Nat) (s : State) : (synthState sr ns s).freeIdx = s.freeIdx := rfl
@[simp] theorem synthState_created (sr ns : Nat) (s : State) :
    (synthState sr ns s).created = true := by
  rw [synthState]; simp; exact createdState_created sr ns s
@[simp] theorem synthState_synth (sr ns : Nat) (s : State) : (synthState sr ns s).synth = true := by simp [synthState]
@[simp] theorem synthState_final (sr ns : Nat) (s : State) :
    (synthState sr ns s).final = false := by
  rw [synthState]; simp; exact createdState_final sr ns s
@[simp] theorem synthState_faulted (sr ns : Nat) (s : State) :
    (synthState sr ns s).faulted = s.faulted := by
  rw [synthState]; simp; exact createdState_faulted sr ns s
@[simp] theorem synthState_fcode (sr ns : Nat) (s : State) :
    (synthState sr ns s).fcode = s.fcode := by
  rw [synthState]; simp; exact createdState_fcode sr ns s

/-- Everything SynthCreate can do (41_synthesizer.md R81). -/
theorem synthCreate_eq (sr : Nat) (t : F64) (s : State) :
    synthCreate sr t s =
      if synthSizeOk s.params sr t = false then .error .argument
      else if s.params.bufMax < (synthSamples s.params sr t).toNat + s.params.headerBytes then .error .capacity
      else .ok (synthState sr (synthSamples s.params sr t).toNat s) := by
  unfold synthCreate
  have hs : F64.ceilInt (F64.fmul t (F64.ofNat sr)) + (s.params.slackSamples : Int) = synthSamples s.params sr t := rfl
  simp only [hs, synthSizeOk, containerCreate_eq]
  by_cases hfin : F64.isFinite (F64.fmul t (F64.ofNat sr)) = true
  · by_cases hr : 0 ≤ synthSamples s.params sr t ∧ synthSamples s.params sr t ≤ 0xFFFFFFE3
    · have h1 : ¬ (synthSamples s.params sr t < 0 ∨ 0xFFFFFFE3 < synthSamples s.params sr t) := by omega
      simp only [hfin, hr, h1]
      by_cases hc : s.params.bufMax < (synthSamples s.params sr t).toNat + s.params.headerBytes
      · simp [hc]
      · simp [hc, synthState]
    · have h1 : synthSamples s.params sr t < 0 ∨ 0xFFFFFFE3 < synthSamples s.params sr t := by omega
      simp [hfin, hr, h1]
  · simp [hfin]

/-! ### The ways a command ends -/

theorem finish_ok {i : Instr} {s s' : State} {r : Except FaultCode State} (h : r = .ok s') :
    finish i s r = .next s' := by subst h; rfl

theorem finish_error {i : Instr} {s : State} {r : Except FaultCode State} {c : FaultCode} (h : r = .error c) :
    finish i s r = .next (raise c (encode i) s) := by subst h; rfl

theorem finish_next_iff {i : Instr} {s t : State} {r : Except FaultCode State} :
    finish i s r = .next t ↔ r = .ok t ∨ ∃ c, r = .error c ∧ t = raise c (encode i) s := by
  cases r with
  | ok s' => simp [finish]
  | error c => simp [finish, fail, eq_comm]

theorem needCreated_next {i : Instr} {s t : State} {k : Result} (h : needCreated i s k = .next t) :
    (s.created = true ∧ k = .next t) ∨ (s.created = false ∧ t = raise .sequence (encode i) s) := by
  cases hb : s.created with
  | true => exact .inl ⟨rfl, by simpa [needCreated, hb] using h⟩
  | false => exact .inr ⟨rfl, by simpa [needCreated, hb, fail, eq_comm] using h⟩

theorem needSynth_next {i : Instr} {s t : State} {k : Result} (h : needSynth i s k = .next t) :
    (s.synth = true ∧ k = .next t) ∨ (s.synth = false ∧ t = raise .sequence (encode i) s) := by
  cases hb : s.synth with
  | true => exact .inl ⟨rfl, by simpa [needSynth, hb] using h⟩
  | false => exact .inr ⟨rfl, by simpa [needSynth, hb, fail, eq_comm] using h⟩

/-- Fault entry does what 60_exceptions.md R117 says. -/
theorem raise_takesFault (c : FaultCode) (w : Word) (s : State) : TakesFault c.bits w s (raise c w s) := by
  simp [TakesFault, HostSideKept]

end Sys2Proof.Machine
end

