-- ==== Sys2Proof/Laws/Decode.lean ====
section
/-! SUPPORT. What decoding a command word does, row by row of the opcode table. -/

namespace Sys2Proof

theorem and_fullMask (w : Word) : w &&& 0xFFFFFFFF#32 = w := by
  have h : (0xFFFFFFFF#32) = BitVec.allOnes 32 := by decide
  rw [h, BitVec.and_allOnes]

/-- A word that decodes is the word of a row, and gives that row's instruction. -/
theorem decode_row {w : Word} {i : Instr} (h : decode w = .ok i) :
    ∃ r ∈ opcodeRows, w = r.matchWord ∧ r.instr = i := by
  unfold decode at h
  split at h
  · rename_i r hr
    have hm := List.mem_of_find?_eq_some hr
    have hp : (w &&& r.mask == r.matchWord) = true :=
      List.find?_some (p := fun r : OpcodeRow => w &&& r.mask == r.matchWord) hr
    have hmask : ∀ r ∈ opcodeRows, r.mask = 0xFFFFFFFF#32 := by decide
    rw [hmask r hm, and_fullMask] at hp
    cases h
    exact ⟨r, hm, by simpa using hp, rfl⟩
  · cases h

/-- No two rows of the opcode table select the same word. -/
theorem opcodeRows_disjoint : opcodeRows.Pairwise (fun r q => r.matchWord ≠ q.matchWord) := by decide

/-- Every row's word is a legal command word. -/
theorem opcodeRows_legal : ∀ r ∈ opcodeRows, commandWordOk r.matchWord = true ∧ encode r.instr = r.matchWord := by
  decide

end Sys2Proof
end

