-- ==== Sys2Proof/Laws/Exec.lean ====
section
/-! SUPPORT. What each command can do: if it answers next t, then t is the state of fault entry with one of the codes the
command raises, or the one state its effect gives. Invariants and frames follow from these without unfolding a meaning. -/

namespace Sys2Proof.Machine

variable {s t : State}

/-- The padded state of ContainerFinalize, before FINAL is set. -/
def padState (s : State) : State :=
  { s with
    out := s.out.writeBlock s.cursor.toNat (List.replicate (s.buflen.toNat - s.cursor.toNat) s.params.silence)
    cursor := s.cursor + BitVec.ofNat 64 (s.buflen.toNat - s.cursor.toNat) }

@[simp] theorem padState_params (s : State) : (padState s).params = s.params := rfl
@[simp] theorem padState_a0 (s : State) : (padState s).a0 = s.a0 := rfl
@[simp] theorem padState_a0Written (s : State) : (padState s).a0Written = s.a0Written := rfl
@[simp] theorem padState_a1 (s : State) : (padState s).a1 = s.a1 := rfl
@[simp] theorem padState_a1Written (s : State) : (padState s).a1Written = s.a1Written := rfl
@[simp] theorem padState_finfo (s : State) : (padState s).finfo = s.finfo := rfl
@[simp] theorem padState_chk (s : State) : (padState s).chk = s.chk := rfl
@[simp] theorem padState_excess (s : State) : (padState s).excess = s.excess := rfl
@[simp] theorem padState_speriod (s : State) : (padState s).speriod = s.speriod := rfl
@[simp] theorem padState_srate (s : State) : (padState s).srate = s.srate := rfl
@[simp] theorem padState_nsamp (s : State) : (padState s).nsamp = s.nsamp := rfl
@[simp] theorem padState_buflen (s : State) : (padState s).buflen = s.buflen := rfl
@[simp] theorem padState_cursor (s : State) :
    (padState s).cursor = s.cursor + BitVec.ofNat 64 (s.buflen.toNat - s.cursor.toNat) := rfl
@[simp] theorem padState_out (s : State) :
    (padState s).out =
      s.out.writeBlock s.cursor.toNat (List.replicate (s.buflen.toNat - s.cursor.toNat) s.params.silence) := rfl
@[simp] theorem padState_text (s : State) : (padState s).text = s.text := rfl
@[simp] theorem padState_inputs (s : State) : (padState s).inputs = s.inputs := rfl
@[simp] theorem padState_replies (s : State) : (padState s).replies = s.replies := rfl
@[simp] theorem padState_freeIdx (s : State) : (padState s).freeIdx = s.freeIdx := rfl
@[simp] theorem padState_status (s : State) : (padState s).status = s.status := by rfl
@[simp] theorem padState_created (s : State) : (padState s).created = s.created := by rfl
@[simp] theorem padState_synth (s : State) : (padState s).synth = s.synth := by rfl
@[simp] theorem padState_final (s : State) : (padState s).final = s.final := by rfl
@[simp] theorem padState_faulted (s : State) : (padState s).faulted = s.faulted := by rfl
@[simp] theorem padState_fcode (s : State) : (padState s).fcode = s.fcode := by rfl

theorem containerFinalize_ok (s : State) : containerFinalize s = .ok (padState s).setFinal := containerFinalize_eq s

/-- A tape operation that is a train of pulses after CHK was set. -/
def IsTrain (s : State) (f : Tape → Except FaultCode Tape) (ds : List F64) (c : Byte) : Prop :=
  f (tapeOf s) = playAll s.params s.speriod ds ((tapeOf s).withChk c)

/-- Everything a command made of a train can do. -/
theorem finish_train_next {i : Instr} {f : Tape → Except FaultCode Tape} {ds : List F64} {c : Byte}
    (hf : IsTrain s f ds c) (h : finish i s (onTape f s) = .next t) :
    t = raise .bufferOverrun (encode i) s ∨
      ∃ ns : List Nat, trainWrites s.speriod ds ns s.excess = true ∧ ns.sum ≤ s.buflen.toNat - s.cursor.toNat ∧
        t = { s with
          out := s.out.writeBlock s.cursor.toNat (trainSamples s.params s.speriod ds ns s.excess)
          cursor := s.cursor + BitVec.ofNat 64 ns.sum
          excess := trainEnd s.speriod ds ns s.excess
          chk := c } := by
  rcases playAll_cases (p := s.params) (speriod := s.speriod) ds ((tapeOf s).withChk c) with ⟨ns, hs, hw⟩ | he
  · right
    refine ⟨ns, hw, hs, ?_⟩
    rw [finish_ok (onTape_train hf hw hs)] at h
    cases h; rfl
  · left
    rw [finish_error (onTape_error_iff.2 (hf.trans he))] at h
    cases h; rfl

theorem isTrain_wave (s : State) (d : F64) : IsTrain s (wave s.params s.speriod d) [d] s.chk := by
  rw [IsTrain, playAll_singleton]; rfl

theorem isTrain_repeat (s : State) (d : F64) (n : Nat) :
    IsTrain s (repeatTape (wave s.params s.speriod d) n) (List.replicate n d) s.chk := by
  rw [IsTrain, repeatTape_wave]; rfl

theorem isTrain_frame (hf : s.params.frameBits = 11) (v : Word64) :
    IsTrain s (transmitFrame s.params s.speriod v.toNat true) (framePulses s.params (v.setWidth 8))
      (s.chk ^^^ v.setWidth 8) := by
  have h : BitVec.ofNat 8 v.toNat = v.setWidth 8 := rfl
  rw [IsTrain, transmitFrame_eq hf, h]; rfl

theorem isTrain_checksum (hf : s.params.frameBits = 11) :
    IsTrain s (transmitChecksum s.params s.speriod) (framePulses s.params s.chk) s.chk := by
  rw [IsTrain, transmitChecksum, transmitFrame_eq hf]
  simp only [tapeOf_chk, BitVec.ofNat_toNat, BitVec.setWidth_eq]; rfl

/-! ### Tapes of any frame length -/

theorem sendBits_extends {p : Config.Params} {sp : F64} {n fr : Nat} {a b : Tape}
    (h : sendBits p sp n fr a = .ok b) : a.Extends b ∧ b.chk = a.chk := by
  rw [sendBits_eq] at h; exact playAll_extends h

/-- A frame that fits leaves an extended tape; its error is an overrun. -/
theorem transmitFrame_cases (p : Config.Params) (sp : F64) (b : Nat) (fold : Bool) (a : Tape) :
    (∃ c, transmitFrame p sp b fold a = .ok c ∧ a.Extends c ∧
      c.chk = if fold then a.chk ^^^ BitVec.ofNat 8 b else a.chk) ∨
      transmitFrame p sp b fold a = .error .bufferOverrun := by
  rw [transmitFrame, sendBits_eq]
  rcases playAll_cases (p := p) (speriod := sp) ((lowBits p.frameBits (frameOf b)).flatMap (bitPulses p))
      (if fold then foldByte b a else a) with ⟨ns, hs, hw⟩ | he
  · left
    have hplay := playAll_of_train (p := p) _ hw hs
    have hext := playAll_extends hplay
    refine ⟨_, hplay, ?_, ?_⟩
    · obtain ⟨bs, h1, h2⟩ := hext.1
      cases fold
      · exact ⟨bs, h1, h2⟩
      · exact ⟨bs, h1, h2⟩
    · rw [hext.2]; cases fold <;> rfl
  · exact .inr he

theorem playAll_cases' (p : Config.Params) (sp : F64) (ds : List F64) (a : Tape) :
    (∃ c, playAll p sp ds a = .ok c ∧ a.Extends c) ∨ playAll p sp ds a = .error .bufferOverrun := by
  rcases playAll_cases (p := p) (speriod := sp) ds a with ⟨ns, hs, hw⟩ | he
  · have hplay := playAll_of_train (p := p) _ hw hs
    exact .inl ⟨_, hplay, (playAll_extends hplay).1⟩
  · exact .inr he

theorem transmitAll_cases (p : Config.Params) (sp : F64) (bs : List Nat) (a : Tape) :
    (∃ c, transmitAll p sp bs a = .ok c ∧ a.Extends c) ∨ transmitAll p sp bs a = .error .bufferOverrun := by
  induction bs generalizing a with
  | nil => exact .inl ⟨a, rfl, Tape.Extends.refl a⟩
  | cons b bs ih =>
    rcases transmitFrame_cases p sp b true a with ⟨c, hc, he, _⟩ | herr
    · rcases ih c with ⟨d, hd, he'⟩ | herr
      · exact .inl ⟨d, by rw [transmitAll, hc]; exact hd, he.trans he'⟩
      · exact .inr (by rw [transmitAll, hc]; exact herr)
    · exact .inr (by rw [transmitAll, herr])

theorem andThen_cases {f g : Tape → Except FaultCode Tape} {a : Tape}
    (hf : (∃ c, f a = .ok c ∧ a.Extends c) ∨ f a = .error .bufferOverrun)
    (hg : ∀ c, (∃ d, g c = .ok d ∧ c.Extends d) ∨ g c = .error .bufferOverrun) :
    (∃ c, andThen f g a = .ok c ∧ a.Extends c) ∨ andThen f g a = .error .bufferOverrun := by
  rcases hf with ⟨c, hc, he⟩ | herr
  · rcases hg c with ⟨d, hd, he'⟩ | herr
    · exact .inl ⟨d, by rw [andThen, hc]; exact hd, he.trans he'⟩
    · exact .inr (by rw [andThen, hc]; exact herr)
  · exact .inr (by rw [andThen, herr])

theorem encodeTape_cases (p : Config.Params) (sp : F64) (nt : List TextUnit) (a : Tape) :
    (∃ c, encodeTape p sp nt a = .ok c ∧ a.Extends c) ∨ encodeTape p sp nt a = .error .bufferOverrun := by
  have hrep : ∀ n a, (∃ c, repeatTape (wave p sp p.shortWave) n a = .ok c ∧ a.Extends c) ∨
      repeatTape (wave p sp p.shortWave) n a = .error .bufferOverrun := by
    intro n a; rw [repeatTape_wave]; exact playAll_cases' p sp _ a
  have hchk : ∀ a, (∃ c, transmitChecksum p sp a = .ok c ∧ a.Extends c) ∨
      transmitChecksum p sp a = .error .bufferOverrun := by
    intro a
    rcases transmitFrame_cases p sp a.chk.toNat false a with ⟨c, hc, he, _⟩ | herr
    · exact .inl ⟨c, hc, he⟩
    · exact .inr herr
  exact andThen_cases (hrep _ _) fun _ => andThen_cases (transmitAll_cases p sp _ _) fun _ =>
    andThen_cases (hchk _) fun _ => hrep _ _

/-! ### What a command runs once its precondition holds -/

theorem execCcreate_eq (hr : rateOk s.a0.toNat = true)
    (hn : s.a1.toNat ≤ 0xFFFFFFE3) :
    execCcreate s = finish .ccreate s (containerCreate s.a0.toNat s.a1.toNat s) := by
  have : ¬ 0xFFFFFFE3 < s.a1.toNat := by omega
  simp [execCcreate, hr, this]

theorem execCappend_eq (hc : s.created = true) :
    execCappend s = finish .cappend s (onTape (appendSample s.a0.toNat) s) := by
  simp [execCappend, needCreated, hc]

theorem execCfinal_eq (hc : s.created = true) : execCfinal s = .next (padState s).setFinal := by
  simp [execCfinal, needCreated, hc, containerFinalize_ok, finish]

theorem execSfinal_eq (hy : s.synth = true) : execSfinal s = .next (padState s).setFinal := by
  simp [execSfinal, needSynth, hy, containerFinalize_ok, finish]

theorem execScreate_eq (hr : rateOk s.a0.toNat = true) :
    execScreate s = finish .screate s (synthCreate s.a0.toNat s.a1 s) := by
  simp [execScreate, hr]

theorem execSwave_eq (hy : s.synth = true) :
    execSwave s = finish .swave s (onTape (wave s.params s.speriod s.a0) s) := by
  simp [execSwave, needSynth, hy]

theorem execSrepeat_eq (hy : s.synth = true) :
    execSrepeat s =
      finish .srepeat s (onTape (repeatTape (wave s.params s.speriod s.a0) s.a1.toNat) s) := by
  simp [execSrepeat, needSynth, hy]

theorem execExmit_eq (hy : s.synth = true) :
    execExmit s = finish .exmit s (onTape (transmitFrame s.params s.speriod s.a0.toNat true) s) := by
  simp [execExmit, needSynth, hy]

theorem execEchk_eq (hy : s.synth = true) :
    execEchk s = finish .echk s (onTape (transmitChecksum s.params s.speriod) s) := by
  simp [execEchk, needSynth, hy]

theorem execEncode_eq {us : List TextUnit} (hl : s.a0.toNat ≤ s.params.textMax)
    (hu : s.text.readRange 0 s.a0.toNat = some us) :
    execEncode s = finish .encode s (encodeText (normalizeText s.params us) s) := by
  have : ¬ s.params.textMax < s.a0.toNat := by omega
  simp [execEncode, this, hu]

/-- Steps 2 to 9 of ENCODE where the size is accepted and the stream fits. -/
theorem encodeText_ok {nt : List TextUnit} {c : Tape} {sz : Nat}
    (hsz : synthSizeOk s.params s.params.sampleRate (totalDuration s.params nt.length) = true)
    (hz : sz = (synthSamples s.params s.params.sampleRate (totalDuration s.params nt.length)).toNat)
    (hcap : sz + s.params.headerBytes ≤ s.params.bufMax)
    (henc : encodeTape s.params (F64.fdiv F64.one (F64.ofNat s.params.sampleRate)) nt
      (tapeOf (synthState s.params.sampleRate sz { s with chk := 0 })) = .ok c) :
    encodeText nt s =
      .ok (padState (commit (synthState s.params.sampleRate sz { s with chk := 0 }) c)).setFinal := by
  have ho : onTape (encodeTape s.params (F64.fdiv F64.one (F64.ofNat s.params.sampleRate)) nt)
      (synthState s.params.sampleRate sz { s with chk := 0 }) =
        .ok (commit (synthState s.params.sampleRate sz { s with chk := 0 }) c) := onTape_ok_iff.2 ⟨c, henc, rfl⟩
  rw [encodeText, synthCreate_eq]
  simp only
  rw [← hz, if_neg (by simp [hsz]), if_neg (by omega)]
  simp only [synthState_params, synthState_speriod]
  rw [ho]
  exact containerFinalize_ok _

/-- A command made of a train of pulses that fits (see trainWrites). -/
theorem finish_train {i : Instr} {f : Tape → Except FaultCode Tape} {ds : List F64} {ns : List Nat} {c : Byte}
    (hf : IsTrain s f ds c) (hw : trainWrites s.speriod ds ns s.excess = true)
    (hn : ns.sum ≤ s.buflen.toNat - s.cursor.toNat) :
    finish i s (onTape f s) = .next { s with
      out := s.out.writeBlock s.cursor.toNat (trainSamples s.params s.speriod ds ns s.excess)
      cursor := s.cursor + BitVec.ofNat 64 ns.sum
      excess := trainEnd s.speriod ds ns s.excess
      chk := c } :=
  finish_ok (onTape_train hf hw hn)

/-! ### One lemma a command -/

theorem execCcreate_next (h : execCcreate s = .next t) :
    t = raise .argument (encode .ccreate) s ∨ t = raise .capacity (encode .ccreate) s ∨
      (rateOk s.a0.toNat = true ∧ s.a1.toNat ≤ 0xFFFFFFE3 ∧ s.a1.toNat + s.params.headerBytes ≤ s.params.bufMax ∧
        t = createdState s.a0.toNat s.a1.toNat s) := by
  unfold execCcreate at h
  by_cases hr : rateOk s.a0.toNat = true
  · by_cases hn : 0xFFFFFFE3 < s.a1.toNat
    · simp only [u64, hr, hn, Bool.not_true, Bool.false_eq_true, if_true, if_false] at h
      cases h; exact .inl rfl
    · simp only [u64, hr, hn, Bool.not_true, Bool.false_eq_true, if_false, containerCreate_eq] at h
      by_cases hb : s.params.bufMax < s.a1.toNat + s.params.headerBytes
      · simp only [hb, if_true] at h
        cases h; exact .inr (.inl rfl)
      · simp only [hb, if_false] at h
        cases h; exact .inr (.inr ⟨hr, by omega, by omega, rfl⟩)
  · simp only [u64, Bool.not_eq_true] at hr h
    simp only [hr, Bool.not_false, if_true] at h
    cases h; exact .inl rfl

theorem execScreate_next (h : execScreate s = .next t) :
    t = raise .argument (encode .screate) s ∨ t = raise .capacity (encode .screate) s ∨
      (rateOk s.a0.toNat = true ∧ synthSizeOk s.params s.a0.toNat s.a1 = true ∧
        (synthSamples s.params s.a0.toNat s.a1).toNat + s.params.headerBytes ≤ s.params.bufMax ∧
        t = synthState s.a0.toNat (synthSamples s.params s.a0.toNat s.a1).toNat s) := by
  unfold execScreate at h
  split at h
  · cases h; exact .inl rfl
  · simp only [u64, f64arg, synthCreate_eq] at h
    split at h
    · cases h; exact .inl rfl
    · split at h
      · cases h; exact .inr (.inl rfl)
      · cases h
        refine .inr (.inr ⟨by simp_all [u64], by simp_all, by omega, rfl⟩)

theorem execCappend_next (h : execCappend s = .next t) :
    t = raise .sequence (encode .cappend) s ∨
    (s.created = true ∧
      (t = raise .sampleRange (encode .cappend) s ∧ 255 < s.a0.toNat ∨
       t = raise .bufferOverrun (encode .cappend) s ∨
       s.a0.toNat ≤ 255 ∧ s.cursor.toNat < s.buflen.toNat ∧
       t = { s with
         out := s.out.writeBlock s.cursor.toNat [s.a0.setWidth 8]
         cursor := s.cursor + BitVec.ofNat 64 1 })) := by
  rcases needCreated_next h with ⟨hc, h⟩ | ⟨_, rfl⟩
  · refine .inr ⟨hc, ?_⟩
    unfold onTape appendSample at h
    by_cases h1 : 255 < s.a0.toNat
    · simp only [u64, h1, if_true] at h
      cases h; exact .inl ⟨rfl, h1⟩
    · by_cases h2 : (tapeOf s).room = 0
      · simp only [u64, h1, h2, if_true, if_false] at h
        cases h; exact .inr (.inl rfl)
      · simp only [u64, h1, h2, if_false] at h
        simp only [tapeOf_room] at h2
        cases h
        exact .inr (.inr ⟨by omega, by omega, rfl⟩)
  · exact .inl rfl

theorem finish_finalize_next {i : Instr} (h : finish i s (containerFinalize s) = .next t) :
    t = (padState s).setFinal := by
  rw [finish_ok (containerFinalize_ok s)] at h; cases h; rfl

theorem execCfinal_next (h : execCfinal s = .next t) :
    t = raise .sequence (encode .cfinal) s ∨ (s.created = true ∧ t = (padState s).setFinal) := by
  rcases needCreated_next h with ⟨hc, h⟩ | ⟨_, rfl⟩
  · exact .inr ⟨hc, finish_finalize_next h⟩
  · exact .inl rfl

theorem execSfinal_next (h : execSfinal s = .next t) :
    t = raise .sequence (encode .sfinal) s ∨ (s.synth = true ∧ t = (padState s).setFinal) := by
  rcases needSynth_next h with ⟨hc, h⟩ | ⟨_, rfl⟩
  · exact .inr ⟨hc, finish_finalize_next h⟩
  · exact .inl rfl

theorem finish_finalize_next' {i : Instr} {u : State} (h : finish i s (containerFinalize u) = .next t) :
    t = (padState u).setFinal := by
  rw [finish_ok (containerFinalize_ok u)] at h; cases h; rfl

/-- A command that works on the tape and can only overrun. -/
theorem finish_onTape_next {i : Instr} {f : Tape → Except FaultCode Tape}
    (hf : (∃ c, f (tapeOf s) = .ok c ∧ (tapeOf s).Extends c) ∨ f (tapeOf s) = .error .bufferOverrun)
    (h : finish i s (onTape f s) = .next t) :
    t = raise .bufferOverrun (encode i) s ∨
      ∃ c, f (tapeOf s) = .ok c ∧ (tapeOf s).Extends c ∧ t = commit s c := by
  rcases hf with ⟨c, hc, he⟩ | herr
  · rw [finish_ok (onTape_ok_iff.2 ⟨c, hc, rfl⟩)] at h
    cases h; exact .inr ⟨c, hc, he, rfl⟩
  · rw [finish_error (onTape_error_iff.2 herr)] at h
    cases h; exact .inl rfl

theorem wave_cases' (p : Config.Params) (sp d : F64) (a : Tape) :
    (∃ c, wave p sp d a = .ok c ∧ a.Extends c) ∨ wave p sp d a = .error .bufferOverrun := by
  rw [← playAll_singleton]; exact playAll_cases' p sp _ a

theorem execSwave_next (h : execSwave s = .next t) :
    t = raise .sequence (encode .swave) s ∨
    (s.synth = true ∧
      (t = raise .bufferOverrun (encode .swave) s ∨
       ∃ c, wave s.params s.speriod s.a0 (tapeOf s) = .ok c ∧ (tapeOf s).Extends c ∧ t = commit s c)) := by
  rcases needSynth_next h with ⟨hc, h⟩ | ⟨_, rfl⟩
  · exact .inr ⟨hc, finish_onTape_next (wave_cases' _ _ _ _) h⟩
  · exact .inl rfl

theorem execSrepeat_next (h : execSrepeat s = .next t) :
    t = raise .sequence (encode .srepeat) s ∨
    (s.synth = true ∧
      (t = raise .bufferOverrun (encode .srepeat) s ∨
       ∃ c, repeatTape (wave s.params s.speriod s.a0) s.a1.toNat (tapeOf s) = .ok c ∧
         (tapeOf s).Extends c ∧ t = commit s c)) := by
  rcases needSynth_next h with ⟨hc, h⟩ | ⟨_, rfl⟩
  · refine .inr ⟨hc, finish_onTape_next ?_ h⟩
    rw [repeatTape_wave]; exact playAll_cases' _ _ _ _
  · exact .inl rfl

theorem execExmit_next (h : execExmit s = .next t) :
    t = raise .sequence (encode .exmit) s ∨
    (s.synth = true ∧
      (t = raise .bufferOverrun (encode .exmit) s ∨
       ∃ c, transmitFrame s.params s.speriod s.a0.toNat true (tapeOf s) = .ok c ∧
         (tapeOf s).Extends c ∧ t = commit s c)) := by
  rcases needSynth_next h with ⟨hc, h⟩ | ⟨_, rfl⟩
  · refine .inr ⟨hc, finish_onTape_next ?_ h⟩
    rcases transmitFrame_cases s.params s.speriod s.a0.toNat true (tapeOf s) with ⟨c, h1, h2, _⟩ | he
    · exact .inl ⟨c, h1, h2⟩
    · exact .inr he
  · exact .inl rfl

theorem execEchk_next (h : execEchk s = .next t) :
    t = raise .sequence (encode .echk) s ∨
    (s.synth = true ∧
      (t = raise .bufferOverrun (encode .echk) s ∨
       ∃ c, transmitChecksum s.params s.speriod (tapeOf s) = .ok c ∧ c.chk = s.chk ∧
         (tapeOf s).Extends c ∧ t = commit s c)) := by
  rcases needSynth_next h with ⟨hc, h⟩ | ⟨_, rfl⟩
  · refine .inr ⟨hc, ?_⟩
    rcases transmitFrame_cases s.params s.speriod (tapeOf s).chk.toNat false (tapeOf s) with ⟨c, h1, h2, h3⟩ | he
    · rcases finish_onTape_next (.inl ⟨c, h1, h2⟩) h with h | ⟨d, hd, he, rfl⟩
      · exact .inl h
      · refine .inr ⟨d, hd, ?_, he, rfl⟩
        have : d = c := by
          have := h1.symm.trans hd; cases this; rfl
        subst this; exact h3
    · rcases finish_onTape_next (.inr he) h with h | ⟨d, hd, _⟩
      · exact .inl h
      · exact absurd (hd.symm.trans he) (by simp)
  · exact .inl rfl

theorem execKreset_next (h : execKreset s = .next t) : t = { s with chk := 0 } := by cases h; rfl

theorem execKfold_next (h : execKfold s = .next t) :
    t = { s with chk := s.chk ^^^ s.a0.setWidth 8 } := by
  cases h; rfl

/-- ENCODE: fault entry, or the padded state after the stream. -/
theorem execEncode_next (h : execEncode s = .next t) :
    t = raise .argument (encode .encode) s ∨ t = raise .capacity (encode .encode) s ∨
      t = raise .bufferOverrun (encode .encode) s ∨
      ∃ (us : List TextUnit) (c : Tape), s.a0.toNat ≤ s.params.textMax ∧
        s.text.readRange 0 s.a0.toNat = some us ∧
        synthSizeOk s.params s.params.sampleRate (totalDuration s.params (normalizeText s.params us).length) = true ∧
        let sz := (synthSamples s.params s.params.sampleRate
          (totalDuration s.params (normalizeText s.params us).length)).toNat
        let s1 := synthState s.params.sampleRate sz { s with chk := 0 }
        sz + s.params.headerBytes ≤ s.params.bufMax ∧
        encodeTape s.params s1.speriod (normalizeText s.params us) (tapeOf s1) = .ok c ∧ (tapeOf s1).Extends c ∧
        t = (padState (commit s1 c)).setFinal := by
  unfold execEncode at h
  simp only [u64] at h
  by_cases hle : s.params.textMax < s.a0.toNat
  · simp only [hle, if_true] at h
    cases h; exact .inl rfl
  · simp only [hle, if_false] at h
    split at h
    · cases h
    · rename_i us hus
      rw [encodeText, synthCreate_eq] at h
      simp only at h
      split at h
      · rename_i c hc
        split at hc
        · cases hc; cases h; exact .inl rfl
        · split at hc
          · cases hc; cases h; exact .inr (.inl rfl)
          · cases hc
      · rename_i s1 hs1
        split at hs1
        · cases hs1
        · rename_i hsize
          split at hs1
          · cases hs1
          · rename_i hcap
            cases hs1
            right; right
            rcases encodeTape_cases s.params (synthState s.params.sampleRate
                (synthSamples s.params s.params.sampleRate
                  (totalDuration s.params (normalizeText s.params us).length)).toNat
                { s with chk := 0 }).speriod (normalizeText s.params us) (tapeOf (synthState s.params.sampleRate
                (synthSamples s.params s.params.sampleRate
                  (totalDuration s.params (normalizeText s.params us).length)).toNat
                { s with chk := 0 })) with ⟨c, hc, he⟩ | herr
            · right
              have h2 := onTape_ok_iff.2 ⟨c, hc, rfl⟩
              refine ⟨us, c, by omega, hus, by simpa using hsize, by omega, hc, he, ?_⟩
              split at h
              · rename_i e he2
                exact absurd (h2.symm.trans he2) (by simp)
              · rename_i s2 hs2
                have h3 := hs2.symm.trans h2
                simp only [Except.ok.injEq] at h3
                subst h3
                exact finish_finalize_next' h
            · left
              have h2 := onTape_error_iff.2 herr
              split at h
              · rename_i e he2
                have := he2.symm.trans h2
                cases this; cases h; rfl
              · rename_i s2 hs2
                exact absurd (hs2.symm.trans h2) (by simp)

end Sys2Proof.Machine
end

