-- ==== Sys2Proof/Laws/PerInstr.lean ====
section
/-! SUPPORT. Statements for all instructions, one lemma a constructor. -/

namespace Sys2Proof.Laws.Legal

/-- The instruction is well formed and its word is a legal command word that no other instruction has
(30_encoding.md R55 to R57). -/
def Statement (i : Instr) : Prop :=
  i.wellFormed = true ∧ commandWordOk (encode i) = true ∧ ∀ j : Instr, encode j = encode i → j = i

theorem ccreate : Statement .ccreate := ⟨rfl, by decide, by intro j; cases j <;> decide⟩
theorem cappend : Statement .cappend := ⟨rfl, by decide, by intro j; cases j <;> decide⟩
theorem cfinal : Statement .cfinal := ⟨rfl, by decide, by intro j; cases j <;> decide⟩
theorem screate : Statement .screate := ⟨rfl, by decide, by intro j; cases j <;> decide⟩
theorem swave : Statement .swave := ⟨rfl, by decide, by intro j; cases j <;> decide⟩
theorem srepeat : Statement .srepeat := ⟨rfl, by decide, by intro j; cases j <;> decide⟩
theorem sfinal : Statement .sfinal := ⟨rfl, by decide, by intro j; cases j <;> decide⟩
theorem kreset : Statement .kreset := ⟨rfl, by decide, by intro j; cases j <;> decide⟩
theorem kfold : Statement .kfold := ⟨rfl, by decide, by intro j; cases j <;> decide⟩
theorem exmit : Statement .exmit := ⟨rfl, by decide, by intro j; cases j <;> decide⟩
theorem echk : Statement .echk := ⟨rfl, by decide, by intro j; cases j <;> decide⟩
theorem encode : Statement .encode := ⟨rfl, by decide, by intro j; cases j <;> decide⟩

end Sys2Proof.Laws.Legal
end

