-- ==== Sys2Proof/Laws/Port.lean ====
section
/-! SUPPORT. What the host's port does: a step serves the next action, and issuing a command word has three cases. -/

namespace Sys2Proof.Machine

variable {s : State}

theorem step_serve {a : HostAction} {rest : List HostAction} (h : s.inputs = a :: rest) :
    step s = serve a { s with inputs := rest } := by
  simp [step, serveNext, h]

theorem issue_ignored {w : Word} (h : s.faulted = true) : issue w s = .next s := by simp [issue, h]

theorem issue_command {w : Word} {i : Instr} (h : s.faulted = false) (hd : decode w = .ok i) :
    issue w s = exec i s := by simp [issue, h, hd]

theorem issue_illegal {w : Word} {e : DecodeError} (h : s.faulted = false) (hd : decode w = .error e) :
    issue w s = .next (raise .illegalCommand w s) := by simp [issue, h, hd]

theorem serve_writeReg_cmd (v : Word64) (s : State) : serve (.writeReg 0x00 v) s = issue (cmdWord v) s := by
  simp [serve, serveWriteReg]

theorem serve_writeReg {n : BitVec 8} (v : Word64) (s : State) (h : n ≠ 0x00) :
    serve (.writeReg n v) s = .next (writeRegister n v s) := by
  exact if_neg h

/-- A host write to a register other than CMD writes A0, A1 or nothing. -/
theorem writeRegister_cases (n : BitVec 8) (v : Word64) (s : State) :
    (n = 0x01 ∧ writeRegister n v s = { s with a0 := v, a0Written := true }) ∨
    (n = 0x02 ∧ writeRegister n v s = { s with a1 := v, a1Written := true }) ∨
    (n ≠ 0x01 ∧ n ≠ 0x02 ∧ writeRegister n v s = s) := by
  by_cases h1 : n = 0x01
  · exact .inl ⟨h1, by simp [writeRegister, h1]⟩
  · by_cases h2 : n = 0x02
    · exact .inr (.inl ⟨h2, by subst h2; rfl⟩)
    · exact .inr (.inr ⟨h1, h2, (if_neg h1).trans (if_neg h2)⟩)

/-- A host read of OUT gives a byte only while a buffer exists, no fault has been taken and the address is below
BUFLEN (20_memory.md R47). -/
theorem readOutByte_eq_some {a : Nat} {b : Byte} :
    readOutByte a s = some b ↔
      s.created = true ∧ s.faulted = false ∧ a < s.buflen.toNat ∧ s.out.read a = some b := by
  unfold readOutByte
  by_cases h : s.created = true ∧ s.faulted = false ∧ a < s.buflen.toNat
  · simp [h]
  · constructor
    · intro hb
      split at hb
      · rename_i hc
        simp only [Bool.and_eq_true, Bool.not_eq_true', decide_eq_true_eq] at hc
        exact ⟨hc.1.1, hc.1.2, hc.2, hb⟩
      · cases hb
    · rintro ⟨h1, h2, h3, -⟩
      exact absurd ⟨h1, h2, h3⟩ h

end Sys2Proof.Machine
end

