-- ==== Sys2Proof/Laws/Value.lean ====
section
/-! SUPPORT. What a binary64 pattern holds (Safety) in terms of the machine's own fields (Machine/Binary64). -/

namespace Sys2Proof.Machine

theorem holdsNumber_eq (x : F64) : holdsNumber x = F64.isFinite x := by
  simp only [holdsNumber, F64.isFinite, F64.expField_extract]
  have : (x.extractLsb' 52 11 = 0x7FF#11) ↔ (BitVec.toNat (BitVec.extractLsb' 52 11 x) = 2047) :=
    ⟨fun h => by rw [h]; rfl, fun h => BitVec.eq_of_toNat_eq (by rw [h]; rfl)⟩
  rw [Bool.eq_iff_iff]; simpa using not_congr this

/-- The 63 bits below the sign are the exponent field and the significand field. -/
theorem low63_eq (x : F64) :
    BitVec.toNat (x.extractLsb' 0 63) = F64.expField x * 4503599627370496 + F64.frac x := by
  have := x.isLt
  rw [BitVec.extractLsb'_toNat, F64.expField_eq, F64.frac]; simp; omega

theorem holdsInfinity_eq (x : F64) : holdsInfinity x = F64.isInf x := by
  have hf := F64.frac_lt x
  have he := F64.expField_lt x
  have : (x.extractLsb' 0 63 = 0x7FF0000000000000#63) ↔ (BitVec.toNat (BitVec.extractLsb' 0 63 x) = 0x7FF0000000000000) :=
    ⟨fun h => by rw [h]; rfl, fun h => BitVec.eq_of_toNat_eq (by rw [h]; rfl)⟩
  rw [holdsInfinity, F64.isInf, Bool.eq_iff_iff]
  rw [beq_iff_eq, Bool.and_eq_true, beq_iff_eq, beq_iff_eq, show (9218868437227405312 : BitVec 63) = 0x7FF0000000000000#63 from rfl, this, low63_eq]; omega

theorem holdsNaN_eq (x : F64) : holdsNaN x = F64.isNaN x := by
  rw [holdsNaN, holdsNumber_eq, holdsInfinity_eq, F64.isFinite, F64.isInf, F64.isNaN]
  by_cases h : F64.expField x = 2047
  · simp [h, bne]
  · simp [bne, beq_eq_false_iff_ne.2 h]

theorem holdsZero_eq (x : F64) : holdsZero x = F64.isZero x := by
  have hf := F64.frac_lt x
  have : (x.extractLsb' 0 63 = 0#63) ↔ (BitVec.toNat (BitVec.extractLsb' 0 63 x) = 0) :=
    ⟨fun h => by rw [h]; rfl, fun h => BitVec.eq_of_toNat_eq (by rw [h]; rfl)⟩
  rw [holdsZero, F64.isZero, F64.isFinite, Bool.eq_iff_iff]
  rw [beq_iff_eq, Bool.and_eq_true, beq_iff_eq, bne_iff_ne, show (0 : BitVec 63) = 0#63 from rfl, this, low63_eq, F64.sig]
  split <;> omega

/-- The number a pattern holds is its signed significand times its unit. -/
theorem valueOf_eq (x : F64) : valueOf x = F64.signedSig x * (2 : ℚ) ^ F64.ulp x := by
  have h2 : (2 : ℚ) ≠ 0 := by norm_num
  unfold valueOf F64.signedSig F64.sig F64.ulp signed F64.sign
  rw [← F64.expField_extract, ← F64.frac_extract]
  simp only []
  generalize F64.frac x = f
  generalize F64.expField x = E
  by_cases hE : E = 0
  · subst hE
    have : (2 : ℚ) ^ (((max 0 1 : Nat) : Int) - 1075) = (2 ^ 52)⁻¹ * 2 ^ (-1022 : ℤ) := by
      rw [← zpow_natCast, ← zpow_neg, ← zpow_add₀ h2]
      exact congrArg (fun k : ℤ => (2 : ℚ) ^ k) (by decide)
    rw [this]
    generalize (2 : ℚ) ^ (-1022 : ℤ) = u
    cases x.msb <;> simp <;> ring
  · have hm : max E 1 = E := by omega
    have : (2 : ℚ) ^ (((max E 1 : Nat) : Int) - 1075) = (2 ^ 52)⁻¹ * 2 ^ ((E : ℤ) - 1023) := by
      rw [hm, ← zpow_natCast, ← zpow_neg, ← zpow_add₀ h2]; congr 1; norm_num; ring
    rw [this]
    cases x.msb <;> simp [hE] <;> field_simp <;> ring

end Sys2Proof.Machine
end

