-- ==== Sys2Proof/Tests/Slice0.lean ====
section
/-! SUPPORT. The model's own tests: smoke tests of WellFormed, decoding of words written out from 30_encoding.md R56, one
step of each command against 95_test_vectors.md, and for every statement with hypotheses a witness that meets them. -/

namespace Sys2Proof.Tests

open Sys2Proof Sys2Proof.Machine

/-! ### WellFormed refuses each ill-formed term -/

/-- V-F-6: bit 31 set. -/
theorem test_reservedZero_refuses : reservedZero 0x80000010 = false ∧ commandWordOk 0x80000010 = false := by decide

/-- V-F-5: 0x13 is no opcode. -/
theorem test_opcodeKnown_refuses : opcodeKnown 0x00000013 = false ∧ commandWordOk 0x00000013 = false := by decide

theorem test_sampleRateOk_refuses :
    sampleRateOk { Config.atReset with sampleRate := 0 } = false ∧
    sampleRateOk { Config.atReset with sampleRate := 4294967296 } = false ∧
    paramsOk { Config.atReset with sampleRate := 0 } = false := by decide

theorem test_headerOk_refuses :
    headerOk { Config.atReset with headerBytes := 45 } = false ∧
    paramsOk { Config.atReset with headerBytes := 45 } = false := by decide

/-! ### Decoding: the words of R56, RES and OPC written out bit by bit -/

theorem test_decode_ccreate : decode 0b00000000000000000000000000010000 = .ok .ccreate := by decide
theorem test_decode_cappend : decode 0b00000000000000000000000000010001 = .ok .cappend := by decide
theorem test_decode_cfinal : decode 0b00000000000000000000000000010010 = .ok .cfinal := by decide
theorem test_decode_screate : decode 0b00000000000000000000000000100000 = .ok .screate := by decide
theorem test_decode_swave : decode 0b00000000000000000000000000100001 = .ok .swave := by decide
theorem test_decode_srepeat : decode 0b00000000000000000000000000100010 = .ok .srepeat := by decide
theorem test_decode_sfinal : decode 0b00000000000000000000000000100011 = .ok .sfinal := by decide
theorem test_decode_kreset : decode 0b00000000000000000000000000110000 = .ok .kreset := by decide
theorem test_decode_kfold : decode 0b00000000000000000000000000110001 = .ok .kfold := by decide
theorem test_decode_exmit : decode 0b00000000000000000000000001000000 = .ok .exmit := by decide
theorem test_decode_echk : decode 0b00000000000000000000000001000001 = .ok .echk := by decide
theorem test_decode_encode : decode 0b00000000000000000000000001000010 = .ok .encode := by decide

/-- V-F-3 and V-F-4. -/
theorem test_decode_illegal :
    decode 0x00000100 = .error .reservedBitsSet ∧ decode 0x00000000 = .error .unknownOpcode := by decide

theorem test_decodeTableWord : decodeTableWord 32 0x42 = some .encode ∧ decodeTableWord 32 0x80000042 = none := by
  decide

/-! ### States to step from -/

/-- The state after reset with both arguments written. -/
def given (a0 a1 : Word64) : State := { State.reset with a0 := a0, a0Written := true, a1 := a1, a1Written := true }

/-- `given`, after `CCREATE 8000, ns`. -/
def container (ns : Nat) (a0 : Word64) : State := createdState 8000 ns (given a0 0)

/-- `given`, after an SCREATE of a buffer of `ns` samples. -/
def synthesizer (sr ns : Nat) (a0 a1 : Word64) : State := synthState sr ns (given a0 a1)

/-- Parameters of a small encode: 2400 samples a second, so that a short pulse is 1 sample and a long one 2, one leader
and one trailer pulse. -/
def small : Config.Params :=
  { textMax := 4, bufMax := 1000, sampleRate := 2400, leaderCount := 1, trailerCount := 1
    leaderDuration := 0x3F3B4E81B4E81B4F, trailerDuration := 0x3F3B4E81B4E81B4F }

/-- A state about to encode the text "A" with the small parameters. -/
def encoding : State := { given 1 0 with params := small, text := [(0, 0x0041)] }

/-- A state about to encode the empty text. -/
def encodingNothing (p : Config.Params) : State := { given 0 0 with params := p }

/-- A state in which a fault has been taken. -/
def faulty (inputs : List HostAction) : State := { raise .sequence 0x11 State.reset with inputs := inputs }

/-- The command answers a next state with the given property. -/
def ends (r : Result) (k : State → Bool) : Bool :=
  match r with
  | .next t => k t
  | .fault _ => false
  | .refused _ => false

theorem ends_next {r : Result} {k : State → Bool} (h : ends r k = true) : ∃ t, r = .next t ∧ k t = true := by
  cases r with
  | next t => exact ⟨t, rfl, h⟩
  | fault f => cases h
  | refused f => cases h

/-! ### One step of each command (95_test_vectors.md) -/

/-- V-C-1 with the header of V-L1-2. -/
theorem test_ccreate : ends (exec .ccreate (given 8000 4)) (fun t =>
    t.status == 0x01 && t.srate == 8000 && t.nsamp == 4 && t.buflen == 48 && t.cursor == 44 && t.out.map Prod.snd ==
      [0x52, 0x49, 0x46, 0x46, 0x20, 0x00, 0x00, 0x00, 0x57, 0x41, 0x56, 0x45, 0x66, 0x6D, 0x74, 0x20, 0x10, 0x00, 0x00,
       0x00, 0x01, 0x00, 0x01, 0x00, 0x40, 0x1F, 0x00, 0x00, 0x40, 0x1F, 0x00, 0x00, 0x01, 0x00, 0x08, 0x00, 0x64, 0x61,
       0x74, 0x61, 0x04, 0x00, 0x00, 0x00]) = true := by decide +kernel

/-- V-C-12. -/
theorem test_ccreate_argument :
    exec .ccreate (given 8000 0xFFFFFFE4) = .next (raise .argument 0x10 (given 8000 0xFFFFFFE4)) := by rfl

/-- V-C-2. -/
theorem test_cappend : ends (exec .cappend (container 4 255)) (fun t =>
    t.out.read 44 == some 0xFF && t.out.read 45 == none && t.cursor == 45) = true := by decide +kernel

/-- V-C-7: the range test comes before the full-buffer test. -/
theorem test_cappend_range :
    exec .cappend (container 0 0x100) = .next (raise .sampleRange 0x11 (container 0 0x100)) := by rfl

/-- V-C-1; CFINAL (R76). -/
theorem test_cfinal : ends (exec .cfinal (container 4 0)) (fun t =>
    t.out.readRange 44 4 == some [0x7F, 0x7F, 0x7F, 0x7F] && t.cursor == 48 && t.status == 0x05) = true := by
  decide +kernel

/-- V-C-16. -/
theorem test_cfinal_sequence : exec .cfinal State.reset = .next (raise .sequence 0x12 State.reset) := by rfl

/-- V-S-3. -/
theorem test_screate : ends (exec .screate (given 44100 0x3F50624DD2F1A9FC)) (fun t =>
    t.nsamp == 50 && t.buflen == 94 && t.status == 0x03 && t.excess == 0 && t.speriod == 0x3EF7C6F8C751F177) = true := by
  decide +kernel

/-- V-S-8: a negative duration that leaves one sample. -/
theorem test_screate_negative : ends (exec .screate (given 44100 0xBF1A36E2EB1C432D)) (fun t =>
    t.nsamp == 1 && t.buflen == 45) = true := by decide +kernel

/-- V-S-20. -/
theorem test_swave : ends (exec .swave (synthesizer 44100 50 0x3F3B4E81B4E81B4F 0)) (fun t =>
    t.out.readRange 44 19 == some (List.replicate 10 255 ++ List.replicate 9 0) && t.cursor == 63 &&
    t.excess == 0x3EEDB8B6F9266D60) = true := by decide +kernel

/-- V-S-31, the first command: no sample, and NaN in EXCESS. -/
theorem test_swave_nan : ends (exec .swave (synthesizer 44100 50 0x7FF8000000000000 0)) (fun t =>
    t.cursor == 44 && t.excess == 0x7FF8000000000000) = true := by decide +kernel

/-- V-S-35. -/
theorem test_srepeat : ends (exec .srepeat (synthesizer 44100 200 0x3F4B4E81B4E81B4F 4)) (fun t =>
    t.cursor == 191 && t.excess == 0x3C30000000000000) = true := by decide +kernel

/-- V-S-34. -/
theorem test_srepeat_zero : ends (exec .srepeat (synthesizer 44100 50 0x3F3B4E81B4E81B4F 0)) (fun t =>
    t == synthesizer 44100 50 0x3F3B4E81B4E81B4F 0) = true := by decide +kernel

/-- V-S-1; SFINAL (R76). -/
theorem test_sfinal : ends (exec .sfinal (synthesizer 44100 5 0 0)) (fun t =>
    t.out.readRange 44 5 == some [0x7F, 0x7F, 0x7F, 0x7F, 0x7F] && t.cursor == 49 && t.status == 0x07) = true := by
  decide +kernel

/-- V-S-45. -/
theorem test_sfinal_sequence : exec .sfinal (container 4 0) = .next (raise .sequence 0x23 (container 4 0)) := by rfl

/-- V-K-7. -/
theorem test_kreset : ends (exec .kreset { State.reset with chk := 0xC0 }) (fun t => t.chk == 0) = true := by decide

/-- V-K-4: only bits 7:0 of the operand are folded. -/
theorem test_kfold : ends (exec .kfold (given 0xFFFFFFFFFFFFFF55 0)) (fun t => t.chk == 0x55) = true := by decide

/-- The third command of V-K-1. -/
theorem test_kfold_xor : ends (exec .kfold { given 0x83 0 with chk := 0x82 ^^^ 0xC1 }) (fun t => t.chk == 0xC0) = true := by
  decide

/-- The frame of 0x82 (V-L1-10), at 2400 samples a second by hand from R82: a long pulse is 255, 0, a short one 255. -/
theorem test_exmit : ends (exec .exmit (synthesizer 2400 30 0x82 0)) (fun t =>
    t.out.readRange 44 22 == some [255, 0, 255, 0, 255, 255, 255, 0, 255, 0, 255, 0, 255, 0, 255, 0, 255, 255, 255, 255,
      255, 255] && t.cursor == 66 && t.chk == 0x82) = true := by decide +kernel

/-- V-E-9. -/
theorem test_exmit_sequence : exec .exmit (given 0x82 0) = .next (raise .sequence 0x40 (given 0x82 0)) := by rfl

/-- The frame of 0x00 (V-L1-10), by hand as in test_exmit; CHK is not folded (V-E-6). -/
theorem test_echk : ends (exec .echk (synthesizer 2400 30 0 0)) (fun t =>
    t.out.readRange 44 22 == some [255, 0, 255, 0, 255, 0, 255, 0, 255, 0, 255, 0, 255, 0, 255, 0, 255, 0, 255, 255, 255,
      255] && t.chk == 0) = true := by decide +kernel

/-- V-E-10. -/
theorem test_echk_sequence : exec .echk State.reset = .next (raise .sequence 0x41 State.reset) := by rfl

/-- "A" leaves CHK = 0x4D (V-L1-4); the leader's only sample, then the start bit, at 2400 samples a second. -/
theorem test_encode : ends (exec .encode encoding) (fun t =>
    t.chk == 0x4D && t.status == 0x07 && t.cursor == t.buflen && t.out.readRange 44 3 == some [255, 255, 0]) = true := by
  decide +kernel

/-- An ENCODE with L > TEXT_MAX (L2.4). -/
theorem test_encode_argument :
    exec .encode { given 5 0 with params := small } =
      .next (raise .argument 0x42 { given 5 0 with params := small }) := by rfl

/-! ### Witnesses: for each statement, a state and operands that meet its hypotheses, clause by clause -/

/-- V-F-7: bits 63:32 of the write are ignored. -/
theorem witness_StepRunsDecodedCommand : ∃ (s : State) (v : Word64) (rest : List HostAction) (i : Instr),
    s.inputs = .writeReg 0x00 v :: rest ∧ s.faulted = false ∧ decode (v.setWidth 32) = .ok i :=
  ⟨{ State.reset with inputs := [.writeReg 0x00 0xFFFFFFFF00000030] }, _, [], .kreset, rfl, by decide, by decide⟩

theorem witness_FetchWordRunsCommand : State.reset.faulted = false := by decide

theorem witness_IllegalWordFaults : ∃ (s : State) (v : Word64) (rest : List HostAction),
    s.inputs = .writeReg 0x00 v :: rest ∧ s.faulted = false ∧ commandWordOk (v.setWidth 32) = false :=
  ⟨{ State.reset with inputs := [.writeReg 0x00 0x13] }, _, [], rfl, by decide, by decide⟩

theorem faulty_faulted (inputs : List HostAction) : (faulty inputs).faulted = true :=
  raise_faulted .sequence 0x11 State.reset

theorem witness_FaultedInstanceIgnoresCommands :
    (∃ (s : State) (v : Word64), s.faulted = true ∧ s.inputs = HostAction.writeReg 0x00 v :: []) ∧
    (∃ (s : State) (v : Word64), s.faulted = true ∧ s.inputs = HostAction.writeReg 0x01 v :: []) ∧
    (∃ (s : State) (v : Word64), s.faulted = true ∧ s.inputs = HostAction.writeReg 0x02 v :: []) ∧
    (∃ (s : State) (i : Nat) (u : TextUnit), s.faulted = true ∧ s.inputs = HostAction.writeText i u :: [] ∧ i < s.params.textMax) ∧
    (∃ (s : State) (n : BitVec 8), s.faulted = true ∧ s.inputs = HostAction.readReg n :: []) ∧
    (∃ (s : State) (a : Nat), s.faulted = true ∧ s.inputs = HostAction.readOut a :: []) :=
  ⟨⟨faulty [.writeReg 0x00 0x30], 0x30, faulty_faulted _, rfl⟩, ⟨faulty [.writeReg 0x01 5], 5, faulty_faulted _, rfl⟩,
    ⟨faulty [.writeReg 0x02 5], 5, faulty_faulted _, rfl⟩,
    ⟨faulty [.writeText 4294967295 5], 4294967295, 5, faulty_faulted _, rfl, by decide⟩,
    ⟨faulty [.readReg 0x04], 0x04, faulty_faulted _, rfl⟩, ⟨faulty [.readOut 0], 0, faulty_faulted _, rfl⟩⟩

/-- Every register can be read, after reset too; 0x0C and 0xFF are the ends of the reserved range. -/
theorem witness_HostRegisterAccess :
    (∀ n : BitVec 8, ∃ s : State, s.inputs = HostAction.readReg n :: [] ∧ s.a0Written = false ∧ s.a1Written = false) ∧
    (∃ (s : State) (n : BitVec 8) (v : Word64), s.inputs = HostAction.writeReg n v :: [] ∧ n ≠ 0x00) ∧
    0x0C ≤ (0x0C : BitVec 8).toNat ∧ 0x0C ≤ (0xFF : BitVec 8).toNat :=
  ⟨fun n => ⟨{ State.reset with inputs := [.readReg n] }, rfl, rfl, rfl⟩,
    ⟨{ State.reset with inputs := [.writeReg 0x01 7] }, 0x01, 7, rfl, by decide⟩, by decide, by decide⟩

/-- The last byte that holds a value, and for the refused reads: no buffer, a fault, the address BUFLEN, and the first byte
that holds no value. -/
theorem witness_HostReadsOut :
    (∃ (s : State) (a : Nat) (b : Byte), s.inputs = HostAction.readOut a :: [] ∧ s.created = true ∧ s.faulted = false ∧ a < s.buflen.toNat ∧
      s.out.read a = some b) ∧
    (∃ (s : State) (a : Nat), s.inputs = HostAction.readOut a :: [] ∧ s.created = false) ∧
    (∃ (s : State) (a : Nat), s.inputs = HostAction.readOut a :: [] ∧ s.faulted = true) ∧
    (∃ (s : State) (a : Nat), s.inputs = HostAction.readOut a :: [] ∧ s.buflen.toNat = a) ∧
    (∃ (s : State) (a : Nat), s.inputs = HostAction.readOut a :: [] ∧ s.out.read a = none) :=
  ⟨⟨{ container 4 0 with inputs := [.readOut 43] }, 43, 0, rfl, by decide +kernel, by decide +kernel, by decide +kernel,
      by decide +kernel⟩,
    ⟨{ State.reset with inputs := [.readOut 0] }, 0, rfl, by decide⟩, ⟨faulty [.readOut 0], 0, rfl, faulty_faulted _⟩,
    ⟨{ container 4 0 with inputs := [.readOut 48] }, 48, rfl, by decide⟩,
    ⟨{ container 4 0 with inputs := [.readOut 44] }, 44, rfl, by decide +kernel⟩⟩

/-- The last unit of TEXT and the first index beyond it. -/
theorem witness_HostWritesText :
    (∃ (s : State) (i : Nat) (u : TextUnit), s.inputs = HostAction.writeText i u :: [] ∧ i < s.params.textMax) ∧
    (∃ (s : State) (i : Nat) (u : TextUnit), s.inputs = HostAction.writeText i u :: [] ∧ s.params.textMax ≤ i) :=
  ⟨⟨{ State.reset with inputs := [.writeText 4294967295 1] }, _, _, rfl, by decide⟩,
    ⟨{ State.reset with inputs := [.writeText 4294967296 1] }, _, _, rfl, by decide⟩⟩

theorem witness_IdleKeepsState : State.reset.inputs = [] := rfl

theorem witness_ResetFromAnyState : ∃ (s : State) (rest : List HostAction), s.inputs = .reset :: rest :=
  ⟨faulty [.reset], [], rfl⟩

theorem witness_StatusPreconditions :
    (∃ s : State, s.created = false) ∧ (∃ s : State, s.created = true ∧ s.synth = false) ∧
    (∃ (i : Instr) (s t : State), (i = .ccreate ∨ i = .screate ∨ i = .kreset ∨ i = .kfold ∨ i = .encode) ∧
      s.faulted = false ∧ exec i s = .next t) :=
  ⟨⟨State.reset, by decide⟩, ⟨container 4 0, by decide +kernel, by decide +kernel⟩,
    ⟨.kreset, State.reset, _, by decide, by decide, rfl⟩⟩

/-- Each of the five codes a legal command can raise. -/
theorem witness_FaultSources :
    (∃ s t : State, s.faulted = false ∧ exec .cappend s = .next t ∧ t.faulted = true ∧ t.fcode = 1) ∧
    (∃ s t : State, s.faulted = false ∧ exec .cappend s = .next t ∧ t.faulted = true ∧ t.fcode = 2) ∧
    (∃ s t : State, s.faulted = false ∧ exec .cfinal s = .next t ∧ t.faulted = true ∧ t.fcode = 4) ∧
    (∃ s t : State, s.faulted = false ∧ exec .ccreate s = .next t ∧ t.faulted = true ∧ t.fcode = 5) ∧
    (∃ s t : State, s.faulted = false ∧ exec .ccreate s = .next t ∧ t.faulted = true ∧ t.fcode = 6) :=
  ⟨⟨container 0 256, _, by decide +kernel, rfl, raise_faulted _ _ _, raise_fcode _ _ _⟩,
    ⟨container 0 255, _, by decide +kernel, rfl, raise_faulted _ _ _, raise_fcode _ _ _⟩,
    ⟨State.reset, _, by decide +kernel, rfl, raise_faulted _ _ _, raise_fcode _ _ _⟩,
    ⟨given 0 4, _, by decide +kernel, rfl, raise_faulted _ _ _, raise_fcode _ _ _⟩,
    ⟨{ given 8000 100 with params := { Config.atReset with bufMax := 100 } }, _, by decide +kernel, rfl,
      raise_faulted _ _ _, raise_fcode _ _ _⟩⟩

theorem witness_OnlyResetClearsFault : ∃ s t : State,
    s.faulted = true ∧ (∀ rest, s.inputs ≠ .reset :: rest) ∧ step s = .next t :=
  ⟨faulty [], faulty [], faulty_faulted _, (by intro rest h; cases h), rfl⟩

/-- CCREATE, ARGUMENT with the zeros of reset, and with a rate stored but not marked written. -/
theorem witness_UnwrittenArgumentsReadAsStored :
    (∃ t, exec .ccreate State.reset = .next t ∧ t.faulted = true) ∧
    (∃ t, exec .ccreate { State.reset with a0 := 8000 } = .next t ∧ t.created = true) :=
  ⟨⟨raise .argument 0x10 State.reset, rfl, raise_faulted _ _ _⟩, ends_next (by decide +kernel)⟩

/-- The bounds of the sample rate, the first numSamples too large, a buffer one byte too large, the largest buffer. -/
theorem witness_CcreateRule :
    (∃ s : State, headerOk s.params = true ∧ s.a0Written = true ∧ s.a1Written = true ∧ s.a0.toNat = 0) ∧
    (∃ s : State, headerOk s.params = true ∧ s.a0Written = true ∧ s.a1Written = true ∧ s.a0.toNat = 0x100000000) ∧
    (∃ s : State, headerOk s.params = true ∧ s.a0Written = true ∧ s.a1Written = true ∧ s.a0.toNat = 1 ∧
      s.a1.toNat = 0xFFFFFFE4) ∧
    (∃ s : State, headerOk s.params = true ∧ s.a0Written = true ∧ s.a1Written = true ∧ s.a0.toNat = 0xFFFFFFFF ∧
      s.a1.toNat ≤ 0xFFFFFFE3 ∧ s.params.bufMax + 1 = s.a1.toNat + 44) ∧
    (∃ s : State, headerOk s.params = true ∧ s.a0Written = true ∧ s.a1Written = true ∧ s.a0.toNat = 0xFFFFFFFF ∧
      s.a1.toNat = 0xFFFFFFE3 ∧ s.a1.toNat + 44 = s.params.bufMax) :=
  ⟨⟨given 0 4, by decide, rfl, rfl, by decide⟩, ⟨given 0x100000000 4, by decide, rfl, rfl, by decide⟩,
    ⟨given 1 0xFFFFFFE4, by decide, rfl, rfl, by decide, by decide⟩,
    ⟨{ given 0xFFFFFFFF 4 with params := { Config.atReset with bufMax := 47 } }, by decide, rfl, rfl, by decide,
      by decide, by decide⟩,
    ⟨given 0xFFFFFFFF 0xFFFFFFE3, by decide, rfl, rfl, by decide, by decide, by decide⟩⟩

/-- The least value out of range, a full buffer, the last free byte. -/
theorem witness_CappendRule :
    (∃ s : State, s.cursor.toNat ≤ s.buflen.toNat ∧ s.created = false) ∧
    (∃ s : State, s.cursor.toNat ≤ s.buflen.toNat ∧ s.created = true ∧ s.a0Written = true ∧ s.a0.toNat = 256) ∧
    (∃ s : State, s.cursor.toNat ≤ s.buflen.toNat ∧ s.created = true ∧ s.a0Written = true ∧ s.a0.toNat = 255 ∧
      s.cursor = s.buflen) ∧
    (∃ s : State, s.cursor.toNat ≤ s.buflen.toNat ∧ s.created = true ∧ s.a0Written = true ∧ s.a0.toNat = 255 ∧
      s.cursor ≠ s.buflen ∧ s.cursor + 1 = s.buflen) :=
  ⟨⟨State.reset, by decide, by decide⟩,
    ⟨container 4 256, by decide +kernel, by decide +kernel, rfl, by decide⟩,
    ⟨container 0 255, by decide +kernel, by decide +kernel, rfl, by decide, by decide +kernel⟩,
    ⟨container 1 255, by decide +kernel, by decide +kernel, rfl, by decide, by decide +kernel, by decide +kernel⟩⟩

theorem witness_FinaliseRules :
    (∃ s : State, s.cursor.toNat ≤ s.buflen.toNat ∧ s.created = false) ∧
    (∃ s : State, s.cursor.toNat ≤ s.buflen.toNat ∧ s.created = true ∧ s.synth = false) ∧
    (∃ s : State, s.cursor.toNat ≤ s.buflen.toNat ∧ s.created = true ∧ s.synth = true) :=
  ⟨⟨State.reset, by decide, by decide⟩, ⟨container 0 0, by decide +kernel, by decide +kernel, by decide +kernel⟩,
    ⟨synthesizer 44100 5 0 0, by decide +kernel, by decide +kernel, by decide +kernel⟩⟩

/-- The bounds of the sample rate; V-S-10, the largest negative size; V-S-1 in a memory one byte too small and in one that
just holds it. -/
theorem witness_ScreateRule :
    (∃ s : State, headerOk s.params = true ∧ s.a0Written = true ∧ s.a0.toNat = 0) ∧
    (∃ s : State, headerOk s.params = true ∧ s.a0Written = true ∧ s.a0.toNat = 0x100000000) ∧
    (∃ s : State, headerOk s.params = true ∧ s.a0Written = true ∧ s.a1Written = true ∧ 1 ≤ s.a0.toNat ∧
      s.a0.toNat ≤ 0xFFFFFFFF ∧ synthSizeOk s.params s.a0.toNat s.a1 = false) ∧
    (∃ s : State, headerOk s.params = true ∧ s.a0Written = true ∧ s.a1Written = true ∧ 1 ≤ s.a0.toNat ∧
      s.a0.toNat ≤ 0xFFFFFFFF ∧ synthSizeOk s.params s.a0.toNat s.a1 = true ∧
      s.params.bufMax + 1 = (synthSamples s.params s.a0.toNat s.a1).toNat + 44) ∧
    (∃ s : State, headerOk s.params = true ∧ s.a0Written = true ∧ s.a1Written = true ∧ 1 ≤ s.a0.toNat ∧
      s.a0.toNat ≤ 0xFFFFFFFF ∧ synthSizeOk s.params s.a0.toNat s.a1 = true ∧
      (synthSamples s.params s.a0.toNat s.a1).toNat + 44 = s.params.bufMax) :=
  ⟨⟨given 0 0, by decide, rfl, by decide⟩, ⟨given 0x100000000 0, by decide, rfl, by decide⟩,
    ⟨given 44100 0xBF21D53A957D7519, by decide, rfl, rfl, by decide, by decide, by decide +kernel⟩,
    ⟨{ given 44100 0 with params := { Config.atReset with bufMax := 48 } }, by decide, rfl, rfl, by decide, by decide,
      by decide +kernel, by decide +kernel⟩,
    ⟨{ given 44100 0 with params := { Config.atReset with bufMax := 49 } }, by decide, rfl, rfl, by decide, by decide,
      by decide +kernel, by decide +kernel⟩⟩

/-- A train whose first pulse is longer than the carried phase needs room for at least one sample. -/
theorem train_needs_room {sp d e : F64} {ds : List F64} (h : F64.flt e d = true) (ns : List Nat)
    (hw : trainWrites sp (d :: ds) ns e = true) : 0 < ns.sum := by
  cases ns with
  | nil => cases hw
  | cons n ns =>
    rw [trainWrites, Bool.and_eq_true] at hw
    rcases Nat.eq_zero_or_pos n with rfl | hn
    · have := (pulseWrites_iff.1 hw.1).2
      rw [phase, h] at this; cases this
    · rw [List.sum_cons]; omega

/-- V-S-20 in a buffer that just holds it, a pulse of no sample, and a pulse in a full buffer. -/
theorem witness_SwaveRule :
    (∃ s : State, s.cursor.toNat ≤ s.buflen.toNat ∧ s.synth = false) ∧
    (∃ (s : State) (n : Nat), s.cursor.toNat ≤ s.buflen.toNat ∧ s.synth = true ∧ s.a0Written = true ∧
      pulseWrites s.speriod s.a0 s.excess n = true ∧ s.cursor.toNat + n = s.buflen.toNat ∧ n = 19) ∧
    (∃ (s : State) (n : Nat), s.cursor.toNat ≤ s.buflen.toNat ∧ s.synth = true ∧ s.a0Written = true ∧
      pulseWrites s.speriod s.a0 s.excess n = true ∧ s.cursor.toNat + n = s.buflen.toNat ∧ n = 0) ∧
    (∃ s : State, s.cursor.toNat ≤ s.buflen.toNat ∧ s.synth = true ∧ s.a0Written = true ∧
      ∀ k, s.cursor.toNat + k ≤ s.buflen.toNat → F64.flt (phase s.speriod s.excess k) s.a0 = true) :=
  ⟨⟨container 4 0, by decide +kernel, by decide +kernel⟩,
    ⟨synthesizer 44100 19 0x3F3B4E81B4E81B4F 0, 19, by decide +kernel, by decide +kernel, rfl, by decide +kernel,
      by decide +kernel, rfl⟩,
    ⟨synthesizer 44100 0 0 0, 0, by decide +kernel, by decide +kernel, rfl, by decide +kernel, by decide +kernel, rfl⟩,
    ⟨synthesizer 44100 0 0x3F3B4E81B4E81B4F 0, by decide +kernel, by decide +kernel, rfl, by
      intro k hk
      have hc : (synthesizer 44100 0 0x3F3B4E81B4E81B4F 0).cursor.toNat = 44 ∧
        (synthesizer 44100 0 0x3F3B4E81B4E81B4F 0).buflen.toNat = 44 := by decide +kernel
      obtain rfl : k = 0 := by omega
      decide +kernel⟩⟩

/-- Two short pulses at 2400 samples a second in a buffer that just holds them, a count of 0, and one in a full buffer. -/
theorem witness_SrepeatRule :
    (∃ s : State, s.cursor.toNat ≤ s.buflen.toNat ∧ s.synth = false) ∧
    (∃ (s : State) (ns : List Nat), s.cursor.toNat ≤ s.buflen.toNat ∧ s.synth = true ∧ s.a0Written = true ∧
      s.a1Written = true ∧ trainWrites s.speriod (List.replicate s.a1.toNat s.a0) ns s.excess = true ∧
      s.cursor.toNat + ns.sum = s.buflen.toNat ∧ s.a1.toNat = 2) ∧
    (∃ (s : State) (ns : List Nat), s.cursor.toNat ≤ s.buflen.toNat ∧ s.synth = true ∧ s.a0Written = true ∧
      s.a1Written = true ∧ trainWrites s.speriod (List.replicate s.a1.toNat s.a0) ns s.excess = true ∧
      s.cursor.toNat + ns.sum = s.buflen.toNat ∧ s.a1.toNat = 0) ∧
    (∃ s : State, s.cursor.toNat ≤ s.buflen.toNat ∧ s.synth = true ∧ s.a0Written = true ∧ s.a1Written = true ∧
      ∀ ns : List Nat, trainWrites s.speriod (List.replicate s.a1.toNat s.a0) ns s.excess = true →
        s.buflen.toNat < s.cursor.toNat + ns.sum) :=
  ⟨⟨container 4 0, by decide +kernel, by decide +kernel⟩,
    ⟨synthesizer 2400 2 0x3F3B4E81B4E81B4F 2, [1, 1], by decide +kernel, by decide +kernel, rfl, rfl, by decide +kernel,
      by decide +kernel, by decide⟩,
    ⟨synthesizer 2400 0 0x3F3B4E81B4E81B4F 0, [], by decide +kernel, by decide +kernel, rfl, rfl, by decide +kernel,
      by decide +kernel, by decide⟩,
    ⟨synthesizer 2400 0 0x3F3B4E81B4E81B4F 1, by decide +kernel, by decide +kernel, rfl, rfl, by
      intro ns hw
      have := train_needs_room (ds := []) (by decide +kernel) ns hw
      have hc : (synthesizer 2400 0 0x3F3B4E81B4E81B4F 1).cursor.toNat = 44 ∧
        (synthesizer 2400 0 0x3F3B4E81B4E81B4F 1).buflen.toNat = 44 := by decide +kernel
      omega⟩⟩

/-- The synthesizer just created has the invariant. -/
theorem synthesizer_inv (sr ns : Nat) (a0 a1 : Word64) (h1 : 1 ≤ sr) (h2 : sr ≤ 0xFFFFFFFF) (h3 : ns ≤ 0xFFFFFFE3) :
    (synthesizer sr ns a0 a1).Inv := by
  have hb : Config.atReset.headerBytes = 44 ∧ Config.atReset.bufMax = 4294967311 := by decide
  have hp : (given a0 a1).params = Config.atReset := rfl
  have hf : (given a0 a1).faulted = false ∧ (given a0 a1).fcode = 0 :=
    ⟨(by decide : State.reset.faulted = false), (by decide : State.reset.fcode = 0)⟩
  refine ⟨(by decide : paramsOk Config.atReset = true), headerMemory_wf _ _,
    by simp [synthesizer, given, State.reset, Memory.wf],
    by simp [synthesizer, given, State.reset], fun _ => ?_, by simp [synthesizer, hf]⟩
  refine ⟨by simp [synthesizer, hf], rfl, ⟨by simp [synthesizer], by simp [synthesizer], fun _ => ?_⟩,
    ⟨fun _ a => ?_, by simp [synthesizer]⟩, fun _ => ?_⟩
  · simp [synthesizer, hp, hb]; omega
  · simp only [synthesizer, synthState_out, synthState_cursor, hp, hb, read_headerMemory]
    have := wavHeader_length (p := Config.atReset) sr ns
    by_cases h : a < 44
    · rw [List.getElem?_eq_getElem (by omega)]; simp; omega
    · rw [List.getElem?_eq_none (by omega)]; simp; omega
  · simp only [synthesizer, synthState_speriod, synthState_srate, BitVec.toNat_ofNat]
    rw [Nat.mod_eq_of_lt (by omega)]

theorem witness_SrepeatIsIteratedSwave : ∃ s t : State,
    s.Inv ∧ s.faulted = false ∧ exec .srepeat s = .next t ∧ t.faulted = false := by
  have h : ends (exec .srepeat (synthesizer 2400 2 0x3F3B4E81B4E81B4F 2)) (fun t => !t.faulted) = true := by
    decide +kernel
  obtain ⟨t, ht, hf⟩ := ends_next h
  exact ⟨_, t, synthesizer_inv 2400 2 _ _ (by decide) (by decide) (by decide), by decide +kernel, ht, by simpa using hf⟩

/-- A pulse as long as the carried phase, and NaN in each place. -/
theorem witness_PulseWithoutSamples :
    (∃ s : State, s.out.wf ∧ s.synth = true ∧ s.a0Written = true ∧ F64.flt s.excess s.a0 = false ∧ s.excess = s.a0) ∧
    (∃ s : State, s.out.wf ∧ s.synth = true ∧ s.a0Written = true ∧ F64.isNaN s.excess = true) ∧
    (∃ s : State, s.out.wf ∧ s.synth = true ∧ s.a0Written = true ∧ F64.isNaN s.a0 = true) :=
  ⟨⟨synthesizer 44100 5 0 0, headerMemory_wf _ _, by decide +kernel, rfl, by decide +kernel, by decide +kernel⟩,
    ⟨{ synthesizer 44100 5 0 0 with excess := F64.specNaN }, headerMemory_wf _ _, by decide +kernel, rfl, by decide⟩,
    ⟨synthesizer 44100 5 F64.specNaN 0, headerMemory_wf _ _, by decide +kernel, rfl, by decide⟩⟩

theorem witness_KfoldRule : (given 0x1C1 0).a0Written = true := rfl

theorem witness_ChecksumOfProtocolBytes :
    (∃ bs cs : List Byte, bs ≠ cs ∧ bs.Perm cs) ∧ Config.atReset.Standard :=
  ⟨⟨[0x82, 0xC1], [0xC1, 0x82], by decide, .swap _ _ _⟩, rfl⟩

/-- The frame of 0x82 in a buffer that just holds it, and in a full buffer. -/
theorem witness_ExmitRule :
    (∃ s : State, s.params.frameBits = 11 ∧ s.cursor.toNat ≤ s.buflen.toNat ∧ s.synth = false) ∧
    (∃ (s : State) (ns : List Nat), s.params.frameBits = 11 ∧ s.cursor.toNat ≤ s.buflen.toNat ∧ s.synth = true ∧
      s.a0Written = true ∧ trainWrites s.speriod (framePulses s.params (s.a0.setWidth 8)) ns s.excess = true ∧
      s.cursor.toNat + ns.sum = s.buflen.toNat) ∧
    (∃ s : State, s.params.frameBits = 11 ∧ s.cursor.toNat ≤ s.buflen.toNat ∧ s.synth = true ∧ s.a0Written = true ∧
      ∀ ns : List Nat, trainWrites s.speriod (framePulses s.params (s.a0.setWidth 8)) ns s.excess = true →
        s.buflen.toNat < s.cursor.toNat + ns.sum) :=
  ⟨⟨container 4 0, rfl, by decide +kernel, by decide +kernel⟩,
    ⟨synthesizer 2400 22 0x82 0, [2, 2, 1, 1, 2, 2, 2, 2, 2, 1, 1, 1, 1, 1, 1], rfl, by decide +kernel, by decide +kernel,
      rfl, by decide +kernel, by decide +kernel⟩,
    ⟨synthesizer 2400 0 0x82 0, rfl, by decide +kernel, by decide +kernel, rfl, by
      intro ns hw
      have := train_needs_room (d := Config.atReset.longWave) (by decide +kernel) ns hw
      have hc : (synthesizer 2400 0 0x82 0).cursor.toNat = 44 ∧ (synthesizer 2400 0 0x82 0).buflen.toNat = 44 := by
        decide +kernel
      omega⟩⟩

/-- The frame of CHK = 0 in a buffer that just holds it, and in a full buffer. -/
theorem witness_EchkRule :
    (∃ s : State, s.params.frameBits = 11 ∧ s.cursor.toNat ≤ s.buflen.toNat ∧ s.synth = false) ∧
    (∃ (s : State) (ns : List Nat), s.params.frameBits = 11 ∧ s.cursor.toNat ≤ s.buflen.toNat ∧ s.synth = true ∧
      trainWrites s.speriod (framePulses s.params s.chk) ns s.excess = true ∧
      s.cursor.toNat + ns.sum = s.buflen.toNat) ∧
    (∃ s : State, s.params.frameBits = 11 ∧ s.cursor.toNat ≤ s.buflen.toNat ∧ s.synth = true ∧
      ∀ ns : List Nat, trainWrites s.speriod (framePulses s.params s.chk) ns s.excess = true →
        s.buflen.toNat < s.cursor.toNat + ns.sum) :=
  ⟨⟨container 4 0, rfl, by decide +kernel, by decide +kernel⟩,
    ⟨synthesizer 2400 22 0 0, [2, 2, 2, 2, 2, 2, 2, 2, 2, 1, 1, 1, 1], rfl, by decide +kernel, by decide +kernel,
      by decide +kernel, by decide +kernel⟩,
    ⟨synthesizer 2400 0 0 0, rfl, by decide +kernel, by decide +kernel, by
      intro ns hw
      have := train_needs_room (d := Config.atReset.longWave) (by decide +kernel) ns hw
      have hc : (synthesizer 2400 0 0 0).cursor.toNat = 44 ∧ (synthesizer 2400 0 0 0).buflen.toNat = 44 := by
        decide +kernel
      omega⟩⟩

/-- Parameters whose total duration is 0 and which leave no slack: no sample fits. -/
def tight : Config.Params :=
  { small with leaderDuration := 0, trailerDuration := 0, byteDuration := 0, slackSamples := 0 }

/-- The sample count of each pulse of an encode at 2400 samples a second. -/
def smallCounts (nt : List TextUnit) : List Nat :=
  (encodePulses small nt).map (fun d => if d = small.longWave then 2 else 1)

/-- L one beyond TEXT_MAX; an unwritten unit; the empty text, whose size is refused, is too large by one byte, fits, or
leaves no room. -/
theorem witness_EncodeRule :
    (∃ s : State, paramsOk s.params = true ∧ s.params.frameBits = 11 ∧ s.a0Written = true ∧
      s.a0.toNat = s.params.textMax + 1) ∧
    (∃ s : State, paramsOk s.params = true ∧ s.params.frameBits = 11 ∧ s.a0Written = true ∧
      s.a0.toNat = s.params.textMax ∧ ∃ k, k < s.a0.toNat ∧ s.text.read k = none) ∧
    (∃ (s : State) (us : List TextUnit), paramsOk s.params = true ∧ s.params.frameBits = 11 ∧ s.a0Written = true ∧
      s.a0.toNat ≤ s.params.textMax ∧ us.length = s.a0.toNat ∧ (∀ k, k < us.length → s.text.read k = us[k]?) ∧
      synthSizeOk s.params s.params.sampleRate
        (totalDuration s.params (normalizeText s.params us).length) = false) ∧
    (∃ (s : State) (us : List TextUnit), paramsOk s.params = true ∧ s.params.frameBits = 11 ∧ s.a0Written = true ∧
      s.a0.toNat ≤ s.params.textMax ∧ us.length = s.a0.toNat ∧ (∀ k, k < us.length → s.text.read k = us[k]?) ∧
      synthSizeOk s.params s.params.sampleRate
        (totalDuration s.params (normalizeText s.params us).length) = true ∧
      s.params.bufMax + 1 = (synthSamples s.params s.params.sampleRate
        (totalDuration s.params (normalizeText s.params us).length)).toNat + 44) ∧
    (∃ (s : State) (us : List TextUnit) (ns : List Nat), paramsOk s.params = true ∧ s.params.frameBits = 11 ∧
      s.a0Written = true ∧ s.a0.toNat ≤ s.params.textMax ∧ us.length = s.a0.toNat ∧
      (∀ k, k < us.length → s.text.read k = us[k]?) ∧
      synthSizeOk s.params s.params.sampleRate
        (totalDuration s.params (normalizeText s.params us).length) = true ∧
      (synthSamples s.params s.params.sampleRate
        (totalDuration s.params (normalizeText s.params us).length)).toNat + 44 ≤ s.params.bufMax ∧
      trainWrites (F64.fdiv 0x3FF0000000000000 (F64.ofNat s.params.sampleRate))
        (encodePulses s.params (normalizeText s.params us)) ns 0 = true ∧
      ns.sum ≤ (synthSamples s.params s.params.sampleRate
        (totalDuration s.params (normalizeText s.params us).length)).toNat ∧ us = [0x0041]) ∧
    (∃ (s : State) (us : List TextUnit), paramsOk s.params = true ∧ s.params.frameBits = 11 ∧ s.a0Written = true ∧
      s.a0.toNat ≤ s.params.textMax ∧ us.length = s.a0.toNat ∧ (∀ k, k < us.length → s.text.read k = us[k]?) ∧
      synthSizeOk s.params s.params.sampleRate
        (totalDuration s.params (normalizeText s.params us).length) = true ∧
      (synthSamples s.params s.params.sampleRate
        (totalDuration s.params (normalizeText s.params us).length)).toNat + 44 ≤ s.params.bufMax ∧
      ∀ ns : List Nat, trainWrites (F64.fdiv 0x3FF0000000000000 (F64.ofNat s.params.sampleRate))
          (encodePulses s.params (normalizeText s.params us)) ns 0 = true →
        (synthSamples s.params s.params.sampleRate
          (totalDuration s.params (normalizeText s.params us).length)).toNat < ns.sum) := by
  refine ⟨⟨{ given 5 0 with params := small }, by decide, rfl, rfl, by decide⟩,
    ⟨{ given 4 0 with params := small, text := [(0, 1), (1, 1), (2, 1)] }, by decide, rfl, rfl, by decide, 3, by decide,
      by decide⟩,
    ⟨encodingNothing { small with leaderDuration := 0x7FF0000000000000 }, [], by decide, rfl, rfl, by decide, rfl,
      (by intro k hk; cases hk), by decide +kernel⟩,
    ⟨encodingNothing { tight with bufMax := 43 }, [], by decide, rfl, rfl, by decide, rfl, (by intro k hk; cases hk),
      by decide +kernel, by decide +kernel⟩,
    ⟨encoding, [0x0041], smallCounts [0x0041, 0x000D], by decide, rfl, rfl, by decide, rfl, ?_, by decide +kernel,
      by decide +kernel, by decide +kernel, by decide +kernel, rfl⟩,
    ⟨encodingNothing { tight with bufMax := 44 }, [], by decide, rfl, rfl, by decide, rfl, (by intro k hk; cases hk),
      by decide +kernel, by decide +kernel, fun ns hw => ?_⟩⟩
  · intro k hk
    obtain rfl : k = 0 := by simpa using hk
    rfl
  · have h0 : (synthSamples tight 2400 (totalDuration tight (normalizeText tight []).length)).toNat = 0 := by
      decide +kernel
    have := train_needs_room (d := tight.shortWave) (by decide +kernel) ns hw
    exact lt_of_eq_of_lt h0 this

theorem encoding_ends : ∃ t, exec .encode encoding = .next t ∧ t.faulted = false := by
  have h : ends (exec .encode encoding) (fun t => !t.faulted) = true := by decide +kernel
  obtain ⟨t, ht, hf⟩ := ends_next h
  exact ⟨t, ht, by simpa using hf⟩

/-- Two states that differ in CHK and in a unit beyond the text. -/
theorem witness_EncodeIsPure : ∃ s₁ s₂ t₁ : State,
    s₁ ≠ s₂ ∧ s₁.params = s₂.params ∧ s₁.a0 = s₂.a0 ∧ s₁.a0Written = true ∧ s₂.a0Written = true ∧
    (∀ k, k < s₁.a0.toNat → s₁.text.read k = s₂.text.read k) ∧
    exec .encode s₁ = .next t₁ ∧ t₁.faulted = false := by
  obtain ⟨t, ht, hf⟩ := encoding_ends
  refine ⟨encoding, { encoding with chk := 5, text := [(0, 0x0041), (1, 0x0042)] }, t, by decide, rfl, rfl, rfl, rfl, ?_,
    ht, hf⟩
  intro k hk
  obtain rfl : k = 0 := by simpa [encoding, given] using hk
  rfl

theorem witness_EncodeEqualsPrimitiveCommands : ∃ (s t : State) (us : List TextUnit),
    s.Inv ∧ s.faulted = false ∧ s.params.leaderCount < 2 ^ 64 ∧ s.params.trailerCount < 2 ^ 64 ∧
    s.params.frameBits = 11 ∧ s.text.readRange 0 s.a0.toNat = some us ∧ exec .encode s = .next t ∧ t.faulted = false := by
  obtain ⟨t, ht, hf⟩ := encoding_ends
  refine ⟨encoding, t, [0x0041], ⟨by decide, ?_, ?_, by decide, fun _ => ⟨by decide, rfl, ⟨by decide, by decide, ?_⟩,
    ⟨?_, fun _ => rfl⟩, ?_⟩, ?_⟩, by decide, by decide, by decide, rfl, by decide, ht, hf⟩
  · exact Memory.wf_nil
  · simp [Memory.wf, encoding]
  · intro h; exact absurd h (by decide)
  · intro h; exact absurd h (by decide)
  · intro h; exact absurd h (by decide)
  · intro h; exact absurd h (by decide)

theorem witness_FrameOfByteOperand : (1 ≤ 1 ∧ 1 ≤ 8) ∧ (1 ≤ 8 ∧ 8 ≤ 8) ∧ Config.atReset.frameBits = 11 := by decide

theorem witness_ReceiverRecoversByte : Config.atReset.shortWave ≠ Config.atReset.longWave := by decide

/-- A text of trimmed units only, and lines that do not end in CR, the empty one among them. -/
theorem witness_NormalizedTextShape :
    Config.atReset.Standard ∧ (∀ x ∈ [0x0020, 0xFEFF], Config.atReset.trimSet.contains x = true) ∧
    ([] : List TextUnit).getLast? ≠ some 0x000D ∧ ([0x0041] : List TextUnit).getLast? ≠ some 0x000D :=
  ⟨rfl, List.forall_mem_cons.2 ⟨by decide, List.forall_mem_singleton.2 (by decide)⟩, by decide, by decide⟩

/-- Two ties of integer rounding, and for a quotient the least divisor. -/
theorem witness_RoundsToNearestEven :
    (2 * ((roundShift 3 1 : Int) * 2 ^ 1 - 3).natAbs = 2 ^ 1 ∧ roundShift 3 1 = 2) ∧
    (2 * ((roundShift 5 1 : Int) * 2 ^ 1 - 5).natAbs = 2 ^ 1 ∧ roundShift 5 1 = 2) ∧ (0 : Nat) < 1 := by decide

/-- The bound above which a magnitude is an infinity, the largest number, and the least one: a tie that goes to zero, and
one that goes to the infinity. -/
theorem test_round_edges :
    F64.round false (2 ^ 54 - 1) 970 = 0x7FF0000000000000 ∧ F64.round false (2 ^ 55 - 3) 969 = 0x7FEFFFFFFFFFFFFF ∧
    F64.round true 1 (-1075) = 0x8000000000000000 ∧ F64.round false 3 (-1076) = 1 := by decide +kernel

/-- The largest number and the least, as operands and as a divisor. -/
theorem witness_ArithmeticRoundsOnce :
    holdsNumber 0x7FEFFFFFFFFFFFFF = true ∧ holdsNumber 0x8000000000000001 = true ∧
    holdsZero 0x8000000000000001 = false := by decide

/-- An infinity with zero, with a number and with the other infinity, and a number over zero. -/
theorem witness_ArithmeticBeyondNumbers :
    (holdsInfinity 0xFFF0000000000000 = true ∧ holdsNumber 0x8000000000000000 = true) ∧
    (holdsNumber 0x3FF0000000000000 = true ∧ holdsZero 0x3FF0000000000000 = false) ∧
    (holdsInfinity 0x7FF0000000000000 = true ∧ BitVec.msb (0x7FF0000000000000 : F64) ≠ BitVec.msb (0xFFF0000000000000 : F64)) ∧
    holdsZero 0x8000000000000000 = true := by decide

/-- A negative number that is no integer; floor and ceiling of it. -/
theorem witness_IntegerPartsOfNumbers :
    holdsNumber 0xBFF8000000000000 = true ∧ F64.ceilInt 0xBFF8000000000000 = -1 ∧
    F64.floorInt 0xBFF8000000000000 = -2 := by decide

/-- Zeros of both signs, the least subnormal number, the greatest finite number. -/
theorem witness_RepresentableNumbersKept :
    F64.isFinite 0 = true ∧ F64.isFinite 0x8000000000000000 = true ∧ F64.isFinite 1 = true ∧
    F64.isFinite 0x7FEFFFFFFFFFFFFF = true := by decide

/-- NaN, the two zeros, the largest number, and an infinity against itself and against a number. -/
theorem witness_ComparisonOfValues :
    holdsNaN 0x7FF8000000000000 = true ∧ holdsNumber 0x8000000000000000 = true ∧ holdsNumber 0 = true ∧
    holdsNumber 0x7FEFFFFFFFFFFFFF = true ∧ holdsInfinity 0x7FF0000000000000 = true ∧
    holdsInfinity 0xFFF0000000000000 = true ∧ holdsNaN 0x7FF0000000000000 = false := by decide

/-- The host's actions still to come do not matter to the invariant. -/
theorem inv_with_inputs {s : State} (h : s.Inv) (inputs : List HostAction) : ({ s with inputs := inputs } : State).Inv := h

theorem step_writes_a0 (s : State) (v : Word64) :
    step { s with inputs := [.writeReg 0x01 v] } = .next { s with inputs := [], a0 := v, a0Written := true } := rfl

theorem witness_InvariantKeptByEveryStep : ∃ s t : State, s.Inv ∧ step s = .next t ∧ s.created = true :=
  ⟨_, _, inv_with_inputs (synthesizer_inv 2400 2 0 0 (by decide) (by decide) (by decide)) [.writeReg 0x01 5],
    step_writes_a0 _ _, by decide +kernel⟩

theorem witness_CommandsKeepHostSide : ∃ (i : Instr) (s t : State), exec i s = .next t :=
  ⟨.kfold, given 5 0, _, rfl⟩

/-- A command that ends without a fault. -/
theorem ends_unfaulted {i : Instr} {s : State} (h : ends (exec i s) (fun t => !t.faulted) = true) :
    ∃ t, exec i s = .next t ∧ t.faulted = false := by
  obtain ⟨t, ht, hf⟩ := ends_next h
  exact ⟨t, ht, by simpa using hf⟩

/-- KFOLD, CCREATE and CAPPEND between them meet every clause; each ends without a fault. -/
theorem witness_RegisterWriters :
    (∃ s : State, s.faulted = false ∧ ∃ t, exec .kfold s = .next t ∧ t.faulted = false) ∧
    (∃ s : State, s.faulted = false ∧ ∃ t, exec .ccreate s = .next t ∧ t.faulted = false) ∧
    (∃ s : State, s.faulted = false ∧ ∃ t, exec .cappend s = .next t ∧ t.faulted = false) :=
  ⟨⟨given 5 0, by decide, ends_unfaulted (by decide +kernel)⟩,
    ⟨given 8000 4, by decide, ends_unfaulted (by decide +kernel)⟩,
    ⟨container 1 255, by decide +kernel, ends_unfaulted (by decide +kernel)⟩⟩

/-- The last free byte is appended. -/
theorem witness_PayloadWrittenInOrder : ∃ (i : Instr) (s : State), s.cursor.toNat ≤ s.buflen.toNat ∧
    i ≠ .ccreate ∧ i ≠ .screate ∧ i ≠ .encode ∧ s.faulted = false ∧
    ∃ t, exec i s = .next t ∧ t.faulted = false :=
  ⟨.cappend, container 1 255, by decide +kernel, by decide, by decide, by decide, by decide +kernel,
    ends_unfaulted (by decide +kernel)⟩

theorem witness_InstancesIndependent : ∃ (j k : Nat) (sys a b : List State),
    j ≠ k ∧ systemStep j sys = .next a ∧ systemStep k sys = .next b ∧ a ≠ b :=
  ⟨0, 1, [{ State.reset with inputs := [.writeReg 0x01 1] }, { State.reset with inputs := [.writeReg 0x02 2] }], _, _,
    by decide, rfl, rfl, by decide⟩

/-- 30_encoding.md R60: A, the escapes of CR and of the backslash, and of the unit 0x00E9. -/
theorem test_asmUnits : asmUnits ['A', '\\', 'r', '\\', '\\', '\\', 'u', '0', '0', 'e', '9'] =
    some [0x0041, 0x000D, 0x005C, 0x00E9] := by decide

/-- 30_encoding.md R61: `ENCODE "A"` is a TEXT write, an A0 write and a CMD write. -/
theorem test_asmEncode : asmEncode [0x0041] =
    [.writeText 0 0x0041, .writeReg 0x01 1, .writeReg 0x00 0x00000042] := by decide

end Sys2Proof.Tests
end

section
/-! SUPPORT. The patterns of binary64 that hold numbers, in the order of the numbers they hold, and rounding as a choice
between neighbours in that order (00_scope.md R9). -/

namespace Sys2Proof.Machine

/-! ### The bits below the sign -/

/-- The 63 bits below the sign, as a number: the position of the pattern's magnitude among those of its sign. -/
def position (x : F64) : ℕ := BitVec.toNat x % 9223372036854775808

theorem position_eq (x : F64) : position x = F64.expField x * 4503599627370496 + F64.frac x := by
  rw [position, F64.expField_eq, F64.frac]; omega

theorem key_eq (x : F64) : F64.key x = if x.msb then -(position x : ℤ) else position x := rfl

/-- The sign and the bits below it are the whole pattern. -/
theorem eq_of_msb_eq_of_position_eq {x y : F64} (hs : x.msb = y.msb) (hl : position x = position y) : x = y := by
  have hx := x.isLt
  have hy := y.isLt
  rw [BitVec.msb_eq_decide, BitVec.msb_eq_decide, decide_eq_decide] at hs
  simp only [position] at hl
  exact BitVec.eq_of_toNat_eq (by omega)

theorem holdsNumber_iff (x : F64) : holdsNumber x = true ↔ position x < 0x7FF0000000000000 := by
  have := F64.frac_lt x
  have := F64.expField_lt x
  rw [holdsNumber_eq, F64.isFinite, position_eq, bne_iff_ne]; omega

theorem holdsInfinity_iff (x : F64) : holdsInfinity x = true ↔ position x = 0x7FF0000000000000 := by
  have := F64.frac_lt x
  have := F64.expField_lt x
  rw [holdsInfinity_eq, F64.isInf, position_eq, Bool.and_eq_true, beq_iff_eq, beq_iff_eq]; omega

theorem holdsNaN_iff (x : F64) : holdsNaN x = true ↔ 0x7FF0000000000000 < position x := by
  have := F64.frac_lt x
  have := F64.expField_lt x
  rw [holdsNaN_eq, F64.isNaN, position_eq, Bool.and_eq_true, beq_iff_eq, bne_iff_ne]; omega

theorem holdsZero_iff (x : F64) : holdsZero x = true ↔ position x = 0 := by
  have := F64.frac_lt x
  rw [holdsZero_eq, F64.isZero, F64.isFinite, F64.sig, position_eq, Bool.and_eq_true, beq_iff_eq, bne_iff_ne]
  split <;> omega

theorem toNat_pack (neg : Bool) {L : ℕ} (h : L < 9223372036854775808) :
    BitVec.toNat (F64.pack neg L) = (if neg then 9223372036854775808 else 0) + L := by
  rw [F64.pack, BitVec.toNat_ofNat]; split <;> omega

theorem msb_pack (neg : Bool) {L : ℕ} (h : L < 9223372036854775808) : (F64.pack neg L).msb = neg := by
  rw [BitVec.msb_eq_decide, toNat_pack neg h]; cases neg
  · simpa using h
  · simp

theorem position_pack (neg : Bool) {L : ℕ} (h : L < 9223372036854775808) : position (F64.pack neg L) = L := by
  rw [position, toNat_pack neg h]; split <;> omega

@[simp] theorem msb_infinity (neg : Bool) : (F64.infinity neg).msb = neg := msb_pack neg (by decide)

@[simp] theorem holdsInfinity_infinity (neg : Bool) : holdsInfinity (F64.infinity neg) = true :=
  (holdsInfinity_iff _).2 (position_pack neg (by decide))

@[simp] theorem msb_zero (neg : Bool) : (F64.zero neg).msb = neg := msb_pack neg (by decide)

@[simp] theorem holdsZero_zero (neg : Bool) : holdsZero (F64.zero neg) = true :=
  (holdsZero_iff _).2 (position_pack neg (by decide))

/-- The lowest bit says whether the bits below the sign are odd. -/
theorem getLsbD_zero_eq_false {x : F64} (h : position x % 2 = 0) : x.getLsbD 0 = false := by
  rw [position] at h
  simp [BitVec.getLsbD, Nat.testBit_zero]; omega

/-! ### Magnitudes in order -/

/-- How many units the magnitude at position `L` counts: the significand. -/
def significand (L : ℕ) : ℕ := L - (L / 4503599627370496 - 1) * 4503599627370496

/-- The unit of the magnitude at position `L` is `2 ^ (binade L - 1074)`. -/
def binade (L : ℕ) : ℕ := L / 4503599627370496 - 1

/-- The number at position `L`, in the format without an upper limit to the exponent. -/
def magnitude (L : ℕ) : ℚ := significand L * 2 ^ ((binade L : ℤ) - 1074)

/-- The number of a pattern is the magnitude of its low bits with its sign. -/
theorem valueOf_eq_signed_magnitude (x : F64) : valueOf x = signed x.msb (magnitude (position x)) := by
  have hf := F64.frac_lt x
  have hsig : significand (position x) = F64.sig x := by
    rw [significand, position_eq, F64.sig]; split <;> omega
  have hunit : (binade (position x) : ℤ) - 1074 = F64.ulp x := by
    rw [binade, position_eq, F64.ulp]; omega
  rw [valueOf_eq, magnitude, hsig, hunit, F64.signedSig, F64.sign, signed]
  split <;> push_cast <;> ring

/-- `s` units of exponent `k - 1074` stand at position `k * 2^52 + s`; a full `s` carries into the next binade. -/
theorem magnitude_binade_add {k s : ℕ} (hlow : k = 0 ∨ 2 ^ 52 ≤ s) (hhigh : s ≤ 2 ^ 53) :
    magnitude (k * 4503599627370496 + s) = s * 2 ^ ((k : ℤ) - 1074) := by
  rw [magnitude]
  rcases Nat.lt_or_eq_of_le hhigh with hs | rfl
  · rw [show significand (k * 4503599627370496 + s) = s by rw [significand]; omega,
      show binade (k * 4503599627370496 + s) = k by rw [binade]; omega]
  · rw [show significand (k * 4503599627370496 + 2 ^ 53) = 2 ^ 52 by rw [significand]; omega,
      show binade (k * 4503599627370496 + 2 ^ 53) = k + 1 by rw [binade]; omega,
      show ((k + 1 : ℕ) : ℤ) - 1074 = (k - 1074) + 1 by push_cast; ring, zpow_add_one₀ two_ne_zero]
    push_cast; ring

theorem magnitude_zero : magnitude 0 = 0 := by simp [magnitude, significand]

/-- The next magnitude is one unit above. -/
theorem magnitude_succ (L : ℕ) : magnitude (L + 1) = magnitude L + 2 ^ ((binade L : ℤ) - 1074) := by
  have hL : L + 1 = binade L * 4503599627370496 + (significand L + 1) := by rw [binade, significand]; omega
  rw [hL, magnitude_binade_add (by rw [binade, significand]; omega) (by rw [significand]; omega), magnitude]
  push_cast; ring

theorem magnitude_strictMono : StrictMono magnitude :=
  strictMono_nat_of_lt_succ fun L => by
    have : (0 : ℚ) < 2 ^ ((binade L : ℤ) - 1074) := by positivity
    rw [magnitude_succ]; linarith

theorem magnitude_nonneg (L : ℕ) : 0 ≤ magnitude L := by
  rw [← magnitude_zero]; exact magnitude_strictMono.monotone (Nat.zero_le L)

/-! ### The nearest magnitude -/

/-- Halfway between the magnitude at `L` and the next one. -/
def midpoint (L : ℕ) : ℚ := (magnitude L + magnitude (L + 1)) / 2

theorem midpoint_strictMono : StrictMono midpoint := fun a b h => by
  have h0 := magnitude_strictMono h
  have h1 := magnitude_strictMono (Nat.succ_lt_succ h)
  rw [midpoint, midpoint]; linarith

/-- The magnitude at `L` is `q` rounded to nearest, ties to even: `q` lies between the two midpoints next to it, and on one
of them only when `L` is even. -/
structure NearestEven (q : ℚ) (L : ℕ) : Prop where
  le_midpoint : q ≤ midpoint L
  midpoint_le : ∀ l, L = l + 1 → midpoint l ≤ q
  even_of_eq_midpoint : q = midpoint L → L % 2 = 0
  even_of_midpoint_eq : ∀ l, L = l + 1 → midpoint l = q → L % 2 = 0

/-- No other magnitude is nearer, and where another is as near, `L` is even. -/
theorem NearestEven.nearest {q : ℚ} {L : ℕ} (h : NearestEven q L) (L' : ℕ) :
    |magnitude L - q| ≤ |magnitude L' - q| ∧ (|magnitude L - q| = |magnitude L' - q| → L' ≠ L → L % 2 = 0) := by
  rcases lt_trichotomy L' L with hlt | rfl | hgt
  · obtain ⟨l, rfl⟩ : ∃ l, L = l + 1 := ⟨L - 1, by omega⟩
    have hle := magnitude_strictMono.monotone (Nat.le_of_lt_succ hlt)
    have hl := magnitude_strictMono (Nat.lt_succ_self l)
    have hmid := h.midpoint_le l rfl
    have htie := h.even_of_midpoint_eq l rfl
    simp only [midpoint] at hmid htie
    rw [abs_of_nonpos (show magnitude L' - q ≤ 0 by linarith)]
    refine ⟨abs_le.2 ⟨by linarith, by linarith⟩, fun heq _ => htie ?_⟩
    rcases abs_choice (magnitude (l + 1) - q) with hc | hc <;> rw [hc] at heq <;> linarith
  · exact ⟨le_rfl, fun _ hne => absurd rfl hne⟩
  · have hle := magnitude_strictMono.monotone (Nat.succ_le_of_lt hgt)
    have hl := magnitude_strictMono (Nat.lt_succ_self L)
    have hmid := h.le_midpoint
    have htie := h.even_of_eq_midpoint
    simp only [midpoint] at hmid htie
    rw [abs_of_nonneg (show 0 ≤ magnitude L' - q by linarith)]
    refine ⟨abs_le.2 ⟨by linarith, by linarith⟩, fun heq _ => htie ?_⟩
    rcases abs_choice (magnitude L - q) with hc | hc <;> rw [hc] at heq <;> linarith

/-- The least magnitude that rounds to infinity is the midpoint above the largest number. -/
theorem midpoint_largest : midpoint 0x7FEFFFFFFFFFFFFF = overflowBound := by
  have h0 := magnitude_binade_add (k := 2045) (s := 2 ^ 53 - 1) (by decide) (by decide)
  have h1 := magnitude_binade_add (k := 2045) (s := 2 ^ 53) (by decide) (by decide)
  rw [midpoint, overflowBound, show 0x7FEFFFFFFFFFFFFF = 2045 * 4503599627370496 + (2 ^ 53 - 1) by rfl, h0,
    show 2045 * 4503599627370496 + (2 ^ 53 - 1) + 1 = 2045 * 4503599627370496 + 2 ^ 53 by rfl, h1,
    show ((2045 : ℕ) : ℤ) - 1074 = (970 : ℕ) + 1 by rfl, zpow_add_one₀ two_ne_zero, zpow_natCast,
    Nat.cast_sub (by decide)]
  generalize (2 : ℚ) ^ 970 = P
  push_cast; ring

/-- A magnitude below the overflow bound rounds to a number, and one from the bound on beyond the numbers: the largest
number's position is odd, so that the bound itself goes up. -/
theorem NearestEven.lt_infinity_iff {q : ℚ} {L : ℕ} (h : NearestEven q L) :
    L < 0x7FF0000000000000 ↔ q < overflowBound := by
  rw [← midpoint_largest]
  constructor
  · intro hL
    rcases Nat.lt_or_eq_of_le (show L ≤ 0x7FEFFFFFFFFFFFFF by omega) with hlt | rfl
    · exact h.le_midpoint.trans_lt (midpoint_strictMono hlt)
    · exact lt_of_le_of_ne h.le_midpoint fun heq => absurd (h.even_of_eq_midpoint heq) (by decide)
  · intro hq
    by_contra hL
    obtain ⟨l, rfl⟩ : ∃ l, L = l + 1 := ⟨L - 1, by omega⟩
    have := midpoint_strictMono.monotone (show 0x7FEFFFFFFFFFFFFF ≤ l by omega)
    have := h.midpoint_le l rfl
    linarith

/-! ### The pattern of the nearest number -/

/-- The pattern at position `L`, or the infinity where `L` is beyond the numbers. -/
def packOrInfinity (neg : Bool) (L : ℕ) : F64 :=
  if 0x7FF0000000000000 ≤ L then F64.infinity neg else F64.pack neg L

@[simp] theorem abs_signed_sub_signed (neg : Bool) (p q : ℚ) : |signed neg p - signed neg q| = |p - q| := by
  cases neg
  · rfl
  · simp only [signed, if_true]; rw [← abs_neg]; congr 1; ring

@[simp] theorem abs_signed (neg : Bool) (q : ℚ) : |signed neg q| = |q| := by cases neg <;> simp [signed]

/-- The number of a pattern with the other sign is no nearer than zero is. -/
theorem le_abs_valueOf_sub_of_msb_ne {neg : Bool} {q : ℚ} {y : F64} (hq : 0 ≤ q) (hy : y.msb ≠ neg) :
    |magnitude 0 - q| ≤ |valueOf y - signed neg q| := by
  have := magnitude_nonneg (position y)
  rw [valueOf_eq_signed_magnitude, Bool.eq_not_of_ne hy, magnitude_zero, zero_sub, abs_neg, abs_of_nonneg hq]
  cases neg
  · exact le_abs.2 (.inr (show q ≤ -(-magnitude (position y) - q) by linarith))
  · exact le_abs.2 (.inl (show q ≤ magnitude (position y) - -q by linarith))

/-- Rounding to the nearest magnitude, on patterns. -/
theorem NearestEven.roundedTo {q : ℚ} {L : ℕ} (h : NearestEven q L) (hq : 0 ≤ q) (neg : Bool) :
    RoundedTo neg (signed neg q) (packOrInfinity neg L) := by
  rw [RoundedTo, abs_signed, abs_of_nonneg hq, ← h.lt_infinity_iff, ← not_lt, ← h.lt_infinity_iff, packOrInfinity]
  by_cases hL : L < 0x7FF0000000000000
  swap
  · simp [hL, Nat.le_of_not_lt hL]
  have hbits : position (F64.pack neg L) = L := position_pack neg (by omega)
  have hsign : (F64.pack neg L).msb = neg := msb_pack neg (by omega)
  have hval : valueOf (F64.pack neg L) = signed neg (magnitude L) := by
    rw [valueOf_eq_signed_magnitude, hbits, hsign]
  rw [if_neg (Nat.not_le.2 hL), hsign, holdsNumber_iff, hbits, hval, abs_signed_sub_signed]
  refine ⟨rfl, fun _ => ⟨hL, fun y _ => ?_⟩, fun h => absurd hL h⟩
  by_cases hy : y.msb = neg
  · rw [valueOf_eq_signed_magnitude, hy, abs_signed_sub_signed]
    obtain ⟨hle, htie⟩ := h.nearest (position y)
    refine ⟨hle, fun heq hne => getLsbD_zero_eq_false ?_⟩
    rw [hbits]
    exact htie heq fun hpos => hne (by rw [hpos])
  · have hzero := le_abs_valueOf_sub_of_msb_ne hq hy
    obtain ⟨hle, htie⟩ := h.nearest 0
    refine ⟨hle.trans hzero, fun heq _ => getLsbD_zero_eq_false ?_⟩
    rw [hbits]
    by_cases hL0 : 0 = L
    · rw [← hL0]
    · exact htie (le_antisymm hle (heq ▸ hzero)) hL0

end Sys2Proof.Machine
end

section
/-! SUPPORT. The machine's rounding (Machine/Binary64) picks the nearest number (00_scope.md R9). -/

namespace Sys2Proof.Machine

/-! ### Rounding to an integer -/

/-- `s` is `r` rounded to an integer, to nearest, ties to even. -/
structure RoundsEven (r : ℚ) (s : ℕ) : Prop where
  lower : 2 * (s : ℚ) - 1 ≤ 2 * r
  upper : 2 * r ≤ 2 * s + 1
  even_of_tie : 2 * (s : ℚ) - 1 = 2 * r ∨ 2 * r = 2 * s + 1 → s % 2 = 0

theorem roundsEven_natCast (s : ℕ) : RoundsEven s s where
  lower := by linarith
  upper := by linarith
  even_of_tie h := by rcases h with h | h <;> linarith

/-- `r` and `r'` are on the same side of every integer and of every half, and on the same ones. -/
def SameHalves (r r' : ℚ) : Prop := ∀ z : ℤ, (z ≤ 2 * r ↔ z ≤ 2 * r') ∧ (2 * r ≤ z ↔ 2 * r' ≤ z)

theorem sameHalves_refl (r : ℚ) : SameHalves r r := fun _ => ⟨Iff.rfl, Iff.rfl⟩

theorem RoundsEven.of_sameHalves {r r' : ℚ} {s : ℕ} (h : RoundsEven r' s) (hr : SameHalves r r') : RoundsEven r s := by
  obtain ⟨hlo, hlo'⟩ := hr (2 * s - 1)
  obtain ⟨hhi, hhi'⟩ := hr (2 * s + 1)
  push_cast at hlo hlo' hhi hhi'
  refine ⟨hlo.2 h.lower, hhi'.2 h.upper, fun htie => h.even_of_tie ?_⟩
  rcases htie with heq | heq
  · exact .inl (le_antisymm h.lower (hlo'.1 heq.ge))
  · exact .inr (le_antisymm h.upper (hhi.1 heq.ge))

/-- roundShift in whole numbers: `2^k` times the result is within half of `2^k`, and the result is even on a tie. -/
theorem roundShift_bounds (n k : ℕ) :
    2 * n ≤ 2 * (roundShift n k * 2 ^ k) + 2 ^ k ∧ 2 * (roundShift n k * 2 ^ k) ≤ 2 * n + 2 ^ k ∧
    (2 * n = 2 * (roundShift n k * 2 ^ k) + 2 ^ k ∨ 2 * (roundShift n k * 2 ^ k) = 2 * n + 2 ^ k →
      roundShift n k % 2 = 0) := by
  have hpos : 0 < 2 ^ k := Nat.two_pow_pos k
  have hdiv := Nat.div_add_mod' n (2 ^ k)
  have hmod := Nat.mod_lt n hpos
  have hhalf : k ≠ 0 → 2 ^ k = 2 * (2 ^ k / 2) := fun hk => by
    obtain ⟨j, rfl⟩ := Nat.exists_eq_succ_of_ne_zero hk; rw [Nat.pow_succ]; omega
  have hzero : k = 0 → 2 ^ k = 1 := fun hk => by rw [hk, Nat.pow_zero]
  simp only [roundShift, Nat.shiftRight_eq_div_pow]
  generalize n / 2 ^ k = q at *
  generalize n % 2 ^ k = r at *
  generalize hP : 2 ^ k = P at *
  split
  · rw [Nat.add_mul, Nat.one_mul]
    generalize q * P = t at *
    omega
  · generalize q * P = t at *
    omega

theorem roundsEven_roundShift (n k : ℕ) : RoundsEven (n / 2 ^ k) (roundShift n k) := by
  obtain ⟨hlo, hhi, htie⟩ := roundShift_bounds n k
  have hpos : (0 : ℚ) < 2 ^ k := by positivity
  have hn : (n : ℚ) = n / 2 ^ k * 2 ^ k := by field_simp
  rw [← Nat.cast_le (α := ℚ)] at hlo hhi
  rw [← Nat.cast_inj (R := ℚ), ← Nat.cast_inj (R := ℚ) (m := 2 * (roundShift n k * 2 ^ k))] at htie
  push_cast at hlo hhi htie
  rw [hn] at hlo hhi htie
  generalize (n : ℚ) / 2 ^ k = r at *
  generalize (2 : ℚ) ^ k = P at *
  refine ⟨?_, ?_, fun h => htie ?_⟩
  · exact le_of_mul_le_mul_right (by linarith) hpos
  · exact le_of_mul_le_mul_right (by linarith) hpos
  · rcases h with h | h
    · exact .inr (by linear_combination P * h)
    · exact .inl (by linear_combination P * h)

/-! ### From an integer significand to the nearest number -/

/-- Rounding to an integer passes no integer. -/
theorem RoundsEven.le_of_le {r : ℚ} {s n : ℕ} (h : RoundsEven r s) (hn : (n : ℚ) ≤ r) : n ≤ s := by
  have : ((2 * n : ℕ) : ℚ) ≤ (2 * s + 1 : ℕ) := by push_cast; linarith [h.upper]
  have : 2 * n ≤ 2 * s + 1 := by exact_mod_cast this
  omega

theorem RoundsEven.le_of_ge {r : ℚ} {s n : ℕ} (h : RoundsEven r s) (hn : r ≤ n) : s ≤ n := by
  have : ((2 * s : ℕ) : ℚ) ≤ (2 * n + 1 : ℕ) := by push_cast; linarith [h.lower]
  have : 2 * s ≤ 2 * n + 1 := by exact_mod_cast this
  omega

theorem midpoint_binade_add {k s : ℕ} (hlow : k = 0 ∨ 2 ^ 52 ≤ s) (hhigh : s < 2 ^ 53) :
    midpoint (k * 4503599627370496 + s) = (2 * s + 1) / 2 * 2 ^ ((k : ℤ) - 1074) := by
  rw [midpoint, Nat.add_assoc, magnitude_binade_add hlow hhigh.le, magnitude_binade_add (by omega) hhigh]
  push_cast; ring

section
variable {r : ℚ} {k s : ℕ}

theorem RoundsEven.significand_bounds (h : RoundsEven r s) (hlow : k = 0 ∨ 2 ^ 52 ≤ r) (hhigh : r < 2 ^ 53) :
    (k = 0 ∨ 2 ^ 52 ≤ s) ∧ s ≤ 2 ^ 53 :=
  ⟨hlow.imp_right fun hr => h.le_of_le (by push_cast; exact hr), h.le_of_ge (by push_cast; exact hhigh.le)⟩

/-- The midpoint above is not passed, and reached on a tie only. -/
theorem RoundsEven.le_midpoint (h : RoundsEven r s) (hlow : k = 0 ∨ 2 ^ 52 ≤ r) (hhigh : r < 2 ^ 53) :
    r * 2 ^ ((k : ℤ) - 1074) ≤ midpoint (k * 4503599627370496 + s) ∧
    (r * 2 ^ ((k : ℤ) - 1074) = midpoint (k * 4503599627370496 + s) → 2 * r = 2 * s + 1) := by
  have hu : (0 : ℚ) < 2 ^ ((k : ℤ) - 1074) := by positivity
  obtain ⟨hs52, hs53⟩ := h.significand_bounds hlow hhigh
  rcases Nat.lt_or_eq_of_le hs53 with hlt | heq
  · have := h.upper
    rw [midpoint_binade_add hs52 hlt, mul_le_mul_iff_left₀ hu, mul_left_inj' hu.ne']
    exact ⟨by linarith, fun _ => by linarith⟩
  · have hlt : r * 2 ^ ((k : ℤ) - 1074) < midpoint (k * 4503599627370496 + s) := by
      have hnext := magnitude_strictMono (Nat.lt_succ_self (k * 4503599627370496 + s))
      have : r * 2 ^ ((k : ℤ) - 1074) < s * 2 ^ ((k : ℤ) - 1074) :=
        mul_lt_mul_of_pos_right (by rw [heq]; exact_mod_cast hhigh) hu
      rw [← magnitude_binade_add hs52 hs53] at this
      rw [midpoint]; linarith
    exact ⟨hlt.le, fun heq => absurd heq hlt.ne⟩

/-- The midpoint below is not passed, and reached on a tie only; at the least significand of a binade the magnitudes below
are closer, and `r` is not below `s`. -/
theorem RoundsEven.midpoint_le (h : RoundsEven r s) (hlow : k = 0 ∨ 2 ^ 52 ≤ r) (hhigh : r < 2 ^ 53) {l : ℕ}
    (hl : k * 4503599627370496 + s = l + 1) :
    midpoint l ≤ r * 2 ^ ((k : ℤ) - 1074) ∧ (midpoint l = r * 2 ^ ((k : ℤ) - 1074) → 2 * (s : ℚ) - 1 = 2 * r) := by
  have hu : (0 : ℚ) < 2 ^ ((k : ℤ) - 1074) := by positivity
  obtain ⟨hs52, hs53⟩ := h.significand_bounds hlow hhigh
  by_cases hborder : k = 0 ∨ 2 ^ 52 < s
  · obtain ⟨p, rfl⟩ : ∃ p, s = p + 1 := ⟨s - 1, by omega⟩
    have hlower := h.lower
    push_cast at hlower ⊢
    rw [show l = k * 4503599627370496 + p by omega, midpoint_binade_add (by omega) (by omega),
      mul_le_mul_iff_left₀ hu, mul_left_inj' hu.ne']
    exact ⟨by linarith, fun _ => by linarith⟩
  · have hlt : midpoint l < r * 2 ^ ((k : ℤ) - 1074) := by
      have hprev := magnitude_strictMono (Nat.lt_succ_self l)
      have hsr : (s : ℚ) ≤ r := by
        rw [show s = 2 ^ 52 by omega]; push_cast; exact hlow.resolve_left (by tauto)
      have := mul_le_mul_of_nonneg_right hsr hu.le
      rw [← magnitude_binade_add hs52 hs53, hl] at this
      rw [midpoint]; linarith
    exact ⟨hlt.le, fun heq => absurd heq hlt.ne⟩

/-- An integer significand that `r` rounds to, in units of exponent `k - 1074`, gives the position of the number nearest
to `r` units, where `r` has at most 53 bits above the unit, and 53 of them unless the unit is the least one. -/
theorem RoundsEven.nearestEven (h : RoundsEven r s) (hlow : k = 0 ∨ 2 ^ 52 ≤ r) (hhigh : r < 2 ^ 53) :
    NearestEven (r * 2 ^ ((k : ℤ) - 1074)) (k * 4503599627370496 + s) := by
  have heven : s % 2 = 0 → (k * 4503599627370496 + s) % 2 = 0 := by omega
  obtain ⟨hle, htie⟩ := h.le_midpoint hlow hhigh
  exact {
    le_midpoint := hle
    midpoint_le := fun l hl => (h.midpoint_le hlow hhigh hl).1
    even_of_eq_midpoint := fun heq => heven (h.even_of_tie (.inr (htie heq)))
    even_of_midpoint_eq := fun l hl heq => heven (h.even_of_tie (.inl ((h.midpoint_le hlow hhigh hl).2 heq))) }

end

/-! ### The machine's rounding -/

/-- The unit of the result of `F64.round` has the exponent `resultUnit m e - 1074`. -/
def resultUnit (m : ℕ) (e : ℤ) : ℕ := (e + (m.log2 : ℤ) + 1022).toNat

/-- The significand that `F64.round` computes, for a unit of exponent `u`. -/
def roundedSig (m : ℕ) (e u : ℤ) : ℕ := if u ≤ e then m <<< (e - u).toNat else roundShift m (u - e).toNat

theorem round_eq_packOrInfinity (neg : Bool) {m : ℕ} (hm : m ≠ 0) (e : ℤ) :
    F64.round neg m e =
      packOrInfinity neg (resultUnit m e * 4503599627370496 + roundedSig m e ((resultUnit m e : ℤ) - 1074)) := by
  have hu : max (e + (m.log2 : ℤ) - 52) (-1074) = (resultUnit m e : ℤ) - 1074 := by rw [resultUnit]; omega
  simp only [F64.round, hm, if_false, hu, packOrInfinity, roundedSig, Int.sub_add_cancel, Int.toNat_natCast]; rfl

theorem roundsEven_roundedSig (m : ℕ) (e u : ℤ) : RoundsEven (m * 2 ^ (e - u)) (roundedSig m e u) := by
  rw [roundedSig]
  split
  · have : (m : ℚ) * 2 ^ (e - u) = (m <<< (e - u).toNat : ℕ) := by
      rw [Nat.shiftLeft_eq, Nat.cast_mul, Nat.cast_pow, Nat.cast_two, ← zpow_natCast, Int.toNat_of_nonneg (by omega)]
    rw [this]; exact roundsEven_natCast _
  · have : (m : ℚ) * 2 ^ (e - u) = m / 2 ^ (u - e).toNat := by
      rw [← zpow_natCast, Int.toNat_of_nonneg (by omega), div_eq_mul_inv, ← zpow_neg, neg_sub]
    rw [this]; exact roundsEven_roundShift _ _

/-- The unit leaves at most 53 significant bits, and 53 of them unless it is the least one. -/
theorem bits_above_resultUnit {m : ℕ} (hm : m ≠ 0) (e : ℤ) :
    (resultUnit m e = 0 ∨ (2 : ℚ) ^ 52 ≤ m * 2 ^ (e - ((resultUnit m e : ℤ) - 1074))) ∧
    (m : ℚ) * 2 ^ (e - ((resultUnit m e : ℤ) - 1074)) < 2 ^ 53 := by
  have h2 : (2 : ℚ) ≠ 0 := two_ne_zero
  have hlo : (2 : ℚ) ^ m.log2 ≤ m := by exact_mod_cast Nat.log2_self_le hm
  have hhi : (m : ℚ) < 2 ^ (m.log2 + 1) := by exact_mod_cast Nat.lt_log2_self
  set t := e - ((resultUnit m e : ℤ) - 1074) with ht
  have hpos : (0 : ℚ) < 2 ^ t := by positivity
  constructor
  · refine or_iff_not_imp_left.2 fun hk => ?_
    calc (2 : ℚ) ^ 52 = 2 ^ m.log2 * 2 ^ t := by
          rw [← zpow_natCast, ← zpow_natCast, ← zpow_add₀ h2]; congr 1; rw [ht, resultUnit] at *; omega
      _ ≤ m * 2 ^ t := mul_le_mul_of_nonneg_right hlo hpos.le
  · calc (m : ℚ) * 2 ^ t < 2 ^ (m.log2 + 1) * 2 ^ t := mul_lt_mul_of_pos_right hhi hpos
      _ = 2 ^ ((m.log2 : ℤ) + 1 + t) := by rw [← zpow_natCast, ← zpow_add₀ h2]; push_cast; rfl
      _ ≤ 2 ^ (53 : ℤ) := zpow_le_zpow_right₀ one_le_two (by rw [ht, resultUnit]; omega)
      _ = 2 ^ 53 := rfl

/-- Rounding `m * 2^e` also rounds every number on the same side of all multiples of half the result's unit. -/
theorem round_roundedTo_of_sameHalves (neg : Bool) {m : ℕ} (hm : m ≠ 0) (e : ℤ) {r : ℚ}
    (h : SameHalves r (m * 2 ^ (e - ((resultUnit m e : ℤ) - 1074)))) :
    RoundedTo neg (signed neg (r * 2 ^ ((resultUnit m e : ℤ) - 1074))) (F64.round neg m e) := by
  obtain ⟨hlow, hhigh⟩ := bits_above_resultUnit hm e
  have hlow' : resultUnit m e = 0 ∨ 2 ^ 52 ≤ r := hlow.imp_right fun hle => by
    have := (h (2 ^ 53)).1.2 (by push_cast; linarith)
    push_cast at this; linarith
  have hhigh' : r < 2 ^ 53 := by
    have := mt (h (2 ^ 54)).1.1 (by push_cast; linarith)
    push_cast at this; linarith
  have hr : 0 ≤ r := by
    have hm0 : (0 : ℚ) ≤ m * 2 ^ (e - ((resultUnit m e : ℤ) - 1074)) := by positivity
    have := (h 0).1.2 (by push_cast; linarith)
    push_cast at this; linarith
  rw [round_eq_packOrInfinity neg hm]
  exact (((roundsEven_roundedSig m e _).of_sameHalves h).nearestEven hlow' hhigh').roundedTo (by positivity) neg

theorem zpow_sub_mul_zpow (q : ℚ) (e u : ℤ) : q * 2 ^ (e - u) * 2 ^ u = q * 2 ^ e := by
  rw [mul_assoc, ← zpow_add₀ two_ne_zero, Int.sub_add_cancel]

/-- Zero is at position 0. -/
theorem zero_roundedTo (neg : Bool) : RoundedTo neg (signed neg 0) (F64.zero neg) := by
  have h : NearestEven 0 0 :=
    { le_midpoint := by have := magnitude_nonneg 1; rw [midpoint, magnitude_zero]; linarith
      midpoint_le := fun l hl => by omega
      even_of_eq_midpoint := fun _ => rfl
      even_of_midpoint_eq := fun _ _ _ => rfl }
  exact h.roundedTo le_rfl neg

theorem round_roundedTo (neg : Bool) (m : ℕ) (e : ℤ) : RoundedTo neg (signed neg (m * 2 ^ e)) (F64.round neg m e) := by
  by_cases hm : m = 0
  · subst hm
    simpa [F64.round] using zero_roundedTo neg
  · have := round_roundedTo_of_sameHalves neg hm e (sameHalves_refl _)
    rwa [zpow_sub_mul_zpow] at this

/-! ### The sticky bit -/

/-- The quotient with one more bit that says whether anything is left. -/
def stickyQuotient (N d : ℕ) : ℕ := 2 * (N / d) + if N % d = 0 then 0 else 1

/-- The quotient with the sticky bit compares with every integer as the exact quotient does. -/
theorem stickyQuotient_compare {d : ℕ} (hd : 0 < d) (N : ℕ) (w : ℤ) :
    ((w : ℚ) ≤ N / d ↔ 2 * w ≤ stickyQuotient N d) ∧ ((N : ℚ) / d ≤ w ↔ (stickyQuotient N d : ℤ) ≤ 2 * w) := by
  have hdq : (0 : ℚ) < d := by exact_mod_cast hd
  have hdz : (0 : ℤ) < d := by exact_mod_cast hd
  have hdiv : (d : ℤ) * (N / d : ℕ) + (N % d : ℕ) = N := by exact_mod_cast Nat.div_add_mod N d
  have hmod : ((N % d : ℕ) : ℤ) < d := by exact_mod_cast Nat.mod_lt N hd
  have hlower : (w : ℚ) ≤ N / d ↔ w ≤ (N / d : ℕ) := by
    rw [le_div_iff₀ hdq, Int.natCast_div, Int.le_ediv_iff_mul_le hdz]; exact_mod_cast Iff.rfl
  have hupper : (N : ℚ) / d ≤ w ↔ (N : ℤ) ≤ w * d := by
    rw [div_le_iff₀ hdq]; exact_mod_cast Iff.rfl
  rw [hlower, hupper, stickyQuotient, ← hdiv]
  generalize N / d = Q at *
  generalize N % d = R at *
  constructor
  · split <;> push_cast <;> omega
  · split
    case isTrue h0 => subst h0; push_cast; constructor <;> intro h <;> nlinarith
    case isFalse h0 =>
      push_cast
      constructor
      · intro h
        have : (Q : ℤ) < w := by
          by_contra hle; nlinarith [show (0 : ℤ) < R by omega]
        omega
      · intro h
        have : (Q : ℤ) + 1 ≤ w := by omega
        nlinarith

/-- Cutting off at least one bit of a quotient, the sticky bit stands for what is left. -/
theorem sameHalves_stickyQuotient {d : ℕ} (hd : 0 < d) (N j : ℕ) :
    SameHalves (N / d / 2 ^ (j + 1)) (stickyQuotient N d / 2 ^ (j + 2)) := by
  intro z
  obtain ⟨hlo, hhi⟩ := stickyQuotient_compare hd N (z * 2 ^ j)
  have h2 : (0 : ℚ) < 2 ^ j := by positivity
  have hx : 2 * ((N : ℚ) / d / 2 ^ (j + 1)) = N / d / 2 ^ j := by rw [pow_succ]; field_simp
  have hm : 2 * ((stickyQuotient N d : ℚ) / 2 ^ (j + 2)) = stickyQuotient N d / 2 / 2 ^ j := by
    rw [pow_add]; field_simp
  rw [hx, hm, le_div_iff₀ h2, le_div_iff₀ h2, div_le_iff₀ h2, div_le_iff₀ h2, le_div_iff₀ (two_pos : (0 : ℚ) < 2),
    div_le_iff₀ (two_pos : (0 : ℚ) < 2)]
  push_cast at hlo hhi
  rw [hlo, hhi]
  constructor
  · rw [← Int.cast_le (R := ℚ)]; push_cast; rw [mul_comm 2]
  · rw [← Int.cast_le (R := ℚ)]; push_cast; rw [mul_comm 2]

theorem roundRatio_eq (neg : Bool) (n d : ℕ) (e : ℤ) :
    F64.roundRatio neg n d e =
      F64.round neg (stickyQuotient (n <<< (d.log2 + 62)) d) (e - (d.log2 + 62 : ℕ) - 1) := rfl

/-- The quotient is kept to more than 60 significant bits. -/
theorem two_pow_le_stickyQuotient {n d : ℕ} (hn : n ≠ 0) (hd : 0 < d) :
    2 ^ 62 ≤ stickyQuotient (n <<< (d.log2 + 62)) d := by
  have hbound : 2 ^ 61 * d ≤ n <<< (d.log2 + 62) := by
    have hlog : d ≤ 2 ^ (d.log2 + 1) := Nat.lt_log2_self.le
    rw [Nat.shiftLeft_eq, show d.log2 + 62 = d.log2 + 1 + 61 by omega, Nat.pow_add]
    generalize 2 ^ (d.log2 + 1) = D at *
    generalize 2 ^ 61 = A
    calc A * d ≤ A * D := Nat.mul_le_mul_left _ hlog
      _ = 1 * (D * A) := by ring
      _ ≤ n * (D * A) := Nat.mul_le_mul_right _ (Nat.pos_of_ne_zero hn)
  have := (Nat.le_div_iff_mul_le hd).2 hbound
  rw [stickyQuotient]; omega

theorem roundRatio_roundedTo (neg : Bool) (n : ℕ) {d : ℕ} (hd : 0 < d) (e : ℤ) :
    RoundedTo neg (signed neg (n / d * 2 ^ e)) (F64.roundRatio neg n d e) := by
  rw [roundRatio_eq]
  by_cases hn : n = 0
  · subst hn
    simpa [stickyQuotient, F64.round] using zero_roundedTo neg
  have hd0 : (d : ℚ) ≠ 0 := by exact_mod_cast hd.ne'
  have hbig := two_pow_le_stickyQuotient hn hd
  have hm : stickyQuotient (n <<< (d.log2 + 62)) d ≠ 0 := by omega
  have hlog := (Nat.le_log2 hm).2 hbig
  set k := d.log2 + 62 with hk
  set m := stickyQuotient (n <<< k) d with hmdef
  set f := e - (k : ℕ) - 1 with hf
  set u := (resultUnit m f : ℤ) - 1074 with hu
  obtain ⟨j, hj⟩ : ∃ j : ℕ, u - f = (j + 2 : ℕ) := by
    refine ⟨(u - f - 2).toNat, ?_⟩
    rw [hu, resultUnit]; omega
  have hcut : (m : ℚ) * 2 ^ (f - u) = m / 2 ^ (j + 2) := by
    rw [div_eq_mul_inv, ← zpow_natCast, ← zpow_neg, ← hj, neg_sub]
  have hexact : (n : ℚ) / d * 2 ^ (e - u) = (n <<< k : ℕ) / d / 2 ^ (j + 1) := by
    have he : e - u = k - (j + 1 : ℕ) := by omega
    rw [he, zpow_sub₀ two_ne_zero, zpow_natCast, zpow_natCast, Nat.shiftLeft_eq]
    push_cast; ring
  have hsame := sameHalves_stickyQuotient hd (n <<< k) j
  rw [← hexact, ← hcut] at hsame
  have := round_roundedTo_of_sameHalves neg hm f hsame
  rwa [zpow_sub_mul_zpow] at this

/-! ### O40 -/

/-- Settles O40: the integer part is `roundShift_bounds`, the other three are the nearest number's position. -/
theorem roundsToNearestEven : Obligations.RoundsToNearestEven := by
  refine ⟨fun n k => ?_, round_roundedTo, fun neg n d e hd => roundRatio_roundedTo neg n hd e, fun n => ?_⟩
  · have hcast : (roundShift n k : ℤ) * 2 ^ k = (roundShift n k * 2 ^ k : ℕ) := by push_cast; rfl
    obtain ⟨hlo, hhi, htie⟩ := roundShift_bounds n k
    rw [hcast]
    generalize roundShift n k * 2 ^ k = t at *
    generalize 2 ^ k = P at *
    exact ⟨by omega, fun _ => htie (by omega)⟩
  · simpa [signed, F64.ofNat] using round_roundedTo false n 0

end Sys2Proof.Machine
end

section
/-! SUPPORT. The binary64 operations on numbers: exact results rounded once, the order, the integer parts (00_scope.md R9). -/

namespace Sys2Proof.Machine

/-! ### What kind of pattern it is -/

theorem infinityOf_eq (neg : Bool) : infinityOf neg = F64.infinity neg := by cases neg <;> rfl

/-- A number is neither NaN nor an infinity. -/
theorem not_nan_not_infinity_of_number {x : F64} (h : holdsNumber x = true) :
    holdsNaN x = false ∧ holdsInfinity x = false := by
  have := (holdsNumber_iff x).1 h
  simp only [← Bool.not_eq_true, holdsNaN_iff, holdsInfinity_iff]; omega

/-- An infinity is neither NaN nor a zero. -/
theorem not_nan_not_zero_of_infinity {x : F64} (h : holdsInfinity x = true) :
    holdsNaN x = false ∧ holdsZero x = false := by
  have := (holdsInfinity_iff x).1 h
  simp only [← Bool.not_eq_true, holdsNaN_iff, holdsZero_iff]; omega

theorem holdsNumber_of_holdsZero {x : F64} (h : holdsZero x = true) : holdsNumber x = true := by
  have := (holdsZero_iff x).1 h
  rw [holdsNumber_iff]; omega

theorem number_of_not_nan_of_not_infinity {x : F64} (hn : holdsNaN x = false) (hi : holdsInfinity x = false) :
    holdsNumber x = true := by
  rw [holdsNaN, hi] at hn; simpa using hn

/-- An infinity is its sign. -/
theorem eq_infinityOf_msb {x : F64} (h : holdsInfinity x = true) : x = infinityOf x.msb := by
  rw [infinityOf_eq]
  refine eq_of_msb_eq_of_position_eq (msb_infinity _).symm ?_
  rw [(holdsInfinity_iff x).1 h, (holdsInfinity_iff _).1 (holdsInfinity_infinity _)]

theorem sig_ne_zero {x : F64} (hx : holdsNumber x = true) (h : holdsZero x = false) : F64.sig x ≠ 0 := by
  rw [holdsZero_eq, F64.isZero, ← holdsNumber_eq, hx] at h; simpa using h

/-- The number of a pattern, its sign apart. -/
theorem valueOf_eq_signed_sig (x : F64) : valueOf x = signed x.msb (F64.sig x * 2 ^ F64.ulp x) := by
  rw [valueOf_eq, F64.signedSig, F64.sign, signed]
  split <;> push_cast <;> ring

/-! ### The number with the other sign -/

@[simp] theorem msb_flip (x : F64) : (F64.flip x).msb = !x.msb := F64.sign_flip x

@[simp] theorem holdsNumber_flip (x : F64) : holdsNumber (F64.flip x) = holdsNumber x := by
  simp [holdsNumber_eq, F64.isFinite]

@[simp] theorem holdsInfinity_flip (x : F64) : holdsInfinity (F64.flip x) = holdsInfinity x := by
  simp [holdsInfinity_eq]

@[simp] theorem holdsNaN_flip (x : F64) : holdsNaN (F64.flip x) = holdsNaN x := by simp [holdsNaN_eq]

@[simp] theorem valueOf_flip (x : F64) : valueOf (F64.flip x) = -valueOf x := by simp [valueOf_eq]

/-! ### What rounding gives -/

theorem not_nan_of_roundedTo {neg : Bool} {q : ℚ} {x : F64} (h : RoundedTo neg q x) : holdsNaN x = false := by
  obtain ⟨-, hnum, hinf⟩ := h
  rcases lt_or_ge |q| overflowBound with hq | hq
  · exact (not_nan_not_infinity_of_number (hnum hq).1).1
  · exact (not_nan_not_zero_of_infinity (hinf hq)).1

theorem magnitude_lt_overflowBound {L : ℕ} (h : L < 0x7FF0000000000000) : magnitude L < overflowBound := by
  have hle := midpoint_strictMono.monotone (show L ≤ 0x7FEFFFFFFFFFFFFF by omega)
  have hlt := magnitude_strictMono (Nat.lt_succ_self L)
  rw [← midpoint_largest]
  rw [midpoint] at hle
  linarith

/-- The number a pattern holds, rounded with the pattern's sign, is the pattern: no other pattern of that sign holds it. -/
theorem eq_of_roundedTo_valueOf {x y : F64} (hx : holdsNumber x = true) (h : RoundedTo x.msb (valueOf x) y) : y = x := by
  obtain ⟨hsign, hnum, -⟩ := h
  have hlt : |valueOf x| < overflowBound := by
    rw [valueOf_eq_signed_magnitude, abs_signed, abs_of_nonneg (magnitude_nonneg _)]
    exact magnitude_lt_overflowBound ((holdsNumber_iff x).1 hx)
  have hle := ((hnum hlt).2 x hx).1
  rw [sub_self, abs_zero, valueOf_eq_signed_magnitude, valueOf_eq_signed_magnitude x, hsign, abs_signed_sub_signed] at hle
  have hmag : magnitude (position y) = magnitude (position x) :=
    sub_eq_zero.1 (abs_eq_zero.1 (le_antisymm hle (abs_nonneg _)))
  exact eq_of_msb_eq_of_position_eq hsign (magnitude_strictMono.injective hmag)

/-! ### Sums and differences -/

/-- The sum of two numbers, in whole units of the smaller exponent. -/
def sumUnits (a b : F64) : ℤ :=
  F64.signedSig a * 2 ^ (F64.ulp a - min (F64.ulp a) (F64.ulp b)).toNat +
    F64.signedSig b * 2 ^ (F64.ulp b - min (F64.ulp a) (F64.ulp b)).toNat

theorem valueOf_add_valueOf (a b : F64) :
    valueOf a + valueOf b = sumUnits a b * 2 ^ min (F64.ulp a) (F64.ulp b) := by
  have hscale : ∀ u e : ℤ, e ≤ u → (2 : ℚ) ^ u = 2 ^ (u - e).toNat * 2 ^ e := fun u e h => by
    rw [← zpow_natCast, ← zpow_add₀ two_ne_zero]; congr 1; omega
  rw [valueOf_eq, valueOf_eq, hscale _ _ (min_le_left (F64.ulp a) (F64.ulp b)),
    hscale _ _ (min_le_right (F64.ulp a) (F64.ulp b)), sumUnits]
  push_cast; ring

theorem sum?_of_numbers {a b : F64} (ha : holdsNumber a = true) (hb : holdsNumber b = true) :
    F64.sum? a b = some (if sumUnits a b = 0 then F64.zero (a.msb && b.msb)
      else F64.round (decide (sumUnits a b < 0)) (sumUnits a b).natAbs (min (F64.ulp a) (F64.ulp b))) := by
  rw [holdsNumber_eq] at ha hb
  simp only [F64.sum?, F64.not_isNaN_of_isFinite ha, F64.not_isNaN_of_isFinite hb, F64.not_isInf_of_isFinite ha,
    F64.not_isInf_of_isFinite hb, Bool.or_self, Bool.false_eq_true, if_false, sumUnits]
  rfl

/-- An integer is its magnitude with its sign. -/
theorem signed_natAbs (z : ℤ) (q : ℚ) : signed (decide (z < 0)) (z.natAbs * q) = z * q := by
  rw [Nat.cast_natAbs, Int.cast_abs, signed]
  split
  case isTrue h => rw [abs_of_neg (by simpa using h)]; ring
  case isFalse h => rw [abs_of_nonneg (by simpa using h)]

/-- The sign of a sum of numbers: that of the exact sum, and that of both operands where it is zero. -/
def sumSign (a b : F64) : Bool :=
  if valueOf a + valueOf b = 0 then a.msb && b.msb else decide (valueOf a + valueOf b < 0)

theorem sum?_roundedTo {a b : F64} (ha : holdsNumber a = true) (hb : holdsNumber b = true) :
    ∃ r, F64.sum? a b = some r ∧ RoundedTo (sumSign a b) (valueOf a + valueOf b) r := by
  refine ⟨_, sum?_of_numbers ha hb, ?_⟩
  have hpos : (0 : ℚ) < 2 ^ min (F64.ulp a) (F64.ulp b) := by positivity
  rw [sumSign, valueOf_add_valueOf]
  by_cases h0 : sumUnits a b = 0
  · simpa [h0, signed] using zero_roundedTo (a.msb && b.msb)
  · have hne : (sumUnits a b : ℚ) * 2 ^ min (F64.ulp a) (F64.ulp b) ≠ 0 :=
      mul_ne_zero (Int.cast_ne_zero.2 h0) hpos.ne'
    have hneg : (sumUnits a b : ℚ) * 2 ^ min (F64.ulp a) (F64.ulp b) < 0 ↔ sumUnits a b < 0 := by
      rw [← not_le, mul_nonneg_iff_of_pos_right hpos, not_le, Int.cast_lt_zero]
    rw [if_neg hne, if_neg h0, decide_eq_decide.2 hneg, ← signed_natAbs]
    exact round_roundedTo _ _ _

theorem fadd_roundedTo {a b : F64} (ha : holdsNumber a = true) (hb : holdsNumber b = true) :
    RoundedTo (sumSign a b) (valueOf a + valueOf b) (F64.fadd a b) := by
  obtain ⟨r, hr, hround⟩ := sum?_roundedTo ha hb
  rw [F64.fadd, hr]; exact hround

theorem fsub_roundedTo {a b : F64} (ha : holdsNumber a = true) (hb : holdsNumber b = true) :
    RoundedTo (sumSign a (F64.flip b)) (valueOf a - valueOf b) (F64.fsub a b) := by
  obtain ⟨r, hr, hround⟩ := sum?_roundedTo ha ((holdsNumber_flip b).trans hb)
  rw [F64.fsub, hr, sub_eq_add_neg, ← valueOf_flip]; exact hround

/-! ### Products and quotients -/

/-- fmul by what its operands hold. -/
theorem fmul_eq (a b : F64) :
    F64.fmul a b =
      if holdsNaN a || holdsNaN b || holdsInfinity a && holdsZero b || holdsZero a && holdsInfinity b then
        F64.nanResult .mul a b
      else if holdsInfinity a || holdsInfinity b then infinityOf (a.msb != b.msb)
      else F64.round (a.msb != b.msb) (F64.sig a * F64.sig b) (F64.ulp a + F64.ulp b) := by
  simp only [holdsNaN_eq, holdsInfinity_eq, holdsZero_eq, infinityOf_eq]; rfl

/-- fdiv by what its operands hold. -/
theorem fdiv_eq (a b : F64) :
    F64.fdiv a b =
      if holdsNaN a || holdsNaN b || holdsInfinity a && holdsInfinity b || holdsZero a && holdsZero b then
        F64.nanResult .div a b
      else if holdsInfinity a || holdsZero b then infinityOf (a.msb != b.msb)
      else if holdsInfinity b then F64.zero (a.msb != b.msb)
      else F64.roundRatio (a.msb != b.msb) (F64.sig a) (F64.sig b) (F64.ulp a - F64.ulp b) := by
  simp only [holdsNaN_eq, holdsInfinity_eq, holdsZero_eq, infinityOf_eq]; rfl

theorem signed_mul_signed (s t : Bool) (p q : ℚ) : signed s p * signed t q = signed (s != t) (p * q) := by
  cases s <;> cases t <;> simp [signed]

theorem signed_div_signed (s t : Bool) (p q : ℚ) : signed s p / signed t q = signed (s != t) (p / q) := by
  cases s <;> cases t <;> simp [signed, neg_div, div_neg]

theorem fmul_roundedTo {a b : F64} (ha : holdsNumber a = true) (hb : holdsNumber b = true) :
    RoundedTo (a.msb != b.msb) (valueOf a * valueOf b) (F64.fmul a b) := by
  obtain ⟨hna, hia⟩ := not_nan_not_infinity_of_number ha
  obtain ⟨hnb, hib⟩ := not_nan_not_infinity_of_number hb
  have hval : valueOf a * valueOf b =
      signed (a.msb != b.msb) ((F64.sig a * F64.sig b : ℕ) * 2 ^ (F64.ulp a + F64.ulp b)) := by
    rw [valueOf_eq_signed_sig, valueOf_eq_signed_sig b, signed_mul_signed, zpow_add₀ two_ne_zero]
    push_cast; congr 1; ring
  rw [fmul_eq, hval]
  simpa [hna, hia, hnb, hib] using
    round_roundedTo (a.msb != b.msb) (F64.sig a * F64.sig b) (F64.ulp a + F64.ulp b)

theorem fdiv_roundedTo {a b : F64} (ha : holdsNumber a = true) (hb : holdsNumber b = true) (hz : holdsZero b = false) :
    RoundedTo (a.msb != b.msb) (valueOf a / valueOf b) (F64.fdiv a b) := by
  obtain ⟨hna, hia⟩ := not_nan_not_infinity_of_number ha
  obtain ⟨hnb, hib⟩ := not_nan_not_infinity_of_number hb
  have hval : valueOf a / valueOf b =
      signed (a.msb != b.msb) (F64.sig a / F64.sig b * 2 ^ (F64.ulp a - F64.ulp b)) := by
    rw [valueOf_eq_signed_sig, valueOf_eq_signed_sig b, signed_div_signed, zpow_sub₀ two_ne_zero, div_mul_div_comm]
  rw [fdiv_eq, hval]
  simpa [hna, hia, hnb, hib, hz] using
    roundRatio_roundedTo _ _ (Nat.pos_of_ne_zero (sig_ne_zero hb hz)) (F64.ulp a - F64.ulp b)

/-! ### O49, O41 -/

/-- Settles O49, operation by operation; a difference is the sum with the other sign. -/
theorem arithmeticRoundsOnce : Obligations.ArithmeticRoundsOnce := by
  intro a b ha hb
  have hsub := fsub_roundedTo ha hb
  rw [sumSign, valueOf_flip, ← sub_eq_add_neg, msb_flip] at hsub
  exact ⟨fadd_roundedTo ha hb, hsub, fmul_roundedTo ha hb, fdiv_roundedTo ha hb⟩

theorem msb_eq_decide_valueOf_neg {x : F64} (h : valueOf x ≠ 0) : x.msb = decide (valueOf x < 0) := by
  have := magnitude_nonneg (position x)
  rw [valueOf_eq_signed_magnitude] at *
  generalize x.msb = neg at *
  cases neg
  · simpa [signed] using this
  · have hne : magnitude (position x) ≠ 0 := by simpa [signed] using h
    simpa [signed] using lt_of_le_of_ne this hne.symm

/-- Settles O41: each of the three is a rounding of a number that the pattern given back holds. -/
theorem representableNumbersKept : Obligations.RepresentableNumbersKept := by
  intro x hfin
  have hx : holdsNumber x = true := (holdsNumber_eq x).trans hfin
  have hzero : holdsNumber 0 = true := by decide
  have hval : valueOf 0 = 0 := by
    rw [valueOf_eq_signed_magnitude, show position 0 = 0 by rfl, magnitude_zero]; rfl
  refine ⟨?_, ?_, ?_⟩
  · refine eq_of_roundedTo_valueOf hx ?_
    rw [valueOf_eq_signed_sig]
    exact round_roundedTo _ _ _
  · refine eq_of_roundedTo_valueOf hx ?_
    have hsign : sumSign x (F64.flip 0) = x.msb := by
      rw [sumSign, valueOf_flip, hval, neg_zero, add_zero, msb_flip]
      split
      case isTrue h => simp
      case isFalse h => exact (msb_eq_decide_valueOf_neg h).symm
    have := fsub_roundedTo hx hzero
    rwa [hsign, hval, sub_zero] at this
  · refine eq_of_roundedTo_valueOf hzero ?_
    have hsign : sumSign x (F64.flip x) = (0 : F64).msb := by simp [sumSign]
    have := fsub_roundedTo hx hx
    rwa [hsign, sub_self, ← hval] at this

/-! ### O42: the order -/

/-- The key orders the numbers as their values do. -/
theorem valueOf_lt_iff_key_lt (a b : F64) : valueOf a < valueOf b ↔ F64.key a < F64.key b := by
  have hpos : ∀ L, 0 < magnitude L ↔ 0 < L := fun L => by rw [← magnitude_zero, magnitude_strictMono.lt_iff_lt]
  have hA := magnitude_nonneg (position a)
  have hB := magnitude_nonneg (position b)
  have hlt := magnitude_strictMono.lt_iff_lt (a := position a) (b := position b)
  have hgt := magnitude_strictMono.lt_iff_lt (a := position b) (b := position a)
  have hA0 := hpos (position a)
  have hB0 := hpos (position b)
  rw [valueOf_eq_signed_magnitude, valueOf_eq_signed_magnitude, key_eq, key_eq]
  cases a.msb <;> cases b.msb <;> simp only [signed, if_true, Bool.false_eq_true, if_false]
  · rw [hlt]; omega
  · constructor
    · intro h; linarith
    · intro h; omega
  · constructor
    · intro h
      have : 0 < magnitude (position a) ∨ 0 < magnitude (position b) := by
        by_contra hc; push Not at hc; linarith
      rw [hA0, hB0] at this; omega
    · intro h
      have : 0 < position a ∨ 0 < position b := by omega
      rw [← hA0, ← hB0] at this
      rcases this with h | h <;> linarith
  · rw [neg_lt_neg_iff, hgt]; omega

theorem flt_of_not_nan {a b : F64} (ha : holdsNaN a = false) (hb : holdsNaN b = false) :
    F64.flt a b = decide (F64.key a < F64.key b) := by
  rw [holdsNaN_eq] at ha hb; simp [F64.flt, ha, hb]

theorem key_of_infinity {x : F64} (h : holdsInfinity x = true) :
    F64.key x = if x.msb then -0x7FF0000000000000 else 0x7FF0000000000000 := by
  rw [key_eq, (holdsInfinity_iff x).1 h]; rfl

/-- Only an infinity has the greatest or the least key that is not NaN's. -/
theorem key_bounds {x : F64} (h : holdsNaN x = false) :
    -0x7FF0000000000000 ≤ F64.key x ∧ F64.key x ≤ 0x7FF0000000000000 := by
  have := mt (holdsNaN_iff x).2 (Bool.eq_false_iff.1 h)
  rw [key_eq]; split <;> omega

theorem key_eq_iff_of_infinity {x y : F64} (h : holdsInfinity x = true) : F64.key x = F64.key y ↔ x = y := by
  refine ⟨fun heq => ?_, fun heq => by rw [heq]⟩
  have hpos := (holdsInfinity_iff x).1 h
  rw [key_eq, key_eq, hpos] at heq
  have hsign : x.msb = y.msb := by
    cases hx : x.msb <;> cases hy : y.msb <;> simp only [hx, hy, if_true, Bool.false_eq_true, if_false] at heq ⊢ <;>
      omega
  refine eq_of_msb_eq_of_position_eq hsign ?_
  rw [hsign] at heq
  split at heq <;> omega

/-- Settles O42: the key orders the values, with the infinities at its ends. -/
theorem comparisonOfValues : Obligations.ComparisonOfValues := by
  intro a b
  refine ⟨fun h => ?_, fun ha hb => ?_, fun ha hb => ?_, fun hb ha => ?_⟩
  · rw [holdsNaN_eq, holdsNaN_eq] at h
    rcases h with h | h <;> simp [F64.flt, h]
  · rw [flt_of_not_nan (not_nan_not_infinity_of_number ha).1 (not_nan_not_infinity_of_number hb).1, decide_eq_true_iff,
      valueOf_lt_iff_key_lt]
  · have hkey := key_of_infinity ha
    have hne := key_eq_iff_of_infinity (y := b) ha
    obtain ⟨hlo, hhi⟩ := key_bounds hb
    rw [flt_of_not_nan (not_nan_not_zero_of_infinity ha).1 hb, Bool.eq_iff_iff, decide_eq_true_iff, Bool.and_eq_true,
      bne_iff_ne, ne_eq, ← hne]
    split at hkey
    case isTrue hs => simp only [hs, true_and]; omega
    case isFalse hs => simp only [hs, Bool.false_eq_true, false_and, iff_false]; omega
  · have hkey := key_of_infinity hb
    have hne := key_eq_iff_of_infinity (y := a) hb
    obtain ⟨hlo, hhi⟩ := key_bounds ha
    rw [flt_of_not_nan ha (not_nan_not_zero_of_infinity hb).1, Bool.eq_iff_iff, decide_eq_true_iff, Bool.and_eq_true,
      bne_iff_ne, ne_eq, eq_comm (a := a), ← hne, Bool.not_eq_true']
    split at hkey
    case isTrue hs => simp only [hs, Bool.true_eq_false, false_and, iff_false]; omega
    case isFalse hs => simp only [Bool.eq_false_iff.2 hs, true_and]; omega

/-! ### O51: the integer parts -/

theorem floorInt_eq (x : F64) : F64.floorInt x = ⌊valueOf x⌋ := by
  rw [F64.floorInt, valueOf_eq]
  split
  case isTrue h =>
    have : (2 : ℚ) ^ F64.ulp x = (2 ^ (F64.ulp x).toNat : ℤ) := by
      push_cast; rw [← zpow_natCast, Int.toNat_of_nonneg h]
    rw [this, ← Int.cast_mul, Int.floor_intCast]
  case isFalse h =>
    have : (F64.signedSig x : ℚ) * 2 ^ F64.ulp x = F64.signedSig x / (2 ^ (-F64.ulp x).toNat : ℕ) := by
      push_cast; rw [← zpow_natCast, Int.toNat_of_nonneg (by omega), zpow_neg, div_inv_eq_mul]
    rw [this, Rat.floor_intCast_div_natCast]; push_cast; rfl

/-- The ceiling is the floor of the number with the other sign, with its sign changed back. -/
theorem ceilInt_eq_neg_floorInt_flip (x : F64) : F64.ceilInt x = -F64.floorInt (F64.flip x) := by
  rw [F64.ceilInt, F64.floorInt, F64.ulp_flip, F64.signedSig_flip]
  split
  · rw [neg_mul, neg_neg]
  · rfl

/-- Settles O51. -/
theorem integerPartsOfNumbers : Obligations.IntegerPartsOfNumbers := by
  intro x _
  refine ⟨?_, floorInt_eq x⟩
  rw [ceilInt_eq_neg_floorInt_flip, floorInt_eq, valueOf_flip, Int.floor_neg, neg_neg]

end Sys2Proof.Machine
end

section
/-! SUPPORT. The binary64 operations on infinities, NaN and zero divisors (assumption log 5), and the computed defaults of
00_scope.md R6. -/

namespace Sys2Proof.Machine

theorem holdsNaN_nanResult (op : Config.FloatOp) (a b : F64) : holdsNaN (F64.nanResult op a b) = true :=
  (holdsNaN_eq _).trans (F64.isNaN_nanResult op a b)

@[simp] theorem holdsInfinity_infinityOf (neg : Bool) : holdsInfinity (infinityOf neg) = true := by
  rw [infinityOf_eq, holdsInfinity_infinity]

@[simp] theorem holdsNaN_infinityOf (neg : Bool) : holdsNaN (infinityOf neg) = false :=
  (not_nan_not_zero_of_infinity (holdsInfinity_infinityOf neg)).1

/-! ### Sums and differences -/

/-- The sum is NaN: an operand is, or infinities of opposite signs are added. -/
def sumInvalid (a b : F64) : Bool :=
  holdsNaN a || holdsNaN b || holdsInfinity a && holdsInfinity b && (a.msb != b.msb)

/-- The sum beyond numbers: none where it is invalid, else the operand that is an infinity. -/
theorem sum?_eq (a b : F64) :
    F64.sum? a b =
      if sumInvalid a b then none
      else if holdsInfinity a then some a
      else if holdsInfinity b then some b
      else some (if sumUnits a b = 0 then F64.zero (a.msb && b.msb)
        else F64.round (decide (sumUnits a b < 0)) (sumUnits a b).natAbs (min (F64.ulp a) (F64.ulp b))) := by
  rw [F64.sum?, sumInvalid, ← holdsNaN_eq, ← holdsNaN_eq, ← holdsInfinity_eq, ← holdsInfinity_eq]
  by_cases hn : (holdsNaN a || holdsNaN b) = true
  · rw [if_pos hn, if_pos (by rw [hn, Bool.true_or])]
  · rw [if_neg hn, Bool.eq_false_iff.2 hn, Bool.false_or]
    cases holdsInfinity a <;> rfl

theorem not_nan_of_sum?_eq_some {a b r : F64} (h : F64.sum? a b = some r) : holdsNaN r = false := by
  have heq := sum?_eq a b
  rw [h] at heq
  cases hv : sumInvalid a b
  case true => simp [hv] at heq
  rw [hv] at heq
  simp only [sumInvalid, Bool.or_eq_false_iff] at hv
  obtain ⟨⟨hna, hnb⟩, -⟩ := hv
  cases ha : holdsInfinity a
  case true => rw [ha] at heq; rw [Option.some.inj heq]; exact hna
  cases hb : holdsInfinity b
  case true => rw [ha, hb] at heq; rw [Option.some.inj heq]; exact hnb
  obtain ⟨r', hr', hround⟩ :=
    sum?_roundedTo (number_of_not_nan_of_not_infinity hna ha) (number_of_not_nan_of_not_infinity hnb hb)
  rw [Option.some.inj (h.symm.trans hr')]
  exact not_nan_of_roundedTo hround

theorem holdsNaN_sum?_getD {nan : F64} (hnan : holdsNaN nan = true) (a b : F64) :
    holdsNaN ((F64.sum? a b).getD nan) = sumInvalid a b := by
  cases h : F64.sum? a b with
  | none =>
    rw [sum?_eq] at h
    rw [Option.getD_none, hnan]
    split at h
    case isTrue hv => exact hv.symm
    case isFalse => split_ifs at h
  | some r =>
    rw [Option.getD_some, not_nan_of_sum?_eq_some h]
    rw [sum?_eq] at h
    split at h
    case isTrue => cases h
    case isFalse hv => exact (Bool.eq_false_iff.2 hv).symm

theorem sumInvalid_flip (a b : F64) :
    sumInvalid a (F64.flip b) = (holdsNaN a || holdsNaN b || holdsInfinity a && holdsInfinity b && (a.msb == b.msb)) := by
  rw [sumInvalid, holdsNaN_flip, holdsInfinity_flip, msb_flip]
  cases a.msb <;> cases b.msb <;> rfl

/-- An infinity is kept by a valid sum. -/
theorem sum?_infinity_left {a b : F64} (ha : holdsInfinity a = true) (h : sumInvalid a b = false) :
    F64.sum? a b = some a := by
  rw [sum?_eq, h, ha]; rfl

theorem sum?_number_infinity {a b : F64} (ha : holdsNumber a = true) (hb : holdsInfinity b = true) :
    F64.sum? a b = some b := by
  obtain ⟨hna, hia⟩ := not_nan_not_infinity_of_number ha
  have hnb := (not_nan_not_zero_of_infinity hb).1
  rw [sum?_eq, sumInvalid, hna, hia, hnb, hb]; rfl

theorem sumInvalid_infinity_number {a b : F64} (ha : holdsInfinity a = true) (hb : holdsNumber b = true) :
    sumInvalid a b = false := by
  obtain ⟨hnb, hib⟩ := not_nan_not_infinity_of_number hb
  rw [sumInvalid, (not_nan_not_zero_of_infinity ha).1, hnb, hib, Bool.and_false]; rfl

/-- Infinities of one sign can be added. -/
theorem sumInvalid_infinities {a b : F64} (ha : holdsInfinity a = true) (hb : holdsInfinity b = true) (h : a.msb = b.msb) :
    sumInvalid a b = false := by
  rw [sumInvalid, (not_nan_not_zero_of_infinity ha).1, (not_nan_not_zero_of_infinity hb).1, h, bne_self_eq_false,
    Bool.and_false]; rfl

theorem flip_infinity {a : F64} (ha : holdsInfinity a = true) : F64.flip a = infinityOf (!a.msb) := by
  rw [← msb_flip]; exact eq_infinityOf_msb ((holdsInfinity_flip a).trans ha)

/-! ### Products and quotients -/

theorem holdsNaN_fmul (a b : F64) :
    holdsNaN (F64.fmul a b) =
      (holdsNaN a || holdsNaN b || holdsInfinity a && holdsZero b || holdsZero a && holdsInfinity b) := by
  rw [fmul_eq]
  split
  case isTrue h => rw [h]; exact holdsNaN_nanResult _ _ _
  case isFalse h =>
    rw [Bool.eq_false_iff.2 h]
    split
    · exact holdsNaN_infinityOf _
    · exact not_nan_of_roundedTo (round_roundedTo _ _ _)

theorem holdsNaN_fdiv (a b : F64) :
    holdsNaN (F64.fdiv a b) =
      (holdsNaN a || holdsNaN b || holdsInfinity a && holdsInfinity b || holdsZero a && holdsZero b) := by
  rw [fdiv_eq]
  split
  case isTrue h => rw [h]; exact holdsNaN_nanResult _ _ _
  case isFalse h =>
    rw [Bool.eq_false_iff.2 h]
    simp only [Bool.or_eq_true, not_or, Bool.not_eq_true] at h
    obtain ⟨⟨⟨-, hnb⟩, -⟩, -⟩ := h
    split
    · exact holdsNaN_infinityOf _
    case isFalse hz =>
      split
      · exact (not_nan_not_infinity_of_number (holdsNumber_of_holdsZero (holdsZero_zero _))).1
      case isFalse hib =>
        have hb := number_of_not_nan_of_not_infinity hnb (Bool.eq_false_iff.2 hib)
        simp only [Bool.or_eq_true, not_or, Bool.not_eq_true] at hz
        exact not_nan_of_roundedTo (roundRatio_roundedTo _ _ (Nat.pos_of_ne_zero (sig_ne_zero hb hz.2)) _)

/-- A valid product with an infinity is an infinity. -/
theorem fmul_infinity {a b : F64} (hinf : (holdsInfinity a || holdsInfinity b) = true)
    (h : holdsNaN (F64.fmul a b) = false) : F64.fmul a b = infinityOf (a.msb != b.msb) := by
  rw [holdsNaN_fmul] at h
  rw [fmul_eq, h, hinf]; rfl

/-- A valid quotient of an infinity, or by a zero, is an infinity. -/
theorem fdiv_infinity {a b : F64} (hinf : (holdsInfinity a || holdsZero b) = true)
    (h : holdsNaN (F64.fdiv a b) = false) : F64.fdiv a b = infinityOf (a.msb != b.msb) := by
  rw [holdsNaN_fdiv] at h
  rw [fdiv_eq, h, hinf]; rfl

theorem fdiv_number_infinity {a b : F64} (ha : holdsNumber a = true) (hb : holdsInfinity b = true) :
    F64.fdiv a b = F64.zero (a.msb != b.msb) := by
  obtain ⟨hna, hia⟩ := not_nan_not_infinity_of_number ha
  obtain ⟨hnb, hzb⟩ := not_nan_not_zero_of_infinity hb
  simp [fdiv_eq, hna, hia, hnb, hzb, hb]

/-! ### O50, O39 -/

/-- Settles O50: which results are NaN, then the infinity with a number, two infinities, and the zero divisor. -/
theorem arithmeticBeyondNumbers : Obligations.ArithmeticBeyondNumbers := by
  intro a b
  refine ⟨holdsNaN_sum?_getD (holdsNaN_nanResult _ _ _) a b, ?_, holdsNaN_fmul a b, holdsNaN_fdiv a b, fun ha hb => ?_,
    fun ha hb => ?_, fun ha hza hzb => ?_⟩
  · rw [← sumInvalid_flip]; exact holdsNaN_sum?_getD (holdsNaN_nanResult _ _ _) a (F64.flip b)
  · obtain ⟨hna, hza⟩ := not_nan_not_zero_of_infinity ha
    obtain ⟨hnb, hib⟩ := not_nan_not_infinity_of_number hb
    have hb' := (holdsNumber_flip b).trans hb
    refine ⟨?_, ?_, ?_, ?_, fun hzb => ⟨?_, ?_⟩, ?_, ?_, ?_⟩
    · rw [F64.fadd, sum?_infinity_left ha (sumInvalid_infinity_number ha hb)]; rfl
    · rw [F64.fadd, sum?_number_infinity hb ha]; rfl
    · rw [F64.fsub, sum?_infinity_left ha (sumInvalid_infinity_number ha hb')]; rfl
    · rw [F64.fsub, sum?_number_infinity hb ((holdsInfinity_flip a).trans ha), flip_infinity ha]; rfl
    · exact fmul_infinity (by simp [ha]) (by simp [holdsNaN_fmul, hna, hnb, hza, hzb])
    · rw [bne_comm]
      exact fmul_infinity (by simp [ha]) (by simp [holdsNaN_fmul, hna, hnb, hza, hzb])
    · exact fdiv_infinity (by simp [ha]) (by simp [holdsNaN_fdiv, hna, hnb, hza, hib])
    · rw [fdiv_number_infinity hb ha]; exact holdsZero_zero _
    · rw [fdiv_number_infinity hb ha, msb_zero, bne_comm]
  · obtain ⟨hna, hza⟩ := not_nan_not_zero_of_infinity ha
    obtain ⟨hnb, hzb⟩ := not_nan_not_zero_of_infinity hb
    refine ⟨fun hs => ?_, fun hs => ?_, ?_⟩
    · rw [F64.fadd, sum?_infinity_left ha (sumInvalid_infinities ha hb hs)]; rfl
    · have hs' : a.msb = (F64.flip b).msb := by rw [msb_flip]; exact Bool.eq_not_of_ne hs
      rw [F64.fsub, sum?_infinity_left ha (sumInvalid_infinities ha ((holdsInfinity_flip b).trans hb) hs')]; rfl
    · exact fmul_infinity (by simp [ha]) (by simp [holdsNaN_fmul, hna, hnb, hza, hzb])
  · obtain ⟨hna, hia⟩ := not_nan_not_infinity_of_number ha
    have hnb := (not_nan_not_infinity_of_number (holdsNumber_of_holdsZero hzb)).1
    exact fdiv_infinity (by simp [hzb]) (by simp [holdsNaN_fdiv, hna, hnb, hia, hza])

/-- Settles O39: each default is a fixed pattern, compared with what it is computed from. -/
theorem protocolConstants : Obligations.ProtocolConstants := by
  refine ⟨?_, ?_, ?_, ?_, ?_, ?_, ?_, ?_, ?_⟩ <;> decide

end Sys2Proof.Machine
end

section
/-! SUPPORT. What the commands do to the state, as a sequence of few effects: what every effect keeps, every command that
ends without a fault keeps. -/

namespace Sys2Proof.Machine

variable {s t : State}

/-! ### The effects of the commands -/

/-- A rate and a number of samples that ContainerCreate is called with: its callers check the rate, or take the platform's
(40_sample_container.md R74). -/
def SizeAccepted (s : State) (sr ns : Nat) : Prop :=
  (rateOk sr = true ∨ sr = s.params.sampleRate) ∧ ns ≤ 0xFFFFFFE3 ∧ ns + s.params.headerBytes ≤ s.params.bufMax

/-- One change of the registers and OUT that a command makes without a fault. -/
inductive Effect : State → State → Prop where
  /-- CHK is cleared or folded. -/
  | setChk (s : State) (v : Byte) : Effect s { s with chk := v }
  /-- Samples are appended at CURSOR. -/
  | append {s : State} {c : Tape} (hbuf : s.created = true ∨ s.synth = true) (hext : (tapeOf s).Extends c) :
      Effect s (commit s c)
  /-- ContainerFinalize. -/
  | finalize {s : State} (hbuf : s.created = true ∨ s.synth = true) : Effect s (padState s).setFinal
  /-- ContainerCreate. -/
  | create {s : State} {sr ns : Nat} (hsize : SizeAccepted s sr ns) : Effect s (createdState sr ns s)
  /-- SynthCreate. -/
  | createSynth {s : State} {sr ns : Nat} (hsize : SizeAccepted s sr ns) : Effect s (synthState sr ns s)

/-- The effects of a command, one after another. -/
abbrev Effects : State → State → Prop := Relation.ReflTransGen Effect

/-- A size that SynthCreate accepts (60_exceptions.md R115) and that fits into OUT. -/
theorem sizeAccepted_of_synthSizeOk {sr : Nat} {d : F64} (hr : rateOk sr = true ∨ sr = s.params.sampleRate)
    (hsize : synthSizeOk s.params sr d = true)
    (hcap : (synthSamples s.params sr d).toNat + s.params.headerBytes ≤ s.params.bufMax) :
    SizeAccepted s sr (synthSamples s.params sr d).toNat := by
  simp only [synthSizeOk, Bool.and_eq_true, decide_eq_true_eq] at hsize
  exact ⟨hr, by omega, hcap⟩

/-- One sample appended is a tape extended by it. -/
theorem tapeOf_extends_singleton (v : Byte) (h : s.cursor.toNat < s.buflen.toNat) :
    (tapeOf s).Extends { tapeOf s with room := (tapeOf s).room - 1, samples := [v] } :=
  ⟨[v], rfl, by simp; omega⟩

/-- ENCODE clears CHK, creates its buffer, appends its stream and pads (43_encoder.md R107). -/
theorem effects_encode {sr ns : Nat} {c : Tape} (hsize : SizeAccepted s sr ns)
    (hext : (tapeOf (synthState sr ns { s with chk := 0 })).Extends c) :
    Effects s (padState (commit (synthState sr ns { s with chk := 0 }) c)).setFinal := by
  have hbuf := synthState_created sr ns { s with chk := 0 }
  have hclear : Effect s { s with chk := 0 } := .setChk s 0
  have hcreate : Effect { s with chk := 0 } (synthState sr ns { s with chk := 0 }) := .createSynth hsize
  have happend : Effect (synthState sr ns { s with chk := 0 }) (commit (synthState sr ns { s with chk := 0 }) c) :=
    .append (.inl hbuf) hext
  have hpad : Effect (commit (synthState sr ns { s with chk := 0 }) c)
      (padState (commit (synthState sr ns { s with chk := 0 }) c)).setFinal := .finalize (.inl hbuf)
  exact (Relation.ReflTransGen.single hclear).tail hcreate |>.tail happend |>.tail hpad

/-- A command that ends answers the state of fault entry, or the state its effects lead to. -/
theorem exec_effects {i : Instr} (h : exec i s = .next t) : (∃ c, t = raise c (encode i) s) ∨ Effects s t := by
  cases i with
  | ccreate =>
    rcases execCcreate_next h with rfl | rfl | ⟨hr, hn, hcap, rfl⟩
    · exact .inl ⟨_, rfl⟩
    · exact .inl ⟨_, rfl⟩
    · exact .inr (.single (.create ⟨.inl hr, hn, hcap⟩))
  | cappend =>
    rcases execCappend_next h with rfl | ⟨hc, ⟨rfl, -⟩ | rfl | ⟨-, hroom, rfl⟩⟩
    · exact .inl ⟨_, rfl⟩
    · exact .inl ⟨_, rfl⟩
    · exact .inl ⟨_, rfl⟩
    · exact .inr (.single (.append (.inl hc) (tapeOf_extends_singleton _ hroom)))
  | cfinal =>
    rcases execCfinal_next h with rfl | ⟨hc, rfl⟩
    · exact .inl ⟨_, rfl⟩
    · exact .inr (.single (.finalize (.inl hc)))
  | screate =>
    rcases execScreate_next h with rfl | rfl | ⟨hr, hsize, hcap, rfl⟩
    · exact .inl ⟨_, rfl⟩
    · exact .inl ⟨_, rfl⟩
    · exact .inr (.single (.createSynth (sizeAccepted_of_synthSizeOk (.inl hr) hsize hcap)))
  | swave =>
    rcases execSwave_next h with rfl | ⟨hy, rfl | ⟨c, -, hext, rfl⟩⟩
    · exact .inl ⟨_, rfl⟩
    · exact .inl ⟨_, rfl⟩
    · exact .inr (.single (.append (.inr hy) hext))
  | srepeat =>
    rcases execSrepeat_next h with rfl | ⟨hy, rfl | ⟨c, -, hext, rfl⟩⟩
    · exact .inl ⟨_, rfl⟩
    · exact .inl ⟨_, rfl⟩
    · exact .inr (.single (.append (.inr hy) hext))
  | sfinal =>
    rcases execSfinal_next h with rfl | ⟨hy, rfl⟩
    · exact .inl ⟨_, rfl⟩
    · exact .inr (.single (.finalize (.inr hy)))
  | kreset => exact .inr (.single (execKreset_next h ▸ .setChk s 0))
  | kfold => exact .inr (.single (execKfold_next h ▸ .setChk s _))
  | exmit =>
    rcases execExmit_next h with rfl | ⟨hy, rfl | ⟨c, -, hext, rfl⟩⟩
    · exact .inl ⟨_, rfl⟩
    · exact .inl ⟨_, rfl⟩
    · exact .inr (.single (.append (.inr hy) hext))
  | echk =>
    rcases execEchk_next h with rfl | ⟨hy, rfl | ⟨c, -, -, hext, rfl⟩⟩
    · exact .inl ⟨_, rfl⟩
    · exact .inl ⟨_, rfl⟩
    · exact .inr (.single (.append (.inr hy) hext))
  | encode =>
    rcases execEncode_next h with rfl | rfl | rfl | ⟨us, c, -, -, hsize, hcap, -, hext, rfl⟩
    · exact .inl ⟨_, rfl⟩
    · exact .inl ⟨_, rfl⟩
    · exact .inl ⟨_, rfl⟩
    · exact .inr (effects_encode (sizeAccepted_of_synthSizeOk (.inr rfl) hsize hcap) hext)

/-- FAULT, FCODE and FINFO are written by fault entry only (10_state.md R21, R23). -/
theorem Effect.faultStatusKept (h : Effect s t) : FaultStatusKept s t := by
  cases h with
  | setChk v => exact ⟨rfl, rfl, rfl⟩
  | append => exact ⟨rfl, rfl, rfl⟩
  | finalize => simp [FaultStatusKept]
  | create => simp [FaultStatusKept]
  | createSynth => simp [FaultStatusKept]

theorem FaultStatusKept.trans {a b c : State} (h₁ : FaultStatusKept a b) (h₂ : FaultStatusKept b c) :
    FaultStatusKept a c := by
  obtain ⟨hf, hc, hi⟩ := h₂
  exact ⟨hf.trans h₁.1, hc.trans h₁.2.1, hi.trans h₁.2.2⟩

theorem Effects.faultStatusKept (h : Effects s t) : FaultStatusKept s t := by
  induction h with
  | refl => exact ⟨rfl, rfl, rfl⟩
  | tail _ hstep ih => exact ih.trans hstep.faultStatusKept

/-- No effect writes A0, A1, TEXT or the host's side (10_state.md R14; 20_memory.md R39). -/
theorem Effect.hostSideKept (h : Effect s t) : HostSideKept s t := by
  cases h <;> exact ⟨rfl, rfl, rfl, rfl, rfl, rfl, rfl, rfl⟩

theorem HostSideKept.trans {a b c : State} (h₁ : HostSideKept a b) (h₂ : HostSideKept b c) : HostSideKept a c := by
  obtain ⟨p, a0, w0, a1, w1, x, i, r⟩ := h₁
  obtain ⟨p', a0', w0', a1', w1', x', i', r'⟩ := h₂
  exact ⟨p'.trans p, a0'.trans a0, w0'.trans w0, a1'.trans a1, w1'.trans w1, x'.trans x, i'.trans i, r'.trans r⟩

theorem Effects.hostSideKept (h : Effects s t) : HostSideKept s t := by
  induction h with
  | refl => exact ⟨rfl, rfl, rfl, rfl, rfl, rfl, rfl, rfl⟩
  | tail _ hstep ih => exact ih.trans hstep.hostSideKept

end Sys2Proof.Machine
end

section
/-! SUPPORT. The machine's invariant (10_state.md R34, R22): it holds at reset, and fault entry, every effect of a command
and every other host action keep it. -/

namespace Sys2Proof.Machine

variable {s t : State}

/-! ### Reset and fault entry -/

theorem paramsOk_iff {p : Config.Params} :
    paramsOk p = true ↔ (1 ≤ p.sampleRate ∧ p.sampleRate ≤ 0xFFFFFFFF) ∧ p.headerBytes = 44 := by
  simp [paramsOk, sampleRateOk, headerOk]

/-- The state after reset has the invariant at any legal parameters. -/
theorem inv_assertReset (hp : paramsOk s.params = true) : (assertReset s).Inv := by
  refine ⟨hp, Memory.wf_nil, Memory.wf_nil, by simp, fun _ => ?_, by simp⟩
  exact ⟨by simp, rfl, by simp [BufferConsistent], by simp [OutFilled], by simp [PeriodConsistent]⟩

/-- Settles O43: the state after reset is what reset leaves of it. -/
theorem invariantHoldsAtReset : Obligations.InvariantHoldsAtReset :=
  inv_assertReset (s := State.reset) (by decide)

theorem faultCode_bits_bounds (c : FaultCode) : 1 ≤ c.bits.toNat ∧ c.bits.toNat ≤ 6 := by
  cases c <;> decide

theorem inv_raise (c : FaultCode) (w : Word) (hs : s.Inv) : (raise c w s).Inv := by
  obtain ⟨hp, -, ht, hmax, -⟩ := hs
  obtain ⟨hlow, hhigh⟩ := faultCode_bits_bounds c
  exact ⟨hp, Memory.wf_nil, ht, hmax, by simp, fun _ => ⟨by simpa using hlow, by simpa using hhigh, rfl⟩⟩

/-! ### The effects of the commands -/

/-- SYNTH = 1 implies CREATED = 1 (10_state.md R22). -/
theorem created_of_inv (hs : s.Inv) (hf : s.faulted = false) (hbuf : s.created = true ∨ s.synth = true) :
    s.created = true := by
  obtain ⟨-, -, -, -, hrun, -⟩ := hs
  obtain ⟨-, -, ⟨hsynth, -⟩, -⟩ := hrun hf
  exact hbuf.elim id hsynth

/-- A block written where a memory ends leaves a memory that ends after the block. -/
theorem isSome_read_writeBlock_end {w : Nat} {m : Memory w} {n : Nat}
    (hm : ∀ a, (m.read a).isSome = decide (a < n)) (vs : List (BitVec w)) (a : Nat) :
    ((m.writeBlock n vs).read a).isSome = decide (a < n + vs.length) := by
  rw [Memory.read_writeBlock]
  split
  · rw [List.getElem?_eq_getElem (by omega)]; simp; omega
  · rw [hm, decide_eq_decide]; omega

/-- Samples that fit move CURSOR up to BUFLEN at most, and none fit into a finalised buffer. -/
theorem inv_commit {c : Tape} (hs : s.Inv) (hf : s.faulted = false) (hc : s.created = true)
    (hext : (tapeOf s).Extends c) : (commit s c).Inv := by
  obtain ⟨hp, ho, ht, hmax, hrun, -⟩ := hs
  obtain ⟨hcode, hinfo, ⟨hsynth, hfinal, hbuf⟩, ⟨hout, -⟩, hperiod⟩ := hrun hf
  obtain ⟨hlen, hlow, hhigh, hcap⟩ := hbuf hc
  obtain ⟨bs, hbs, hroom⟩ := hext
  have hn : c.samples.reverse.length = bs.length := by simp [hbs]
  have hfit : s.cursor.toNat + bs.length ≤ s.buflen.toNat := by simp at hroom; omega
  have hcur : (commit s c).cursor.toNat = s.cursor.toNat + bs.length := by
    have := s.buflen.isLt
    simp [hbs]; omega
  refine ⟨hp, Memory.wf_writeBlock ho _ _, ht, hmax, fun _ => ?_, fun h => absurd (hf.symm.trans h) (by decide)⟩
  refine ⟨hcode, hinfo, ⟨hsynth, fun h => ⟨hc, ?_⟩, fun _ => ⟨hlen, ?_, ?_, hcap⟩⟩, ⟨fun _ a => ?_, ?_⟩, hperiod⟩
  · obtain ⟨-, hend⟩ := hfinal h
    refine BitVec.eq_of_toNat_eq ?_
    rw [hend] at hfit hcur
    simp only [commit_buflen]; omega
  · omega
  · simp only [commit_buflen]; omega
  · rw [hcur, ← hn]
    exact isSome_read_writeBlock_end (hout hc) _ a
  · intro h; exact absurd (hc.symm.trans h) (by decide)

/-- The tape that ContainerFinalize leaves (40_sample_container.md R76). -/
def padTape (s : State) : Tape :=
  { tapeOf s with room := 0, samples := List.replicate (s.buflen.toNat - s.cursor.toNat) s.params.silence }

theorem padState_eq_commit (s : State) : padState s = commit s (padTape s) := by
  simp [padState, commit, padTape]

theorem tapeOf_extends_padTape (s : State) : (tapeOf s).Extends (padTape s) :=
  ⟨(padTape s).samples, by simp [padTape], by simp [padTape]⟩

/-- Padding appends SILENCE until the buffer is full. -/
theorem inv_padState (hs : s.Inv) (hf : s.faulted = false) (hc : s.created = true) : (padState s).Inv := by
  rw [padState_eq_commit]
  exact inv_commit hs hf hc (tapeOf_extends_padTape s)

/-- Padding moves CURSOR to BUFLEN (40_sample_container.md R76). -/
theorem padState_full (h : s.cursor.toNat ≤ s.buflen.toNat) : (padState s).cursor = s.buflen := by
  refine BitVec.eq_of_toNat_eq ?_
  have := s.buflen.isLt
  simp; omega

theorem OutFilled.congr (h : OutFilled s) (hc : t.created = s.created) (ho : t.out = s.out) (hcur : t.cursor = s.cursor) :
    OutFilled t := by
  unfold OutFilled at *
  rwa [hc, ho, hcur]

/-- SYNTH may be set on an existing buffer where SPERIOD is 1 / SRATE, and FINAL where the buffer is full
(10_state.md R22). -/
theorem inv_setStructure {y f : Bool} (hs : s.Inv) (hf : s.faulted = false) (hc : s.created = true)
    (hy : y = true → s.speriod = F64.fdiv F64.one (F64.ofNat s.srate.toNat)) (hfull : f = true → s.cursor = s.buflen) :
    (State.setStructure s.created y f s).Inv := by
  obtain ⟨hp, ho, ht, hmax, hrun, -⟩ := hs
  obtain ⟨hcode, hinfo, ⟨-, -, hbuf⟩, hout, -⟩ := hrun hf
  refine ⟨hp, ho, ht, hmax, fun _ => ?_, by simp [hf]⟩
  exact ⟨by simpa using hcode, hinfo, ⟨by simp [hc], by simpa [hc] using hfull, fun _ => hbuf hc⟩,
    hout.congr (setStructure_created ..) rfl rfl, by simpa [PeriodConsistent] using hy⟩

theorem inv_finalize (hs : s.Inv) (hf : s.faulted = false) (hc : s.created = true) : (padState s).setFinal.Inv := by
  have hpad := inv_padState hs hf hc
  obtain ⟨-, -, -, -, hrun, -⟩ := hs
  obtain ⟨-, -, ⟨-, -, hbuf⟩, -, hperiod⟩ := hrun hf
  obtain ⟨-, -, hhigh, -⟩ := hbuf hc
  exact inv_setStructure hpad hf hc hperiod fun _ => padState_full hhigh

/-- OUT holds exactly the bytes of the header after ContainerCreate (30_encoding.md R71). -/
theorem isSome_read_headerMemory (p : Config.Params) (sr ns a : Nat) :
    ((headerMemory p sr ns).read a).isSome = decide (a < 44) := by
  rw [read_headerMemory, Bool.eq_iff_iff]
  simp [wavHeader_length]

theorem inv_createdState {sr ns : Nat} (hs : s.Inv) (hf : s.faulted = false) (hsize : SizeAccepted s sr ns) :
    (createdState sr ns s).Inv := by
  obtain ⟨hp, -, ht, hmax, hrun, -⟩ := hs
  obtain ⟨hcode, hinfo, -⟩ := hrun hf
  obtain ⟨-, hns, hcap⟩ := hsize
  obtain ⟨-, hheader⟩ := paramsOk_iff.1 hp
  refine ⟨hp, headerMemory_wf _ _, ht, hmax, fun _ => ?_, by simp [hf]⟩
  refine ⟨by simpa using hcode, hinfo, ⟨by simp, by simp, fun _ => ?_⟩, ⟨fun _ a => ?_, by simp⟩,
    by simp [PeriodConsistent]⟩
  · simp [hheader]; omega
  · simp [hheader, isSome_read_headerMemory]

/-- EXCESS is free, and while SYNTH = 0 so is SPERIOD. -/
theorem inv_with_excess_speriod (e sp : F64) (hs : s.Inv) (hy : s.synth = false) :
    ({ s with excess := e, speriod := sp } : State).Inv := by
  obtain ⟨hp, ho, ht, hmax, hrun, hfault⟩ := hs
  refine ⟨hp, ho, ht, hmax, fun hf => ?_, hfault⟩
  obtain ⟨hcode, hinfo, hbuf, hout, -⟩ := hrun hf
  exact ⟨hcode, hinfo, hbuf, hout, fun h => absurd (hy.symm.trans h) (by decide)⟩

theorem SizeAccepted.srate_toNat {sr ns : Nat} (h : SizeAccepted s sr ns) (hp : paramsOk s.params = true) :
    (createdState sr ns s).srate.toNat = sr := by
  obtain ⟨⟨-, hplatform⟩, -⟩ := paramsOk_iff.1 hp
  obtain ⟨hr | rfl, -⟩ := h
  · simp only [rateOk, decide_eq_true_eq] at hr
    simp; omega
  · simp; omega

/-- SynthCreate is ContainerCreate, then EXCESS and SPERIOD, then SYNTH (41_synthesizer.md R81). -/
theorem inv_synthState {sr ns : Nat} (hs : s.Inv) (hf : s.faulted = false) (hsize : SizeAccepted s sr ns) :
    (synthState sr ns s).Inv := by
  have hperiods := inv_with_excess_speriod (F64.zero false) (F64.fdiv F64.one (F64.ofNat sr))
    (inv_createdState hs hf hsize) (createdState_synth sr ns s)
  refine inv_setStructure hperiods ((createdState_faulted sr ns s).trans hf) (createdState_created sr ns s)
    (fun _ => ?_) (fun h => ?_)
  · exact congrArg (fun n => F64.fdiv F64.one (F64.ofNat n)) (hsize.srate_toNat hs.1).symm
  · exact absurd ((createdState_final sr ns s).symm.trans h) (by decide)

/-- Every effect keeps the invariant while FAULT = 0. -/
theorem Effect.keeps_inv (h : Effect s t) (hs : s.Inv) (hf : s.faulted = false) : t.Inv := by
  cases h with
  | setChk v => exact hs
  | append hbuf hext => exact inv_commit hs hf (created_of_inv hs hf hbuf) hext
  | finalize hbuf => exact inv_finalize hs hf (created_of_inv hs hf hbuf)
  | create hsize => exact inv_createdState hs hf hsize
  | createSynth hsize => exact inv_synthState hs hf hsize

theorem Effects.keep_inv (h : Effects s t) (hs : s.Inv) (hf : s.faulted = false) : t.Inv := by
  induction h with
  | refl => exact hs
  | tail hpre hstep ih => exact hstep.keeps_inv ih ((Effects.faultStatusKept hpre).1.trans hf)

theorem exec_keeps_inv {i : Instr} (h : exec i s = .next t) (hs : s.Inv) (hf : s.faulted = false) : t.Inv := by
  rcases exec_effects h with ⟨c, rfl⟩ | heff
  · exact inv_raise c _ hs
  · exact heff.keep_inv hs hf

/-! ### The host's actions -/

theorem issue_keeps_inv {w : Word} (h : issue w s = .next t) (hs : s.Inv) : t.Inv := by
  cases hf : s.faulted with
  | true => rw [issue_ignored hf] at h; cases h; exact hs
  | false =>
    cases hd : decode w with
    | ok i => rw [issue_command hf hd] at h; exact exec_keeps_inv h hs hf
    | error e => rw [issue_illegal hf hd] at h; cases h; exact inv_raise _ _ hs

theorem inv_writeRegister (n : BitVec 8) (v : Word64) (hs : s.Inv) : (writeRegister n v s).Inv := by
  rcases writeRegister_cases n v s with ⟨-, h⟩ | ⟨-, h⟩ | ⟨-, -, h⟩ <;> rw [h] <;> exact hs

theorem inv_writeTextUnit {i : Nat} (u : TextUnit) (hi : i < s.params.textMax) (hs : s.Inv) :
    (writeTextUnit i u s).Inv := by
  obtain ⟨hp, ho, ht, hmax, hrun, hfault⟩ := hs
  refine ⟨hp, ho, Memory.wf_write ht i u, fun c hc => ?_, hrun, hfault⟩
  rcases Memory.mem_writeBlock hc with hold | ⟨-, hnew⟩
  · exact hmax c hold
  · exact lt_of_lt_of_le hnew hi

theorem serve_keeps_inv {a : HostAction} (h : serve a s = .next t) (hs : s.Inv) : t.Inv := by
  cases a with
  | writeReg n v =>
    by_cases hn : n = 0x00
    · subst hn
      rw [serve_writeReg_cmd] at h
      exact issue_keeps_inv h hs
    · rw [serve_writeReg v s hn] at h
      cases h; exact inv_writeRegister n v hs
  | readReg n => cases h; exact hs
  | writeText i u =>
    simp only [serve, serveWriteText] at h
    split at h
    · rename_i hi
      cases h; exact inv_writeTextUnit u hi hs
    · cases h
  | readOut a =>
    simp only [serve, serveReadOut] at h
    split at h
    · cases h; exact hs
    · cases h
  | reset => cases h; exact inv_assertReset hs.1

theorem step_idle (h : s.inputs = []) : step s = .next s := by simp [step, serveNext, h]

/-- Settles O44: the step serves one host action, and a command it runs is fault entry or a sequence of effects. -/
theorem invariantKeptByEveryStep : Obligations.InvariantKeptByEveryStep := by
  intro s t hs h
  cases hq : s.inputs with
  | nil => rw [step_idle hq] at h; cases h; exact hs
  | cons a rest =>
    rw [step_serve hq] at h
    exact serve_keeps_inv (s := { s with inputs := rest }) h hs

end Sys2Proof.Machine
end

section
/-! SUPPORT. What no command writes, which command writes which register (10_state.md R14, R21 to R30), and what the written
marks of A0 and A1 come to (R20; assumption log 1). -/

namespace Sys2Proof.Machine

variable {s t : State}

/-- Settles O45: fault entry keeps the host's side (60_exceptions.md R117), and so does every effect. -/
theorem commandsKeepHostSide : Obligations.CommandsKeepHostSide := by
  intro i s t h
  rcases exec_effects h with ⟨c, rfl⟩ | heff
  · obtain ⟨-, -, -, -, hkept⟩ := raise_takesFault c (encode i) s
    exact hkept
  · exact heff.hostSideKept

/-! ### Which command writes which register -/

theorem ne_raise_of_unfaulted (hf : t.faulted = false) (c : FaultCode) (w : Word) : t ≠ raise c w s := by
  rintro rfl
  simp at hf

/-- A train of pulses leaves CHK as it was. -/
theorem wave_chk {p : Config.Params} {sp d : F64} {a b : Tape} (h : wave p sp d a = .ok b) : b.chk = a.chk := by
  rw [← playAll_singleton] at h
  exact (playAll_extends h).2

theorem repeatTape_wave_chk {p : Config.Params} {sp d : F64} {n : Nat} {a b : Tape}
    (h : repeatTape (wave p sp d) n a = .ok b) : b.chk = a.chk := by
  rw [repeatTape_wave] at h
  exact (playAll_extends h).2

/-- Settles O46: command by command, from what each leaves when it does not fault. -/
theorem registerWriters : Obligations.RegisterWriters := by
  intro i s t h hs hf
  have hne := ne_raise_of_unfaulted (s := s) hf
  have hkept : FaultStatusKept s t := by
    rcases exec_effects h with ⟨c, rfl⟩ | heff
    · exact absurd rfl (hne c _)
    · exact heff.faultStatusKept
  obtain ⟨-, hcode, hinfo⟩ := hkept
  refine ⟨hinfo, hcode, ?_⟩
  cases i with
  | ccreate =>
    obtain ⟨-, -, -, rfl⟩ := ((execCcreate_next h).resolve_left (hne _ _)).resolve_left (hne _ _)
    simp
  | cappend =>
    obtain ⟨-, ⟨rfl, -⟩ | rfl | ⟨-, -, rfl⟩⟩ := (execCappend_next h).resolve_left (hne _ _)
    · simp at hf
    · simp at hf
    · simp [State.created, State.synth]
  | cfinal =>
    obtain ⟨-, rfl⟩ := (execCfinal_next h).resolve_left (hne _ _)
    simp
  | screate =>
    obtain ⟨-, -, -, rfl⟩ := ((execScreate_next h).resolve_left (hne _ _)).resolve_left (hne _ _)
    simp
  | swave =>
    obtain ⟨-, rfl | ⟨c, hwave, -, rfl⟩⟩ := (execSwave_next h).resolve_left (hne _ _)
    · simp at hf
    · simp [wave_chk hwave]
  | srepeat =>
    obtain ⟨-, rfl | ⟨c, hrep, -, rfl⟩⟩ := (execSrepeat_next h).resolve_left (hne _ _)
    · simp at hf
    · simp [repeatTape_wave_chk hrep]
  | sfinal =>
    obtain ⟨-, rfl⟩ := (execSfinal_next h).resolve_left (hne _ _)
    simp
  | kreset => simp [execKreset_next h, State.created, State.synth]
  | kfold => simp [execKfold_next h, State.created, State.synth]
  | exmit =>
    obtain ⟨-, rfl | ⟨c, -, -, rfl⟩⟩ := (execExmit_next h).resolve_left (hne _ _)
    · simp at hf
    · simp
  | echk =>
    obtain ⟨-, rfl | ⟨c, -, hchk, -, rfl⟩⟩ := (execEchk_next h).resolve_left (hne _ _)
    · simp at hf
    · simp [hchk]
  | encode => simp

/-! ### The written marks -/

/-- The state with the marks of A0 and A1 set in another way. -/
def State.marked (w0 w1 : Bool) (s : State) : State := { s with a0Written := w0, a1Written := w1 }

variable (w0 w1 : Bool)

@[simp] theorem marked_params (s : State) : (s.marked w0 w1).params = s.params := rfl
@[simp] theorem marked_a0 (s : State) : (s.marked w0 w1).a0 = s.a0 := rfl
@[simp] theorem marked_a1 (s : State) : (s.marked w0 w1).a1 = s.a1 := rfl
@[simp] theorem marked_speriod (s : State) : (s.marked w0 w1).speriod = s.speriod := rfl
@[simp] theorem marked_text (s : State) : (s.marked w0 w1).text = s.text := rfl

/-- The next state with other marks; a stop stays a stop. -/
def Result.marked (r : Result) : Result :=
  match r with
  | .next t => .next (t.marked w0 w1)
  | .fault e => .fault e
  | .refused e => .refused e

/-- An operation that ends has other marks; its error stays. -/
def opMarked (r : Except FaultCode State) : Except FaultCode State := r.map (State.marked w0 w1)

theorem fail_marked (i : Instr) (c : FaultCode) (s : State) :
    fail i c (s.marked w0 w1) = Result.marked w0 w1 (fail i c s) := rfl

theorem finish_marked (i : Instr) (s : State) (r : Except FaultCode State) :
    finish i (s.marked w0 w1) (opMarked w0 w1 r) = Result.marked w0 w1 (finish i s r) := by
  cases r <;> rfl

theorem needCreated_marked (i : Instr) (s : State) (k : Result) :
    needCreated i (s.marked w0 w1) (Result.marked w0 w1 k) = Result.marked w0 w1 (needCreated i s k) :=
  (apply_ite (Result.marked w0 w1) (s.created = true) k (fail i .sequence s)).symm

theorem needSynth_marked (i : Instr) (s : State) (k : Result) :
    needSynth i (s.marked w0 w1) (Result.marked w0 w1 k) = Result.marked w0 w1 (needSynth i s k) :=
  (apply_ite (Result.marked w0 w1) (s.synth = true) k (fail i .sequence s)).symm

theorem onTape_marked (f : Tape → Except FaultCode Tape) (s : State) :
    onTape f (s.marked w0 w1) = opMarked w0 w1 (onTape f s) := by
  have htape : tapeOf (s.marked w0 w1) = tapeOf s := rfl
  unfold onTape
  rw [htape]
  cases f (tapeOf s) <;> rfl

theorem containerFinalize_marked (s : State) :
    containerFinalize (s.marked w0 w1) = opMarked w0 w1 (containerFinalize s) := by
  rw [containerFinalize_ok, containerFinalize_ok]; rfl

theorem containerCreate_marked (sr ns : Nat) (s : State) :
    containerCreate sr ns (s.marked w0 w1) = opMarked w0 w1 (containerCreate sr ns s) := by
  rw [containerCreate_eq, containerCreate_eq, marked_params]
  split <;> rfl

theorem synthCreate_marked (sr : Nat) (d : F64) (s : State) :
    synthCreate sr d (s.marked w0 w1) = opMarked w0 w1 (synthCreate sr d s) := by
  rw [synthCreate_eq, synthCreate_eq, marked_params]
  split
  · rfl
  · split <;> rfl

/-- An operation after which comes one that does not test the marks. -/
theorem bind_marked {g : State → Except FaultCode State}
    (hg : ∀ s, g (s.marked w0 w1) = opMarked w0 w1 (g s)) (r : Except FaultCode State) :
    (opMarked w0 w1 r).bind g = opMarked w0 w1 (r.bind g) := by
  cases r with
  | error c => rfl
  | ok s => exact hg s

/-- Steps 4 to 9 of ENCODE: the stream, then ContainerFinalize (43_encoder.md R107). -/
def streamAndFinalize (nt : List TextUnit) (s : State) : Except FaultCode State :=
  (onTape (encodeTape s.params s.speriod nt) s).bind containerFinalize

theorem encodeText_eq_bind (nt : List TextUnit) (s : State) :
    encodeText nt s =
      (synthCreate s.params.sampleRate (totalDuration s.params nt.length) { s with chk := 0 }).bind
        (streamAndFinalize nt) := by
  rw [encodeText]
  cases synthCreate s.params.sampleRate (totalDuration s.params nt.length) { s with chk := 0 } with
  | error c => rfl
  | ok s1 =>
    simp only [Except.bind, streamAndFinalize]
    cases onTape (encodeTape s1.params s1.speriod nt) s1 <;> rfl

theorem streamAndFinalize_marked (nt : List TextUnit) (s : State) :
    streamAndFinalize nt (s.marked w0 w1) = opMarked w0 w1 (streamAndFinalize nt s) := by
  rw [streamAndFinalize, marked_params, marked_speriod, onTape_marked]
  exact bind_marked w0 w1 (containerFinalize_marked w0 w1) _

theorem encodeText_marked (nt : List TextUnit) (s : State) :
    encodeText nt (s.marked w0 w1) = opMarked w0 w1 (encodeText nt s) := by
  rw [encodeText_eq_bind, encodeText_eq_bind, ← bind_marked w0 w1 (streamAndFinalize_marked w0 w1 nt)]
  exact congrArg (Except.bind · _) (synthCreate_marked w0 w1 _ _ { s with chk := 0 })

/-- No command tests the marks: with other marks it ends in the same way, with those marks. -/
theorem exec_marked (i : Instr) (s : State) : exec i (s.marked w0 w1) = Result.marked w0 w1 (exec i s) := by
  cases i with
  | ccreate =>
    simp only [exec, execCcreate, marked_a0, marked_a1, fail_marked, containerCreate_marked, finish_marked]
    split
    · rfl
    · split <;> rfl
  | cappend => simp only [exec, execCappend, marked_a0, onTape_marked, finish_marked, needCreated_marked]
  | cfinal => simp only [exec, execCfinal, containerFinalize_marked, finish_marked, needCreated_marked]
  | screate =>
    simp only [exec, execScreate, marked_a0, marked_a1, fail_marked, synthCreate_marked, finish_marked]
    split <;> rfl
  | swave =>
    simp only [exec, execSwave, marked_a0, marked_params, marked_speriod, onTape_marked, finish_marked, needSynth_marked]
  | srepeat =>
    simp only [exec, execSrepeat, marked_a0, marked_a1, marked_params, marked_speriod, onTape_marked, finish_marked,
      needSynth_marked]
  | sfinal => simp only [exec, execSfinal, containerFinalize_marked, finish_marked, needSynth_marked]
  | kreset => rfl
  | kfold => rfl
  | exmit =>
    simp only [exec, execExmit, marked_a0, marked_params, marked_speriod, onTape_marked, finish_marked, needSynth_marked]
  | echk => simp only [exec, execEchk, marked_params, marked_speriod, onTape_marked, finish_marked, needSynth_marked]
  | encode =>
    simp only [exec, execEncode, marked_a0, marked_params, marked_text, fail_marked, encodeText_marked, finish_marked]
    split
    · rfl
    · split <;> rfl

/-- Settles O18: no command tests the marks. -/
theorem unwrittenArgumentsReadAsStored : Obligations.UnwrittenArgumentsReadAsStored := by
  intro i s t w0 w1 h
  have hmarked := exec_marked w0 w1 i s
  rw [h] at hmarked
  exact hmarked

end Sys2Proof.Machine
end

section
/-! SUPPORT. The host's port (10_state.md R17 to R20, R36) and the instances of a system (R35, 60_exceptions.md R127). -/

namespace Sys2Proof.Machine

variable {s : State}

/-! ### A command issued -/

/-- Settles O4: the step serves the write, and issuing a legal word runs its command. -/
theorem stepRunsDecodedCommand : Obligations.StepRunsDecodedCommand := by
  intro s v rest i hq hf hd
  rw [step_serve hq, serve_writeReg_cmd]
  exact issue_command (s := { s with inputs := rest }) hf hd

theorem decode_encode (i : Instr) : decode (encode i) = .ok i := by
  cases i <;> rfl

/-- A command word survives the way through the opcode table's numbering and the 64-bit CMD register. -/
theorem tableWord_through_cmd (w : Word) : ((tableWord 32 w.toNat).setWidth 64).setWidth 32 = w := by
  have := w.isLt
  refine BitVec.eq_of_toNat_eq ?_
  simp [tableWord]; omega

/-- Settles O5: withFetchWord queues a CMD write of the instruction's word, and the step takes it out again. -/
theorem fetchWordRunsCommand : Obligations.FetchWordRunsCommand := by
  intro s i hf
  refine stepRunsDecodedCommand (s.withFetchWord 32 (encode i).toNat) _ s.inputs i rfl hf ?_
  rw [tableWord_through_cmd, decode_encode]

/-! ### Registers -/

theorem step_readReg {n : BitVec 8} {rest : List HostAction} (hq : s.inputs = .readReg n :: rest) :
    step s = .next { s with inputs := rest, replies := s.replies ++ [readRegister n s] } := step_serve hq

/-- The reserved numbers read 0 (10_state.md R17, R18). -/
theorem readRegister_reserved {n : BitVec 8} (h : 0x0C ≤ n.toNat) : readRegister n s = 0 := by
  have hne : ∀ k : BitVec 8, k.toNat < 0x0C → n ≠ k := fun k hk heq => by subst heq; omega
  simp [readRegister, hne]

/-- Settles O8: the register map of R17, number by number. -/
theorem hostRegisterAccess : Obligations.HostRegisterAccess := by
  intro s n rest
  refine ⟨fun v hq hn => ?_, fun hq => ?_⟩
  · rw [step_serve hq, serve_writeReg _ _ hn]
    simp only [writeRegister, apply_ite (Host.Outcome.next (φ := Fault) (ρ := Refusal))]
  · rw [step_readReg hq]
    refine ⟨?_, ?_, ?_, ?_, ?_, ?_, ?_, ?_, ?_, ?_, ?_, ?_, fun h => by rw [readRegister_reserved h]⟩
    all_goals rintro rfl; rfl

/-- Settles O13: the reset column of R17, evaluated. -/
theorem resetValues : Obligations.ResetValues :=
  ⟨rfl, rfl, rfl, rfl, rfl, rfl, rfl, rfl, rfl, rfl, rfl, rfl, rfl, rfl, rfl, rfl, Memory.read_nil, Memory.read_nil⟩

/-! ### Instances -/

/-- A step of the system is a step of the state at the place it names, or nothing where there is none. -/
theorem systemStep_next_iff {k : Nat} {sys a : List State} :
    systemStep k sys = .next a ↔
      (sys[k]? = none ∧ a = sys) ∨ ∃ s t, sys[k]? = some s ∧ step s = .next t ∧ a = sys.set k t := by
  unfold systemStep
  cases hk : sys[k]? with
  | none => simp [eq_comm]
  | some s => cases hstep : step s <;> simp [hstep, eq_comm]

theorem systemStep_frame {k m : Nat} {sys a : List State} (h : systemStep k sys = .next a) (hm : m ≠ k) :
    a[m]? = sys[m]? := by
  rcases systemStep_next_iff.1 h with ⟨-, rfl⟩ | ⟨s, t, -, -, rfl⟩
  · rfl
  · exact List.getElem?_set_ne hm.symm

/-- Settles O48: each step reads and writes its own place in the list. -/
theorem instancesIndependent : Obligations.InstancesIndependent := by
  intro j k sys a b hjk ha hb
  refine ⟨fun m hm => systemStep_frame ha hm, ?_⟩
  have hak : a[k]? = sys[k]? := systemStep_frame ha hjk.symm
  have hbj : b[j]? = sys[j]? := systemStep_frame hb hjk
  rcases systemStep_next_iff.1 ha with ⟨hj, rfl⟩ | ⟨s, s', hs, hstep, rfl⟩
  · exact ⟨b, hb, systemStep_next_iff.2 (.inl ⟨hbj.trans hj, rfl⟩)⟩
  · rcases systemStep_next_iff.1 hb with ⟨hk, rfl⟩ | ⟨u, u', hu, hstep', rfl⟩
    · exact ⟨_, systemStep_next_iff.2 (.inl ⟨hak.trans hk, rfl⟩), ha⟩
    · exact ⟨_, systemStep_next_iff.2 (.inr ⟨u, u', hak.trans hu, hstep', rfl⟩),
        systemStep_next_iff.2 (.inr ⟨s, s', hbj.trans hs, hstep, List.set_comm _ _ hjk⟩)⟩

end Sys2Proof.Machine
end

section
/-! SUPPORT. The host's access to the memories: reads of OUT and writes of TEXT (20_memory.md R39, R40, R47). -/

namespace Sys2Proof.Machine

variable {s : State}

/-! ### Reads of OUT -/

theorem serve_readOut_some {a : Nat} {b : Byte} (h : readOutByte a s = some b) :
    serve (.readOut a) s = .next (reply (b.setWidth 64) s) := by
  simp [serve, serveReadOut, h]

theorem serve_readOut_none {a : Nat} (h : readOutByte a s = none) :
    serve (.readOut a) s = .refused .outUnreadable := by
  simp [serve, serveReadOut, h]

/-- The reads of OUT that have no meaning: one condition of R47 is missing. -/
theorem readOutByte_eq_none {a : Nat}
    (h : s.created = false ∨ s.faulted = true ∨ s.buflen.toNat ≤ a ∨ s.out.read a = none) :
    readOutByte a s = none := by
  refine Option.eq_none_iff_forall_ne_some.2 fun b hb => ?_
  obtain ⟨hcreated, hfaulted, hbelow, hbyte⟩ := readOutByte_eq_some.1 hb
  rcases h with hc | hf | hle | hnone
  · simp [hc] at hcreated
  · simp [hf] at hfaulted
  · omega
  · simp [hnone] at hbyte

/-- Settles O9: the step serves the read, and whether it finds a byte is the test of R47. -/
theorem hostReadsOut : Obligations.HostReadsOut := by
  intro s a rest hq
  rw [step_serve hq]
  refine ⟨fun b hcreated hfaulted hbelow hbyte => ?_, fun h => ?_⟩
  · exact serve_readOut_some (s := { s with inputs := rest })
      (readOutByte_eq_some.2 ⟨hcreated, hfaulted, hbelow, hbyte⟩)
  · exact serve_readOut_none (readOutByte_eq_none (s := { s with inputs := rest }) h)

/-! ### Writes of TEXT -/

theorem serve_writeText_below {i : Nat} (u : TextUnit) (h : i < s.params.textMax) :
    serve (.writeText i u) s = .next (writeTextUnit i u s) := if_pos h

theorem serve_writeText_beyond {i : Nat} (u : TextUnit) (h : s.params.textMax ≤ i) :
    serve (.writeText i u) s = .fault .noSuchTextUnit := if_neg (Nat.not_lt.2 h)

/-- Settles O10: the step serves the write, and the new TEXT reads as a memory does after a write. -/
theorem hostWritesText : Obligations.HostWritesText := by
  intro s i u rest hq
  rw [step_serve hq]
  refine ⟨fun hlt => ⟨s.text.write i u, ?_, ?_, fun j hj => ?_⟩, fun hle => ?_⟩
  · exact serve_writeText_below (s := { s with inputs := rest }) u hlt
  · rw [Memory.read_write, if_pos rfl]
  · rw [Memory.read_write, if_neg hj]
  · exact serve_writeText_beyond (s := { s with inputs := rest }) u hle

end Sys2Proof.Machine
end

section
/-! SUPPORT. Command words (30_encoding.md R55 to R57): a legal word is the word of one row of the opcode table, and the
decoder tells the two ways of being illegal apart. -/

namespace Sys2Proof.Machine

variable {w : Word}

/-! ### Legal words -/

/-- A command word is its RES field above its OPC field (30_encoding.md R55). -/
theorem res_append_opc (w : Word) : w.extractLsb' 8 24 ++ w.extractLsb' 0 8 = w := by
  rw [BitVec.extractLsb'_append_extractLsb'_eq_extractLsb' (by rfl), BitVec.extractLsb'_eq_self]

theorem eq_of_reservedZero_of_opcode_eq {v : Word} (hw : reservedZero w = true) (hv : reservedZero v = true)
    (hopc : w.extractLsb' 0 8 = v.extractLsb' 0 8) : w = v := by
  have hres : w.extractLsb' 8 24 = v.extractLsb' 8 24 := (eq_of_beq hw).trans (eq_of_beq hv).symm
  rw [← res_append_opc w, hres, hopc, res_append_opc]

theorem opcodes_eq_rows : opcodes = opcodeRows.map (fun r => r.matchWord.extractLsb' 0 8) := by decide

theorem commandWordOk_encode (i : Instr) : commandWordOk (encode i) = true := by
  cases i <;> rfl

/-- The legal command words are the words of the twelve commands (30_encoding.md R56, R57). -/
theorem exists_eq_encode_iff : (∃ i, w = encode i) ↔ commandWordOk w = true := by
  refine ⟨fun ⟨i, hi⟩ => hi ▸ commandWordOk_encode i, fun h => ?_⟩
  obtain ⟨hres, hopc⟩ := Bool.and_eq_true_iff.1 h
  rw [opcodeKnown, List.contains_iff_mem, opcodes_eq_rows] at hopc
  obtain ⟨r, hr, hlow⟩ := List.mem_map.1 hopc
  obtain ⟨hlegal, hword⟩ := opcodeRows_legal r hr
  have hrow : w = r.matchWord :=
    eq_of_reservedZero_of_opcode_eq hres (Bool.and_eq_true_iff.1 hlegal).1 hlow.symm
  exact ⟨r.instr, hrow.trans hword.symm⟩

/-! ### The decoder -/

theorem eq_encode_of_decode {i : Instr} (h : decode w = .ok i) : w = encode i := by
  obtain ⟨r, hr, hword, hinstr⟩ := decode_row h
  rw [hword, ← hinstr, (opcodeRows_legal r hr).2]

/-- Settles O1: a word that decodes is that of its row, and the row's word decodes. -/
theorem decodeExactlyTheEncodings : Obligations.DecodeExactlyTheEncodings := by
  intro w i
  exact ⟨eq_encode_of_decode, fun h => h ▸ decode_encode i⟩

theorem exists_decode_of_legal (h : commandWordOk w = true) : ∃ i, decode w = .ok i := by
  obtain ⟨i, rfl⟩ := exists_eq_encode_iff.2 h
  exact ⟨i, decode_encode i⟩

/-- An illegal word is rejected, for its reserved bits before its opcode (30_encoding.md R57). -/
theorem decode_of_illegal (h : commandWordOk w = false) :
    decode w = .error (if reservedZero w then .unknownOpcode else .reservedBitsSet) := by
  cases hd : decode w with
  | ok i =>
    rw [eq_encode_of_decode hd, commandWordOk_encode] at h
    cases h
  | error e =>
    unfold decode at hd
    split at hd <;> cases hd
    rfl

theorem decode_of_reservedBitsSet (h : reservedZero w = false) : decode w = .error .reservedBitsSet := by
  rw [decode_of_illegal (by simp [commandWordOk, h]), h]
  rfl

theorem decode_of_unknownOpcode (hres : reservedZero w = true) (hopc : opcodeKnown w = false) :
    decode w = .error .unknownOpcode := by
  rw [decode_of_illegal (by simp [commandWordOk, hopc]), hres]
  rfl

/-- Settles O2: a reserved bit set, an opcode that is none of the twelve, or a legal word. -/
theorem illegalWordsRejectedByName : Obligations.IllegalWordsRejectedByName := by
  intro w
  cases hres : reservedZero w with
  | false => simp [decode_of_reservedBitsSet hres]
  | true =>
    cases hopc : opcodeKnown w with
    | false => simp [decode_of_unknownOpcode hres hopc]
    | true =>
      obtain ⟨i, hi⟩ := exists_decode_of_legal (w := w) (by simp [commandWordOk, hres, hopc])
      simp [hi]

/-- Settles O3: four words of the opcode table, one with an unknown opcode and one with bit 31 set. -/
theorem sampleWordsDecode : Obligations.SampleWordsDecode :=
  ⟨decode_encode .ccreate, decode_encode .srepeat, decode_encode .kfold, decode_encode .encode,
    decode_of_unknownOpcode rfl rfl, decode_of_reservedBitsSet rfl⟩

/-- Settles O6: the step serves the CMD write, and a word that does not decode ends in fault entry. -/
theorem illegalWordFaults : Obligations.IllegalWordFaults := by
  intro s v rest hq hf hillegal
  refine ⟨raise .illegalCommand (cmdWord v) { s with inputs := rest }, ?_, raise_takesFault _ _ _⟩
  rw [step_serve hq, serve_writeReg_cmd]
  exact issue_illegal (s := { s with inputs := rest }) hf (decode_of_illegal hillegal)

end Sys2Proof.Machine
end

section
/-! SUPPORT. The receiver of 30_encoding.md R70: reading a frame's pulses reverses R66 and R65. -/

namespace Sys2Proof.Machine

variable {p : Config.Params}

/-- The pulses of one bit at the head of a stream are read as that bit, whatever follows (30_encoding.md R66). -/
theorem receiveBits_bitPulses_append (h : p.shortWave ≠ p.longWave) (bit : Bool) (ds : List F64) :
    receiveBits p (bitPulses p bit ++ ds) = (receiveBits p ds).map (bit :: ·) := by
  cases bit with
  | true => simp [bitPulses, receiveBits, h]
  | false => cases ds <;> simp [bitPulses, receiveBits]

theorem receiveBits_flatMap_bitPulses (h : p.shortWave ≠ p.longWave) (bits : List Bool) :
    receiveBits p (bits.flatMap (bitPulses p)) = some bits := by
  induction bits with
  | nil => rfl
  | cons bit bits ih => rw [List.flatMap_cons, receiveBits_bitPulses_append h, ih, Option.map_some]

/-- The eight data bits of a frame, put together again, are the byte (30_encoding.md R65). -/
theorem receiveByte_frameBitList (b : Byte) : receiveByte (frameBitList b) = some b := by
  refine congrArg some (BitVec.eq_of_getLsbD_eq (w := 8) fun k hk => ?_)
  simp only [BitVec.getLsbD_append, BitVec.getLsbD_ofBool]
  interval_cases k <;> rfl

/-- Settles O36: the pulses give the frame's bits back, and those the byte. -/
theorem receiverRecoversByte : Obligations.ReceiverRecoversByte := by
  intro p b h
  rw [framePulses, receiveBits_flatMap_bitPulses h, Option.bind_some, receiveByte_frameBitList]

end Sys2Proof.Machine
end

section
/-! SUPPORT. How a command ends in fault entry, and what samples appended at CURSOR leave of the state. -/

namespace Sys2Proof.Machine

variable {s t : State} {i : Instr}

/-! ### Commands that end in fault entry -/

theorem faults_of_exec {c : FaultCode} (h : exec i s = fail i c s) : Faults i c.bits s :=
  ⟨_, h, raise_takesFault c (encode i) s⟩

/-- A command whose operation faults ends in fault entry (60_exceptions.md R117). -/
theorem faults_of_finish {c : FaultCode} {r : Except FaultCode State} (h : exec i s = finish i s r)
    (hr : r = .error c) : Faults i c.bits s :=
  faults_of_exec (h.trans (finish_error hr))

theorem needCreated_missing (k : Result) (h : s.created = false) : needCreated i s k = fail i .sequence s := by
  simp [needCreated, h]

theorem needSynth_missing (k : Result) (h : s.synth = false) : needSynth i s k = fail i .sequence s := by
  simp [needSynth, h]

/-! ### AppendSample on the state -/

theorem appendSample_above {v : Nat} (a : Tape) (h : 255 < v) : appendSample v a = .error .sampleRange := if_pos h

theorem appendSample_full {v : Nat} {a : Tape} (hv : v ≤ 255) (hroom : a.room = 0) :
    appendSample v a = .error .bufferOverrun := by
  simp [appendSample, hv, hroom]

/-- The tape after one more sample. -/
def Tape.push (v : Byte) (a : Tape) : Tape := { a with room := a.room - 1, samples := v :: a.samples }

theorem appendSample_fits {v : Nat} {a : Tape} (hv : v ≤ 255) (hroom : a.room ≠ 0) :
    appendSample v a = .ok (a.push (BitVec.ofNat 8 v)) :=
  appendSample_ok_iff.2 ⟨hv, hroom, rfl⟩

/-! ### Samples appended at CURSOR -/

theorem outAppended_commit (s : State) (c : Tape) : OutAppended s (commit s c) c.samples.reverse :=
  Memory.read_writeBlock _ _ _

theorem Tape.Extends.samples_length {c : Tape} (h : (tapeOf s).Extends c) :
    c.samples.length ≤ s.buflen.toNat - s.cursor.toNat := by
  obtain ⟨bytes, hsamples, hroom⟩ := h
  simp only [tapeOf_samples, tapeOf_room, List.append_nil] at hsamples hroom
  rw [hsamples, List.length_reverse]; omega

/-- CURSOR moves past the samples and does not wrap around: they fit into the buffer. -/
theorem commit_cursor_toNat {c : Tape} (h : (tapeOf s).Extends c) (hbuf : s.cursor.toNat ≤ s.buflen.toNat) :
    (commit s c).cursor.toNat = s.cursor.toNat + c.samples.length := by
  have hfit := h.samples_length
  have := s.buflen.isLt
  simp only [commit_cursor, BitVec.toNat_add, BitVec.toNat_ofNat]; omega

/-- What a command that only works on its tape leaves. -/
theorem samplesAppended_commit {c : Tape} (h : (tapeOf s).Extends c) (hbuf : s.cursor.toNat ≤ s.buflen.toNat) :
    SamplesAppended s (commit s c) c.samples.reverse c.excess c.chk := by
  refine ⟨outAppended_commit s c, ?_, rfl, rfl, ⟨rfl, rfl⟩, ⟨rfl, rfl, rfl, rfl⟩, by simp [HostSideKept]⟩
  rw [commit_cursor_toNat h hbuf, List.length_reverse]

end Sys2Proof.Machine
end

section
/-! SUPPORT. The Sample Container (40_sample_container.md R74 to R80): creating a buffer, appending a sample, padding to
the end, and that the payload is written in address order. -/

namespace Sys2Proof.Machine

variable {s t : State}

/-! ### CCREATE -/

theorem rateOk_iff {sr : Nat} : rateOk sr = true ↔ 1 ≤ sr ∧ sr ≤ 0xFFFFFFFF := by simp [rateOk]

/-- The operands that CCREATE refuses (60_exceptions.md R115). -/
theorem execCcreate_argument (h : rateOk s.a0.toNat = false ∨ 0xFFFFFFE3 < s.a1.toNat) :
    execCcreate s = fail .ccreate .argument s := by
  unfold execCcreate
  rcases h with hr | hn
  · simp [hr]
  · simp [hn]

theorem containerCreate_capacity {sr ns : Nat} (h : s.params.bufMax < ns + s.params.headerBytes) :
    containerCreate sr ns s = .error .capacity := if_pos h

theorem containerCreate_ok {sr ns : Nat} (h : ns + s.params.headerBytes ≤ s.params.bufMax) :
    containerCreate sr ns s = .ok (createdState sr ns s) := if_neg (Nat.not_lt.2 h)

/-- The buffer that ContainerCreate describes: its sizes fit into the registers (10_state.md R28 to R30). -/
theorem bufferOf_createdState {sr ns : Nat} (hheader : s.params.headerBytes = 44) (hsr : sr ≤ 0xFFFFFFFF)
    (hsize : SizeAccepted s sr ns) : BufferOf s (createdState sr ns s) sr ns := by
  have hkept := Effect.create hsize
  obtain ⟨-, hns, -⟩ := hsize
  refine ⟨createdState_created sr ns s, ?_, ?_, ?_, hkept.faultStatusKept, hkept.hostSideKept⟩
  · simp; omega
  · simp; omega
  · simp [hheader]; omega

theorem outIs_createdState (sr ns : Nat) (s : State) : OutIs (createdState sr ns s) (wavHeader s.params sr ns) :=
  read_headerMemory sr ns

/-- Settles O19: the tests of R77 in their order, then the buffer of ContainerCreate. -/
theorem ccreateRule : Obligations.CcreateRule := by
  refine ⟨rfl, fun s hparams _ _ => ?_⟩
  have hheader : s.params.headerBytes = 44 := by simpa [headerOk] using hparams
  refine ⟨fun hrate => ?_, fun _ _ hn => ?_, fun hlow hhigh hn hcap => ?_, fun hlow hhigh hn hcap => ?_⟩
  · have hbad : rateOk s.a0.toNat = false := by
      rw [Bool.eq_false_iff, ne_eq, rateOk_iff]; omega
    exact faults_of_exec (c := .argument) (execCcreate_argument (.inl hbad))
  · exact faults_of_exec (c := .argument) (execCcreate_argument (.inr hn))
  · exact faults_of_finish (c := .capacity) (execCcreate_eq (rateOk_iff.2 ⟨hlow, hhigh⟩) hn)
      (containerCreate_capacity (by omega))
  · have hrate := rateOk_iff.2 ⟨hlow, hhigh⟩
    have hfits : s.a1.toNat + s.params.headerBytes ≤ s.params.bufMax := by omega
    refine ⟨createdState s.a0.toNat s.a1.toNat s,
      (execCcreate_eq hrate hn).trans (finish_ok (containerCreate_ok hfits)),
      bufferOf_createdState hheader hhigh ⟨.inl hrate, hn, hfits⟩, createdState_synth .., createdState_final ..,
      ?_, outIs_createdState _ _ s, rfl, rfl, rfl⟩
    rw [createdState_cursor, hheader]; rfl

/-! ### CAPPEND -/

theorem tapeOf_room_eq_zero (h : s.cursor = s.buflen) : (tapeOf s).room = 0 := by simp [h]

theorem cursor_lt_buflen (hbuf : s.cursor.toNat ≤ s.buflen.toNat) (h : s.cursor ≠ s.buflen) :
    s.cursor.toNat < s.buflen.toNat :=
  lt_of_le_of_ne hbuf fun heq => h (BitVec.eq_of_toNat_eq heq)

/-- CAPPEND of a byte into a buffer with room leaves the state with that sample (40_sample_container.md R78). -/
theorem execCappend_fits (hc : s.created = true) (hv : s.a0.toNat ≤ 255) (hroom : s.cursor.toNat < s.buflen.toNat) :
    execCappend s = .next (commit s ((tapeOf s).push (s.a0.setWidth 8))) := by
  have happend := appendSample_fits (a := tapeOf s) hv (by rw [tapeOf_room]; omega)
  rw [execCappend_eq hc]
  exact finish_ok (onTape_ok_iff.2 ⟨_, happend, rfl⟩)

/-- Settles O20: the precondition, the two faults of AppendSample in their order, and the sample appended. -/
theorem cappendRule : Obligations.CappendRule := by
  refine ⟨rfl, fun s hbuf => ⟨fun hc => ?_, fun hc _ hv => ?_, fun hc _ hv hfull => ?_, fun hc _ hv hne => ?_⟩⟩
  · exact faults_of_exec (c := .sequence) (needCreated_missing _ hc)
  · exact faults_of_finish (c := .sampleRange) (execCappend_eq hc) (onTape_error_iff.2 (appendSample_above _ hv))
  · exact faults_of_finish (c := .bufferOverrun) (execCappend_eq hc)
      (onTape_error_iff.2 (appendSample_full hv (tapeOf_room_eq_zero hfull)))
  · have hroom := cursor_lt_buflen hbuf hne
    exact ⟨_, execCappend_fits hc hv hroom, samplesAppended_commit (tapeOf_extends_singleton _ hroom) hbuf⟩

/-! ### CFINAL and SFINAL -/

theorem outAppended_padState (s : State) :
    OutAppended s (padState s) (List.replicate (s.buflen.toNat - s.cursor.toNat) s.params.silence) :=
  Memory.read_writeBlock _ _ _

/-- ContainerFinalize leaves what R76 says, on a buffer that exists. -/
theorem finalised_padState (hbuf : s.cursor.toNat ≤ s.buflen.toNat) (hc : s.created = true ∨ s.synth = true) :
    Finalised s (padState s).setFinal := by
  have hkept := Effect.finalize hc
  exact ⟨outAppended_padState s, padState_full hbuf, setFinal_final _, setFinal_created _, setFinal_synth _, rfl, rfl,
    hkept.faultStatusKept, ⟨rfl, rfl, rfl, rfl⟩, hkept.hostSideKept⟩

/-- Settles O21: the two preconditions, and ContainerFinalize behind both. -/
theorem finaliseRules : Obligations.FinaliseRules := by
  refine ⟨rfl, rfl, fun s hbuf => ⟨fun hc => ?_, fun hy => ?_, fun hc => ?_, fun hy => ?_⟩⟩
  · exact faults_of_exec (c := .sequence) (needCreated_missing _ hc)
  · exact faults_of_exec (c := .sequence) (needSynth_missing _ hy)
  · exact ⟨_, execCfinal_eq hc, finalised_padState hbuf (.inl hc)⟩
  · exact ⟨_, execSfinal_eq hy, finalised_padState hbuf (.inr hy)⟩

/-! ### The order of the payload -/

/-- Bytes were appended at CURSOR, none of them beyond BUFLEN. -/
def AppendedInBuffer (s t : State) : Prop :=
  ∃ bytes : List Byte, OutAppended s t bytes ∧ t.cursor.toNat = s.cursor.toNat + bytes.length ∧
    t.cursor.toNat ≤ t.buflen.toNat

theorem AppendedInBuffer.of_unchanged (hbuf : s.cursor.toNat ≤ s.buflen.toNat) (hout : t.out = s.out)
    (hcursor : t.cursor = s.cursor) (hlen : t.buflen = s.buflen) : AppendedInBuffer s t := by
  refine ⟨[], fun a => ?_, by simp [hcursor], by rwa [hcursor, hlen]⟩
  rw [hout, if_neg (by simp)]

theorem AppendedInBuffer.of_commit {c : Tape} (hbuf : s.cursor.toNat ≤ s.buflen.toNat) (h : (tapeOf s).Extends c) :
    AppendedInBuffer s (commit s c) := by
  have hcursor := commit_cursor_toNat h hbuf
  have hfit := h.samples_length
  refine ⟨_, outAppended_commit s c, by rw [hcursor, List.length_reverse], ?_⟩
  rw [hcursor, commit_buflen]; omega

theorem AppendedInBuffer.of_finalise (hbuf : s.cursor.toNat ≤ s.buflen.toNat) :
    AppendedInBuffer s (padState s).setFinal := by
  have h := AppendedInBuffer.of_commit hbuf (tapeOf_extends_padTape s)
  rwa [← padState_eq_commit] at h

/-- What is appended at CURSOR leaves every other address alone. -/
theorem AppendedInBuffer.frame (h : AppendedInBuffer s t) :
    s.cursor.toNat ≤ t.cursor.toNat ∧ t.cursor.toNat ≤ t.buflen.toNat ∧
      ∀ a : Nat, a < s.cursor.toNat ∨ t.cursor.toNat ≤ a → t.out.read a = s.out.read a := by
  obtain ⟨bytes, hout, hcursor, hend⟩ := h
  refine ⟨by omega, hend, fun a ha => ?_⟩
  rw [hout a, if_neg (by omega)]

/-- A command that creates no buffer and does not fault appends at CURSOR, if only nothing. -/
theorem exec_appendedInBuffer {i : Instr} (h : exec i s = .next t) (hbuf : s.cursor.toNat ≤ s.buflen.toNat)
    (hcc : i ≠ .ccreate) (hsc : i ≠ .screate) (hen : i ≠ .encode) (hf : t.faulted = false) :
    AppendedInBuffer s t := by
  have hne := ne_raise_of_unfaulted (s := s) hf
  cases i with
  | ccreate => exact absurd rfl hcc
  | screate => exact absurd rfl hsc
  | encode => exact absurd rfl hen
  | cappend =>
    obtain ⟨-, ⟨heq, -⟩ | heq | ⟨-, hroom, rfl⟩⟩ := (execCappend_next h).resolve_left (hne _ _)
    · exact absurd heq (hne _ _)
    · exact absurd heq (hne _ _)
    · exact .of_commit hbuf (tapeOf_extends_singleton _ hroom)
  | cfinal =>
    obtain ⟨-, rfl⟩ := (execCfinal_next h).resolve_left (hne _ _)
    exact .of_finalise hbuf
  | sfinal =>
    obtain ⟨-, rfl⟩ := (execSfinal_next h).resolve_left (hne _ _)
    exact .of_finalise hbuf
  | swave =>
    obtain ⟨-, htape⟩ := (execSwave_next h).resolve_left (hne _ _)
    obtain ⟨c, -, hext, rfl⟩ := htape.resolve_left (hne _ _)
    exact .of_commit hbuf hext
  | srepeat =>
    obtain ⟨-, htape⟩ := (execSrepeat_next h).resolve_left (hne _ _)
    obtain ⟨c, -, hext, rfl⟩ := htape.resolve_left (hne _ _)
    exact .of_commit hbuf hext
  | exmit =>
    obtain ⟨-, htape⟩ := (execExmit_next h).resolve_left (hne _ _)
    obtain ⟨c, -, hext, rfl⟩ := htape.resolve_left (hne _ _)
    exact .of_commit hbuf hext
  | echk =>
    obtain ⟨-, htape⟩ := (execEchk_next h).resolve_left (hne _ _)
    obtain ⟨c, -, -, hext, rfl⟩ := htape.resolve_left (hne _ _)
    exact .of_commit hbuf hext
  | kreset => exact execKreset_next h ▸ .of_unchanged hbuf rfl rfl rfl
  | kfold => exact execKfold_next h ▸ .of_unchanged hbuf rfl rfl rfl

/-- Settles O47: command by command it appends at CURSOR, and that leaves the bytes on both sides as they were. -/
theorem payloadWrittenInOrder : Obligations.PayloadWrittenInOrder :=
  fun _ _ _ hbuf hcc hsc hen h _ hf => (exec_appendedInBuffer h hbuf hcc hsc hen hf).frame

end Sys2Proof.Machine
end

section
/-! SUPPORT. A command made of a train of pulses (41_synthesizer.md R82, R83), on the whole state: what it leaves where the
train fits, and that two trains one after another are one. -/

namespace Sys2Proof.Machine

variable {s : State} {i : Instr} {f : Tape → Except FaultCode Tape} {ds : List F64} {ns : List Nat} {c : Byte}

/-! ### Samples committed -/

/-- A command that appends no sample changes EXCESS and CHK alone. -/
theorem commit_of_no_samples {b : Tape} (hout : s.out.wf) (hb : b.samples = []) :
    commit s b = { s with excess := b.excess, chk := b.chk } := by
  simp [commit, hb, Memory.writeBlock_nil hout]

/-- Samples committed one lot after another are committed at once: the second lot starts where the first ended. -/
theorem commit_commit {a b : Tape} (hext : (tapeOf s).Extends a) (hbuf : s.cursor.toNat ≤ s.buflen.toNat) :
    commit (commit s a) b = commit s { b with samples := b.samples ++ a.samples } := by
  have hout : (commit s a).out.writeBlock (commit s a).cursor.toNat b.samples.reverse =
      s.out.writeBlock s.cursor.toNat (b.samples ++ a.samples).reverse := by
    rw [commit_out, commit_cursor_toNat hext hbuf, List.reverse_append, ← Memory.writeBlock_append, List.length_reverse]
  have hcursor : (commit s a).cursor + BitVec.ofNat 64 b.samples.length =
      s.cursor + BitVec.ofNat 64 (b.samples ++ a.samples).length := by
    rw [commit_cursor, List.length_append, Nat.add_comm, BitVec.ofNat_add, BitVec.add_assoc]
  rw [commit, hcursor, hout]; rfl

/-! ### The state after a train -/

/-- A single pulse as a train. -/
theorem trainWrites_singleton (sp d e : F64) (n : Nat) : trainWrites sp [d] [n] e = pulseWrites sp d e n := by
  simp [trainWrites]

theorem trainSamples_singleton (p : Config.Params) (sp d e : F64) (n : Nat) :
    trainSamples p sp [d] [n] e = pulseSamples p sp d e n := by
  simp [trainSamples]

/-- The state a train of pulses leaves where it fits: its samples at CURSOR, its last phase in EXCESS, `c` in CHK. -/
def afterTrain (ds : List F64) (ns : List Nat) (c : Byte) (s : State) : State :=
  commit s (tapeAfter ((tapeOf s).withChk c) (trainSamples s.params s.speriod ds ns s.excess)
    (trainEnd s.speriod ds ns s.excess))

theorem tapeOf_extends_train (hw : trainWrites s.speriod ds ns s.excess = true)
    (hfits : ns.sum ≤ s.buflen.toNat - s.cursor.toNat) :
    (tapeOf s).Extends (tapeAfter ((tapeOf s).withChk c) (trainSamples s.params s.speriod ds ns s.excess)
      (trainEnd s.speriod ds ns s.excess)) :=
  ⟨_, rfl, Nat.sub_add_cancel (by rwa [trainSamples_length hw])⟩

theorem finish_train_fits (hf : IsTrain s f ds c) (hw : trainWrites s.speriod ds ns s.excess = true)
    (hfits : ns.sum ≤ s.buflen.toNat - s.cursor.toNat) : finish i s (onTape f s) = .next (afterTrain ds ns c s) := by
  refine finish_ok (onTape_ok_iff.2 ⟨_, ?_, rfl⟩)
  rw [hf, playAll_of_train ((tapeOf s).withChk c) hw hfits, tapeAfter, trainSamples_length hw]
  rfl

/-- A train that does not fit overruns the buffer. -/
theorem onTape_train_overruns (hf : IsTrain s f ds c) (hbuf : s.cursor.toNat ≤ s.buflen.toNat)
    (hlong : ∀ ns : List Nat, trainWrites s.speriod ds ns s.excess = true → s.buflen.toNat < s.cursor.toNat + ns.sum) :
    onTape f s = .error .bufferOverrun := by
  refine onTape_error_iff.2 (hf.trans ((playAll_cases ds _).resolve_left ?_))
  rintro ⟨ns, hroom, hw⟩
  have hlt := hlong ns hw
  simp only [Tape.withChk, tapeOf_room] at hroom
  omega

/-- What a train that fits changes, and that it changes nothing else (41_synthesizer.md R87, R88). -/
theorem samplesAppended_afterTrain (hw : trainWrites s.speriod ds ns s.excess = true)
    (hfits : ns.sum ≤ s.buflen.toNat - s.cursor.toNat) (hbuf : s.cursor.toNat ≤ s.buflen.toNat) :
    SamplesAppended s (afterTrain ds ns c s) (trainSamples s.params s.speriod ds ns s.excess)
      (trainEnd s.speriod ds ns s.excess) c := by
  have happended := samplesAppended_commit (tapeOf_extends_train (c := c) hw hfits) hbuf
  simpa only [afterTrain, tapeAfter, tapeOf_samples, Tape.withChk, List.append_nil, List.reverse_reverse] using happended

/-- A train without samples changes EXCESS and CHK alone. -/
theorem afterTrain_of_no_samples (hout : s.out.wf) (hnone : trainSamples s.params s.speriod ds ns s.excess = []) :
    afterTrain ds ns c s = { s with excess := trainEnd s.speriod ds ns s.excess, chk := c } :=
  commit_of_no_samples hout (by simp [tapeAfter, hnone, Tape.withChk])

/-- The train after the first pulse starts where that pulse left CURSOR and EXCESS. -/
theorem afterTrain_cons {d : F64} {n : Nat} (hw : pulseWrites s.speriod d s.excess n = true)
    (hfits : n ≤ s.buflen.toNat - s.cursor.toNat) (hbuf : s.cursor.toNat ≤ s.buflen.toNat) :
    afterTrain ds ns c (afterTrain [d] [n] c s) = afterTrain (d :: ds) (n :: ns) c s := by
  have hext := tapeOf_extends_train (s := s) (ds := [d]) (ns := [n]) (c := c)
    ((trainWrites_singleton ..).trans hw) (by simpa using hfits)
  rw [afterTrain, afterTrain, commit_commit hext hbuf]
  simp [afterTrain, commit, tapeAfter, Tape.withChk, trainSamples, trainEnd]

end Sys2Proof.Machine
end

section
/-! SUPPORT. The Waveform Synthesizer (41_synthesizer.md R81 to R88): creating it, one pulse, and a burst of equal pulses as
so many single ones. -/

namespace Sys2Proof.Machine

variable {s t : State}

/-! ### SCREATE -/

theorem rateOk_eq_false {sr : Nat} (h : sr = 0 ∨ 0xFFFFFFFF < sr) : rateOk sr = false := by
  rw [Bool.eq_false_iff, ne_eq, rateOk_iff]; omega

theorem execScreate_argument (h : rateOk s.a0.toNat = false) : execScreate s = fail .screate .argument s := by
  simp [execScreate, h]

theorem synthCreate_argument {sr : Nat} {d : F64} (h : synthSizeOk s.params sr d = false) :
    synthCreate sr d s = .error .argument := by
  rw [synthCreate_eq, if_pos h]

theorem synthCreate_capacity {sr : Nat} {d : F64} (h : synthSizeOk s.params sr d = true)
    (hcap : s.params.bufMax < (synthSamples s.params sr d).toNat + s.params.headerBytes) :
    synthCreate sr d s = .error .capacity := by
  rw [synthCreate_eq, if_neg (by simp [h]), if_pos hcap]

theorem synthCreate_ok {sr : Nat} {d : F64} (h : synthSizeOk s.params sr d = true)
    (hcap : (synthSamples s.params sr d).toNat + s.params.headerBytes ≤ s.params.bufMax) :
    synthCreate sr d s = .ok (synthState sr (synthSamples s.params sr d).toNat s) := by
  rw [synthCreate_eq, if_neg (by simp [h]), if_neg (by omega)]

/-- SynthCreate describes the buffer as ContainerCreate does, which it runs (41_synthesizer.md R81). -/
theorem bufferOf_synthState {sr ns : Nat} (hheader : s.params.headerBytes = 44) (hsr : sr ≤ 0xFFFFFFFF)
    (hsize : SizeAccepted s sr ns) : BufferOf s (synthState sr ns s) sr ns := by
  have hkept := Effect.createSynth hsize
  obtain ⟨-, hsrate, hnsamp, hbuflen, -⟩ := bufferOf_createdState hheader hsr hsize
  exact ⟨synthState_created sr ns s, hsrate, hnsamp, hbuflen, hkept.faultStatusKept, hkept.hostSideKept⟩

theorem outIs_synthState (sr ns : Nat) (s : State) : OutIs (synthState sr ns s) (wavHeader s.params sr ns) :=
  read_headerMemory sr ns

/-- Settles O22: the tests of R86 and R81 in their order, then the state of SynthCreate. -/
theorem screateRule : Obligations.ScreateRule := by
  refine ⟨rfl, fun s hparams _ => ⟨fun hrate => ?_, fun hlow hhigh _ => ?_⟩⟩
  · exact faults_of_exec (c := .argument) (execScreate_argument (rateOk_eq_false hrate))
  · have hheader : s.params.headerBytes = 44 := by simpa [headerOk] using hparams
    have hrate := rateOk_iff.2 ⟨hlow, hhigh⟩
    have hexec : exec .screate s = finish .screate s (synthCreate s.a0.toNat s.a1 s) := execScreate_eq hrate
    refine ⟨fun hsize => ?_, fun hsize hcap => ?_, fun hsize hcap => ?_⟩
    · exact faults_of_finish (c := .argument) hexec (synthCreate_argument hsize)
    · exact faults_of_finish (c := .capacity) hexec (synthCreate_capacity hsize (by omega))
    · have hfits := hheader.symm ▸ hcap
      refine ⟨_, hexec.trans (finish_ok (synthCreate_ok hsize hfits)),
        bufferOf_synthState hheader hhigh (sizeAccepted_of_synthSizeOk (.inl hrate) hsize hfits), synthState_synth ..,
        synthState_final .., ?_, outIs_synthState _ _ s, rfl, rfl, rfl⟩
      rw [synthState_cursor, hheader]; rfl

/-! ### SWAVE -/

/-- SWAVE of a pulse that fits (41_synthesizer.md R87). -/
theorem execSwave_fits {n : Nat} (hy : s.synth = true) (hw : pulseWrites s.speriod s.a0 s.excess n = true)
    (hfits : n ≤ s.buflen.toNat - s.cursor.toNat) : execSwave s = .next (afterTrain [s.a0] [n] s.chk s) := by
  rw [execSwave_eq hy]
  exact finish_train_fits (isTrain_wave s s.a0) (by rwa [trainWrites_singleton]) (by simpa using hfits)

/-- Settles O23: the precondition, the pulse as a train of one, and the overrun of Wave. -/
theorem swaveRule : Obligations.SwaveRule := by
  refine ⟨rfl, fun s hbuf => ⟨fun hy => ?_, fun n hy _ hw hfits => ?_, fun hy _ hlong => ?_⟩⟩
  · exact faults_of_exec (c := .sequence) (needSynth_missing _ hy)
  · have happended := samplesAppended_afterTrain (c := s.chk) ((trainWrites_singleton ..).trans hw)
      (by simp; omega) hbuf
    rw [trainSamples_singleton] at happended
    exact ⟨_, execSwave_fits hy hw (by omega), happended⟩
  · have hover : wave s.params s.speriod s.a0 (tapeOf s) = .error .bufferOverrun :=
      wave_overrun _ fun k hk => hlong k (by rw [tapeOf_room] at hk; omega)
    exact faults_of_finish (c := .bufferOverrun) (execSwave_eq hy) (onTape_error_iff.2 hover)

/-! ### Pulses without samples -/

theorem flt_eq_false_of_isNaN {a b : F64} (h : F64.isNaN a = true ∨ F64.isNaN b = true) : F64.flt a b = false := by
  rcases h with h | h <;> simp [F64.flt, h]

theorem pulseWrites_zero (sp d e : F64) : pulseWrites sp d e 0 = !F64.flt e d := by simp [pulseWrites, phase]

/-- Settles O26: such a pulse ends before its first sample, and subtraction keeps NaN. -/
theorem pulseWithoutSamples : Obligations.PulseWithoutSamples := by
  intro s hout hy _
  have hexec (hlt : F64.flt s.excess s.a0 = false) :
      exec .swave s = .next { s with excess := F64.fsub s.excess s.a0 } := by
    have hw : pulseWrites s.speriod s.a0 s.excess 0 = true := by rw [pulseWrites_zero, hlt]; rfl
    exact (execSwave_fits hy hw (Nat.zero_le _)).trans (congrArg _ (afterTrain_of_no_samples hout rfl))
  exact ⟨hexec, fun hnan => ⟨_, hexec (flt_eq_false_of_isNaN hnan), F64.isNaN_fsub hnan⟩⟩

/-! ### SREPEAT -/

/-- SREPEAT of a train that fits (41_synthesizer.md R88). -/
theorem execSrepeat_fits {ns : List Nat} (hy : s.synth = true)
    (hw : trainWrites s.speriod (List.replicate s.a1.toNat s.a0) ns s.excess = true)
    (hfits : ns.sum ≤ s.buflen.toNat - s.cursor.toNat) :
    execSrepeat s = .next (afterTrain (List.replicate s.a1.toNat s.a0) ns s.chk s) := by
  rw [execSrepeat_eq hy]
  exact finish_train_fits (isTrain_repeat s s.a0 s.a1.toNat) hw hfits

/-- Settles O24: the precondition, the burst as a train of A1 pulses, and its overrun. -/
theorem srepeatRule : Obligations.SrepeatRule := by
  refine ⟨rfl, fun s hbuf => ⟨fun hy => ?_, fun ns hy _ _ hw hfits => ?_, fun hy _ _ hlong => ?_⟩⟩
  · exact faults_of_exec (c := .sequence) (needSynth_missing _ hy)
  · have hroom : ns.sum ≤ s.buflen.toNat - s.cursor.toNat := by omega
    exact ⟨_, execSrepeat_fits hy hw hroom, samplesAppended_afterTrain hw hroom hbuf⟩
  · exact faults_of_finish (c := .bufferOverrun) (execSrepeat_eq hy)
      (onTape_train_overruns (isTrain_repeat s s.a0 s.a1.toNat) hbuf hlong)

/-- SREPEAT without a fault has a train that fits. -/
theorem execSrepeat_unfaulted (h : execSrepeat s = .next t) (hf : t.faulted = false) :
    s.synth = true ∧ ∃ ns : List Nat, trainWrites s.speriod (List.replicate s.a1.toNat s.a0) ns s.excess = true ∧
      ns.sum ≤ s.buflen.toNat - s.cursor.toNat ∧ t = afterTrain (List.replicate s.a1.toNat s.a0) ns s.chk s := by
  have hne := ne_raise_of_unfaulted (s := s) hf
  obtain ⟨hy, -⟩ := (execSrepeat_next h).resolve_left (hne _ _)
  have hfinish := (execSrepeat_eq hy).symm.trans h
  obtain ⟨ns, hw, hfits, -⟩ := (finish_train_next (isTrain_repeat s s.a0 s.a1.toNat) hfinish).resolve_left (hne _ _)
  have hnext := h.symm.trans (execSrepeat_fits hy hw hfits)
  exact ⟨hy, ns, hw, hfits, Host.Outcome.next.inj hnext⟩

/-! ### SREPEAT as so many SWAVE -/

theorem cursor_le_buflen_of_inv (hs : s.Inv) (hf : s.faulted = false) (hy : s.synth = true) :
    s.cursor.toNat ≤ s.buflen.toNat := by
  have hc := created_of_inv hs hf (.inr hy)
  obtain ⟨-, -, -, -, hrun, -⟩ := hs
  obtain ⟨-, -, ⟨-, -, hbuf⟩, -⟩ := hrun hf
  obtain ⟨-, -, hle, -⟩ := hbuf hc
  exact hle

theorem run_succ_of_step (M : Host.Core) {a b : M.State} (k : Nat) (h : M.step a = .next b) :
    M.run (k + 1) a = M.run k b := by
  rw [Host.Core.run, h]

/-- The step that serves a write of SWAVE's word, for a pulse that fits. -/
theorem step_swave_fits {n : Nat} (q : List HostAction) (hf : s.faulted = false) (hy : s.synth = true)
    (hw : pulseWrites s.speriod s.a0 s.excess n = true) (hfits : n ≤ s.buflen.toNat - s.cursor.toNat) :
    step { s with inputs := .writeReg 0x00 0x21 :: q } =
      .next { afterTrain [s.a0] [n] s.chk s with inputs := q } := by
  have hserve := stepRunsDecodedCommand { s with inputs := .writeReg 0x00 0x21 :: q } 0x21 q .swave rfl hf rfl
  exact hserve.trans (execSwave_fits (s := { s with inputs := q }) hy hw hfits)

/-- A train of equal pulses that fits is played by as many SWAVE commands, one step each. -/
theorem run_swaves {k : Nat} {ns : List Nat} (q : List HostAction) (hs : s.Inv) (hf : s.faulted = false)
    (hy : s.synth = true) (hw : trainWrites s.speriod (List.replicate k s.a0) ns s.excess = true)
    (hfits : ns.sum ≤ s.buflen.toNat - s.cursor.toNat) :
    Host.Core.run Sys2Proof.core k { s with inputs := List.replicate k (HostAction.writeReg 0x00 0x21) ++ q } =
      .next { afterTrain (List.replicate k s.a0) ns s.chk s with inputs := q } := by
  induction k generalizing s ns with
  | zero =>
    obtain ⟨-, hout, -⟩ := hs
    rw [afterTrain_of_no_samples hout rfl]; rfl
  | succ k ih =>
    cases ns with
    | nil => simp [List.replicate_succ, trainWrites] at hw
    | cons n ns =>
      simp only [List.replicate_succ, trainWrites, Bool.and_eq_true] at hw
      obtain ⟨hfirst, hrest⟩ := hw
      rw [List.sum_cons] at hfits
      have hbuf := cursor_le_buflen_of_inv hs hf hy
      have hn : n ≤ s.buflen.toNat - s.cursor.toNat := by omega
      have hinv : (afterTrain [s.a0] [n] s.chk s).Inv :=
        exec_keeps_inv (i := .swave) (execSwave_fits hy hfirst hn) hs hf
      have hcursor : (afterTrain [s.a0] [n] s.chk s).cursor.toNat = s.cursor.toNat + n := by
        obtain ⟨-, hmoved, -⟩ := samplesAppended_afterTrain (c := s.chk) ((trainWrites_singleton ..).trans hfirst)
          (by simpa using hn) hbuf
        rwa [trainSamples_singleton, pulseSamples_length] at hmoved
      have hroom : ns.sum ≤ s.buflen.toNat - (afterTrain [s.a0] [n] s.chk s).cursor.toNat := by omega
      calc Host.Core.run Sys2Proof.core (k + 1)
            { s with inputs := List.replicate (k + 1) (HostAction.writeReg 0x00 0x21) ++ q }
        _ = Host.Core.run Sys2Proof.core k { afterTrain [s.a0] [n] s.chk s with
              inputs := List.replicate k (HostAction.writeReg 0x00 0x21) ++ q } :=
          run_succ_of_step Sys2Proof.core k (step_swave_fits _ hf hy hfirst hn)
        _ = .next { afterTrain (List.replicate k s.a0) ns s.chk (afterTrain [s.a0] [n] s.chk s) with inputs := q } :=
          ih hinv hf hy hrest hroom
        _ = .next { afterTrain (List.replicate (k + 1) s.a0) (n :: ns) s.chk s with inputs := q } := by
          rw [afterTrain_cons hfirst hn hbuf, List.replicate_succ]

/-- Settles O25: SREPEAT without a fault is a train that fits, and so many SWAVE play the same train. -/
theorem srepeatIsIteratedSwave : Obligations.SrepeatIsIteratedSwave := by
  intro s t hs hf h hft
  obtain ⟨hy, ns, hw, hfits, rfl⟩ := execSrepeat_unfaulted h hft
  exact run_swaves s.inputs hs hf hy hw hfits

end Sys2Proof.Machine
end

section
/-! SUPPORT. The checksum accumulator: KRESET, KFOLD (42_checksum.md R92, R93) and the checksum of an encode's bytes
(R94, R95). -/

namespace Sys2Proof.Machine

/-! ### The two commands -/

/-- Settles O27: KRESET has one branch. -/
theorem kresetRule : Obligations.KresetRule := ⟨rfl, fun _ => rfl⟩

/-- KFOLD folds the low byte of A0, whether A0 was written or not. -/
theorem execKfold_eq (s : State) : execKfold s = .next { s with chk := s.chk ^^^ s.a0.setWidth 8 } := rfl

/-- Settles O28: KFOLD has one branch, and it does not test the mark of A0. -/
theorem kfoldRule : Obligations.KfoldRule := ⟨rfl, fun s _ => execKfold_eq s⟩

/-! ### The xor of bytes -/

/-- The fold's order does not matter, since xor is commutative and associative. -/
theorem checksumOf_perm {bs cs : List Byte} (h : bs.Perm cs) : checksumOf bs = checksumOf cs :=
  h.foldl_eq 0

/-! ### The protocol bytes at the defaults -/

/-- CHK after one more unit's byte, at the default DATA_OR (30_encoding.md R62). -/
def foldUnit (a : Byte) (c : TextUnit) : Byte := a ^^^ (0x80 ||| c.setWidth 8)

/-- DATA_OR sets bit 7 of every unit's byte, so each fold changes CHK's bit 7. -/
theorem foldUnit_bit7 (a : Byte) (c : TextUnit) : (foldUnit a c).getLsbD 7 = !a.getLsbD 7 := by
  simp [foldUnit]

/-- DATA_OR leaves bits 6:0 to the unit. -/
theorem foldUnit_low (a : Byte) (c : TextUnit) :
    (foldUnit a c).extractLsb' 0 7 = a.extractLsb' 0 7 ^^^ c.setWidth 7 := by
  have hmark : (0x80 : Byte).extractLsb' 0 7 = 0#7 := rfl
  have hunit : (c.setWidth 8).extractLsb' 0 7 = c.setWidth 7 := by
    rw [← BitVec.setWidth_eq_extractLsb' (by decide), BitVec.setWidth_setWidth_of_le _ (by decide)]
  rw [foldUnit, BitVec.extractLsb'_xor, BitVec.extractLsb'_or, hmark, hunit, BitVec.zero_or]

theorem foldl_foldUnit_bit7 (nt : List TextUnit) (a : Byte) :
    (nt.foldl foldUnit a).getLsbD 7 = (a.getLsbD 7 ^^ decide (nt.length % 2 = 1)) := by
  induction nt generalizing a with
  | nil => simp
  | cons c nt ih =>
    have hparity : decide ((c :: nt).length % 2 = 1) = !decide (nt.length % 2 = 1) := by
      rw [List.length_cons, ← decide_not, decide_eq_decide]; omega
    rw [List.foldl_cons, ih, foldUnit_bit7, hparity, Bool.not_xor, Bool.xor_not]

theorem foldl_foldUnit_low (nt : List TextUnit) (a : Byte) :
    (nt.foldl foldUnit a).extractLsb' 0 7 = (nt.map (BitVec.setWidth 7)).foldl (· ^^^ ·) (a.extractLsb' 0 7) := by
  rw [List.foldl_map]
  exact (List.foldl_hom (BitVec.extractLsb' 0 7) fun a c => (foldUnit_low a c).symm).symm

/-- The two markers may be folded first, and together they leave 0x01. -/
theorem checksumOf_protocolBytes {p : Config.Params} (hp : p.Standard) (nt : List TextUnit) :
    checksumOf (protocolBytes p nt) = nt.foldl foldUnit 1 := by
  have hbytes : protocolBytes p nt = 0x82 :: nt.map (fun c => 0x80 ||| c.setWidth 8) ++ [0x83] := by
    rw [hp]; rfl
  rw [hbytes, checksumOf_perm (List.perm_append_singleton ..)]
  exact List.foldl_map

/-- Settles O29: folding is commutative, and each unit's byte has bit 7 set and the unit's bits 6:0. -/
theorem checksumOfProtocolBytes : Obligations.ChecksumOfProtocolBytes := by
  refine ⟨fun _ _ => checksumOf_perm, fun p nt hp => ?_⟩
  rw [checksumOf_protocolBytes hp]
  constructor
  · have hstart : (1 : Byte).getLsbD 7 = false := rfl
    rw [foldl_foldUnit_bit7, hstart, Bool.false_xor]
  · rw [foldl_foldUnit_low]; rfl

end Sys2Proof.Machine
end

section
/-! SUPPORT. The frames that EXMIT and ECHK send (43_encoder.md R98, R99, R105, R106; 30_encoding.md R65, R66). -/

namespace Sys2Proof.Machine

variable {s : State}

/-! ### The frame of a byte operand -/

theorem testBit_frameOf (b k : Nat) :
    (frameOf b).testBit k = (decide (k = 10) || decide (k = 9) || (decide (1 ≤ k) && b.testBit (k - 1))) := by
  have hshape : frameOf b = 2 ^ 10 ||| 2 ^ 9 ||| (b <<< 1) := rfl
  rw [hshape, Nat.testBit_or, Nat.testBit_or, Nat.testBit_shiftLeft, Nat.testBit_two_pow, Nat.testBit_two_pow]
  simp only [eq_comm, ge_iff_le]

/-- What TransmitFrame does with its operand, it does with the operand's bits 7:0. -/
theorem transmitFrame_mod {p : Config.Params} (hp : p.frameBits = 11) (sp : F64) (b : Nat) (fold : Bool) (t : Tape) :
    transmitFrame p sp b fold t = transmitFrame p sp (b % 256) fold t := by
  have hbyte : BitVec.ofNat 8 (b % 256) = BitVec.ofNat 8 b := BitVec.eq_of_toNat_eq (by simp)
  rw [transmitFrame_eq hp, transmitFrame_eq hp, foldByte, foldByte, hbyte]

/-- Settles O35: the bits of the frame one by one, and TransmitFrame by the byte whose frame it plays. -/
theorem frameOfByteOperand : Obligations.FrameOfByteOperand := by
  refine fun b => ⟨?_, fun k hlow hhigh => ?_, ?_, ?_, fun p sp fold t hp => transmitFrame_mod hp sp b fold t⟩
  · rw [testBit_frameOf]; rfl
  · have h10 : k ≠ 10 := by omega
    have h9 : k ≠ 9 := by omega
    simp [testBit_frameOf, h10, h9, hlow]
  · rw [testBit_frameOf]; rfl
  · rw [testBit_frameOf]; rfl

/-! ### EXMIT and ECHK -/

/-- A command made of a train that fits appends its samples (41_synthesizer.md R83). -/
theorem exec_train_fits {i : Instr} {f : Tape → Except FaultCode Tape} {ds : List F64} {ns : List Nat} {c : Byte}
    (hexec : exec i s = finish i s (onTape f s)) (hf : IsTrain s f ds c)
    (hw : trainWrites s.speriod ds ns s.excess = true) (hbuf : s.cursor.toNat ≤ s.buflen.toNat)
    (hfits : s.cursor.toNat + ns.sum ≤ s.buflen.toNat) :
    ∃ t, exec i s = .next t ∧ SamplesAppended s t (trainSamples s.params s.speriod ds ns s.excess)
      (trainEnd s.speriod ds ns s.excess) c := by
  have hroom : ns.sum ≤ s.buflen.toNat - s.cursor.toNat := by omega
  exact ⟨_, hexec.trans (finish_train_fits hf hw hroom), samplesAppended_afterTrain hw hroom hbuf⟩

/-- Settles O30: the precondition, the frame as a train begun with the byte folded, and its overrun. -/
theorem exmitRule : Obligations.ExmitRule := by
  refine ⟨rfl, fun s hframe hbuf => ?_⟩
  have htrain := isTrain_frame hframe s.a0
  refine ⟨fun hy => ?_, fun ns hy _ hw hfits => ?_, fun hy _ hlong => ?_⟩
  · exact faults_of_exec (c := .sequence) (needSynth_missing _ hy)
  · exact exec_train_fits (execExmit_eq hy) htrain hw hbuf hfits
  · exact faults_of_finish (c := .bufferOverrun) (execExmit_eq hy) (onTape_train_overruns htrain hbuf hlong)

/-- Settles O31: the precondition, CHK's frame as a train that leaves CHK as it was, and its overrun. -/
theorem echkRule : Obligations.EchkRule := by
  refine ⟨rfl, fun s hframe hbuf => ?_⟩
  have htrain := isTrain_checksum hframe
  refine ⟨fun hy => ?_, fun ns hy hw hfits => ?_, fun hy hlong => ?_⟩
  · exact faults_of_exec (c := .sequence) (needSynth_missing _ hy)
  · exact exec_train_fits (execEchk_eq hy) htrain hw hbuf hfits
  · exact faults_of_finish (c := .bufferOverrun) (execEchk_eq hy) (onTape_train_overruns htrain hbuf hlong)

end Sys2Proof.Machine
end

section
/-! SUPPORT. Normalize (43_encoder.md R100 to R102) and TotalDuration at the defaults (R103). -/

namespace Sys2Proof.Machine

variable {p : Config.Params}

/-! ### The line-terminator pass -/

/-- The pass over the end of a text depends on what stands before it through the last unit alone. -/
theorem lineTerminators_append (p : Config.Params) (prev : Option TextUnit) (a b : List TextUnit) :
    lineTerminators p prev (a ++ b) = lineTerminators p prev a ++ lineTerminators p (a.getLast?.or prev) b := by
  induction a generalizing prev with
  | nil => rfl
  | cons u us ih =>
    have hlast : (u :: us).getLast?.or prev = us.getLast?.or (some u) := by
      rw [List.getLast?_cons]; cases us.getLast? <;> rfl
    rw [List.cons_append, lineTerminators, lineTerminators, ih, hlast]
    split
    · split <;> rfl
    · rfl

theorem lineTerminators_of_ne_lf {u : TextUnit} (h : u ≠ p.lf) (prev : Option TextUnit) (us : List TextUnit) :
    lineTerminators p prev (u :: us) = u :: lineTerminators p (some u) us := if_neg h

theorem lineTerminators_lf_after_cr (us : List TextUnit) :
    lineTerminators p (some p.cr) (p.lf :: us) = lineTerminators p (some p.lf) us := by
  simp [lineTerminators]

theorem lineTerminators_lone_lf {prev : Option TextUnit} (h : prev ≠ some p.cr) (us : List TextUnit) :
    lineTerminators p prev (p.lf :: us) = p.cr :: lineTerminators p (some p.lf) us := by
  simp [lineTerminators, h]

/-- A unit after the pass is a CR, or a unit of the text other than LF. -/
theorem mem_lineTerminators {prev : Option TextUnit} {us : List TextUnit} {x : TextUnit}
    (hx : x ∈ lineTerminators p prev us) : x = p.cr ∨ x ∈ us ∧ x ≠ p.lf := by
  induction us generalizing prev with
  | nil => simp [lineTerminators] at hx
  | cons u us ih =>
    have hrest (h : x ∈ lineTerminators p (some u) us) : x = p.cr ∨ x ∈ u :: us ∧ x ≠ p.lf :=
      (ih h).imp_right fun ⟨hmem, hne⟩ => ⟨List.mem_cons_of_mem u hmem, hne⟩
    rw [lineTerminators] at hx
    split at hx
    case isTrue =>
      split at hx
      case isTrue => exact hrest hx
      case isFalse => exact (List.mem_cons.1 hx).elim .inl hrest
    case isFalse hu =>
      refine (List.mem_cons.1 hx).elim (fun heq => ?_) hrest
      exact .inr ⟨heq ▸ List.mem_cons_self, heq ▸ hu⟩

/-! ### Trimming -/

theorem head?_trimFront {v : List TextUnit} {x : TextUnit} (h : (trimFront p v).head? = some x) :
    p.trimSet.contains x = false := by
  have hhead := List.head?_dropWhile_not (p.trimSet.contains ·) v
  rw [trimFront] at h
  rw [h] at hhead
  exact hhead

theorem getLast?_trimBack {v : List TextUnit} {x : TextUnit} (h : (trimBack p v).getLast? = some x) :
    p.trimSet.contains x = false := by
  rw [trimBack, List.getLast?_reverse] at h
  exact head?_trimFront h

theorem trimBack_isPrefix (p : Config.Params) (v : List TextUnit) : trimBack p v <+: v := by
  have hsuffix : trimFront p v.reverse <:+ v.reverse := List.dropWhile_suffix _
  rwa [← List.reverse_prefix, List.reverse_reverse] at hsuffix

theorem trimFront_eq_nil {v : List TextUnit} (h : ∀ x ∈ v, p.trimSet.contains x = true) : trimFront p v = [] :=
  List.dropWhile_eq_nil_iff.2 h

/-- The text before the CR that Normalize adds. -/
def trimmedText (p : Config.Params) (u : List TextUnit) : List TextUnit :=
  trimBack p (trimFront p (lineTerminators p none u))

theorem normalizeText_eq (p : Config.Params) (u : List TextUnit) : normalizeText p u = trimmedText p u ++ [p.cr] := rfl

theorem head?_trimmedText {u : List TextUnit} {x : TextUnit} (h : (trimmedText p u).head? = some x) :
    p.trimSet.contains x = false := by
  obtain ⟨cut, hcut⟩ := trimBack_isPrefix p (trimFront p (lineTerminators p none u))
  refine head?_trimFront (v := lineTerminators p none u) ?_
  have hhead : (trimBack p (trimFront p (lineTerminators p none u))).head? = some x := h
  rw [← hcut, List.head?_append, hhead]; rfl

theorem mem_lineTerminators_of_mem_trimmedText {u : List TextUnit} {x : TextUnit} (h : x ∈ trimmedText p u) :
    x ∈ lineTerminators p none u :=
  (List.dropWhile_suffix _).subset ((trimBack_isPrefix p _).subset h)

/-- CR is itself trimmed, so the pass leaves a text of trimmed units nothing else. -/
theorem trimmedText_eq_nil {u : List TextUnit} (hcr : p.trimSet.contains p.cr = true)
    (h : ∀ x ∈ u, p.trimSet.contains x = true) : trimmedText p u = [] := by
  have hfront : trimFront p (lineTerminators p none u) = [] := by
    refine trimFront_eq_nil fun x hx => ?_
    rcases mem_lineTerminators hx with rfl | ⟨hmem, -⟩
    · exact hcr
    · exact h x hmem
  rw [trimmedText, hfront]; rfl

theorem lf_notMem_normalizeText (hne : p.lf ≠ p.cr) (u : List TextUnit) : p.lf ∉ normalizeText p u := by
  rw [normalizeText_eq, List.mem_append, List.mem_singleton]
  rintro (hmem | heq)
  · rcases mem_lineTerminators (mem_lineTerminators_of_mem_trimmedText hmem) with heq | ⟨-, hlf⟩
    · exact hne heq
    · exact hlf rfl
  · exact hne heq

/-! ### O37, O38 -/

/-- Settles O37: the trimmed text with its CR, the pass at a line terminator, and R102's examples evaluated. -/
theorem normalizedTextShape : Obligations.NormalizedTextShape := by
  intro p u hp
  have hcr : p.cr = 0x000D := by rw [hp]
  have hlf : p.lf = 0x000A := by rw [hp]
  have hne : p.cr ≠ p.lf := by rw [hcr, hlf]; decide
  have htrim : p.trimSet.contains p.cr = true := by rw [hp]; rfl
  rw [← hcr, ← hlf]
  refine ⟨⟨trimmedText p u, rfl, fun _ => getLast?_trimBack, fun _ => head?_trimmedText⟩, ?_,
    lf_notMem_normalizeText hne.symm u, fun hall => ?_, fun a b => ?_, fun a b hlast => ?_, fun a b => ?_,
    fun a b hlast => ?_, ?_, ?_⟩
  · simp [normalizeText_eq]
  · rw [normalizeText_eq, trimmedText_eq_nil htrim hall, List.nil_append]
  · rw [lineTerminators_append, lineTerminators_of_ne_lf hne, lineTerminators_lf_after_cr]
  · rw [lineTerminators_append, Option.or_none, lineTerminators_lone_lf hlast]
  · rw [lineTerminators_append, lineTerminators_of_ne_lf hne]
  · rw [lineTerminators_append, Option.or_none, lineTerminators_lone_lf hlast, lineTerminators_of_ne_lf hne]
  · rw [hp]; rfl
  · rw [hp]; rfl

/-- Settles O38: each is a fixed pattern or number, evaluated. -/
theorem totalDurationVectors : Obligations.TotalDurationVectors := by
  refine ⟨?_, ?_, ?_, ?_, ?_, ?_⟩ <;> decide

end Sys2Proof.Machine
end

section
/-! SUPPORT. ENCODE (43_encoder.md R107, R108): its operand checks, the stream as one train of pulses on a fresh buffer,
the bytes it leaves in OUT, and what they depend on. -/

namespace Sys2Proof.Machine

variable {s t : State}

/-! ### The text that ENCODE reads -/

/-- A range with a unit that holds no value is not read (20_memory.md R40). -/
theorem Memory.readRange_eq_none {w : Nat} {m : Memory w} {n k : Nat} (hk : k < n) (hnone : m.read k = none) :
    m.readRange 0 n = none := by
  refine Option.eq_none_iff_forall_ne_some.2 fun us hus => ?_
  obtain ⟨hlen, hread⟩ := Memory.readRange_eq_some.1 hus
  have hsome : m.read k = us[k]? := by simpa using hread k hk
  rw [hnone, List.getElem?_eq_getElem (hlen ▸ hk)] at hsome
  cases hsome

theorem Memory.readRange_of_reads {w : Nat} {m : Memory w} {us : List (BitVec w)}
    (h : ∀ k, k < us.length → m.read k = us[k]?) : m.readRange 0 us.length = some us :=
  Memory.readRange_eq_some.2 ⟨rfl, fun k hk => by rw [Nat.zero_add]; exact h k hk⟩

/-- A range that reads the same cell by cell reads the same. -/
theorem Memory.readRange_congr {w : Nat} {m m' : Memory w} {n : Nat} {us : List (BitVec w)}
    (hread : ∀ k, k < n → m.read k = m'.read k) (h : m.readRange 0 n = some us) : m'.readRange 0 n = some us := by
  obtain ⟨hlen, hus⟩ := Memory.readRange_eq_some.1 h
  refine Memory.readRange_eq_some.2 ⟨hlen, fun k hk => ?_⟩
  rw [← hus k hk, Nat.zero_add, hread k hk]

theorem execEncode_argument (h : s.params.textMax < s.a0.toNat) : execEncode s = fail .encode .argument s := if_pos h

theorem execEncode_unwritten (hl : s.a0.toNat ≤ s.params.textMax) (hu : s.text.readRange 0 s.a0.toNat = none) :
    execEncode s = .refused .textUnwritten := by
  simp [execEncode, hl, hu]

/-! ### The buffer the stream is played on -/

/-- The number of samples ENCODE asks for, for a normalized text (43_encoder.md R103, R107). -/
abbrev encodeSize (p : Config.Params) (nt : List TextUnit) : Nat :=
  (synthSamples p p.sampleRate (totalDuration p nt.length)).toNat

/-- The state in which ENCODE's stream begins: CHK cleared and the synthesizer created, for `sz` samples
(43_encoder.md R107 steps 2 and 3). -/
def encodeStart (sz : Nat) (s : State) : State := synthState s.params.sampleRate sz { s with chk := 0 }

@[simp] theorem encodeStart_params (sz : Nat) (s : State) : (encodeStart sz s).params = s.params := rfl

theorem encodeStart_speriod (sz : Nat) (s : State) :
    (encodeStart sz s).speriod = F64.fdiv 0x3FF0000000000000 (F64.ofNat s.params.sampleRate) := rfl

theorem encodeStart_excess (sz : Nat) (s : State) : (encodeStart sz s).excess = 0 := rfl

theorem outIs_encodeStart (sz : Nat) (s : State) :
    OutIs (encodeStart sz s) (wavHeader s.params s.params.sampleRate sz) :=
  outIs_synthState s.params.sampleRate sz { s with chk := 0 }

theorem encodeStart_cursor_toNat (hheader : s.params.headerBytes = 44) (sz : Nat) :
    (encodeStart sz s).cursor.toNat = 44 := by
  rw [encodeStart, synthState_cursor, hheader]; rfl

/-- The buffer and the untouched registers, where ENCODE's stream begins. -/
theorem bufferOf_encodeStart {sz : Nat} (hheader : s.params.headerBytes = 44) (hsr : s.params.sampleRate ≤ 0xFFFFFFFF)
    (hsize : SizeAccepted s s.params.sampleRate sz) : BufferOf s (encodeStart sz s) s.params.sampleRate sz :=
  bufferOf_synthState (s := { s with chk := 0 }) hheader hsr hsize

theorem encodeStart_cursor_le {sz : Nat} (hheader : s.params.headerBytes = 44)
    (hsr : s.params.sampleRate ≤ 0xFFFFFFFF) (hsize : SizeAccepted s s.params.sampleRate sz) :
    (encodeStart sz s).cursor.toNat ≤ (encodeStart sz s).buflen.toNat := by
  obtain ⟨-, -, -, hlen, -⟩ := bufferOf_encodeStart hheader hsr hsize
  rw [hlen, encodeStart_cursor_toNat hheader]; omega

theorem encodeStart_room {sz : Nat} (hheader : s.params.headerBytes = 44) (hsr : s.params.sampleRate ≤ 0xFFFFFFFF)
    (hsize : SizeAccepted s s.params.sampleRate sz) :
    (encodeStart sz s).buflen.toNat - (encodeStart sz s).cursor.toNat = sz := by
  obtain ⟨-, -, -, hlen, -⟩ := bufferOf_encodeStart hheader hsr hsize
  rw [hlen, encodeStart_cursor_toNat hheader]; omega

/-! ### The stream -/

section
variable (ds : List F64) (ns : List Nat) (c : Byte) (s : State)

@[simp] theorem afterTrain_params : (afterTrain ds ns c s).params = s.params := rfl
@[simp] theorem afterTrain_created : (afterTrain ds ns c s).created = s.created := rfl
@[simp] theorem afterTrain_synth : (afterTrain ds ns c s).synth = s.synth := rfl
@[simp] theorem afterTrain_buflen : (afterTrain ds ns c s).buflen = s.buflen := rfl

end

/-- ENCODE's stream is a train of pulses that folds the protocol bytes (30_encoding.md R69, 42_checksum.md R94). -/
theorem isTrain_encode (hframe : s.params.frameBits = 11) (hchk : s.chk = 0) (nt : List TextUnit) :
    IsTrain s (encodeTape s.params s.speriod nt) (encodePulses s.params nt)
      (checksumOf (protocolBytes s.params nt)) :=
  encodeTape_eq hframe nt (tapeOf s) hchk

theorem onTape_train_fits {f : Tape → Except FaultCode Tape} {ds : List F64} {ns : List Nat} {c : Byte}
    (hf : IsTrain s f ds c) (hw : trainWrites s.speriod ds ns s.excess = true)
    (hfits : ns.sum ≤ s.buflen.toNat - s.cursor.toNat) : onTape f s = .ok (afterTrain ds ns c s) := by
  rw [onTape_train hf hw hfits]
  simp [afterTrain, commit, tapeAfter, Tape.withChk, trainSamples_length hw]

/-- ENCODE of an accepted size goes on to its stream (43_encoder.md R107). -/
theorem encodeText_of_accepted {nt : List TextUnit}
    (hsize : synthSizeOk s.params s.params.sampleRate (totalDuration s.params nt.length) = true)
    (hcap : encodeSize s.params nt + s.params.headerBytes ≤ s.params.bufMax) :
    encodeText nt s = streamAndFinalize nt (encodeStart (encodeSize s.params nt) s) := by
  rw [encodeText_eq_bind, synthCreate_ok (s := { s with chk := 0 }) hsize hcap]; rfl

theorem encodeText_argument {nt : List TextUnit}
    (hsize : synthSizeOk s.params s.params.sampleRate (totalDuration s.params nt.length) = false) :
    encodeText nt s = .error .argument := by
  rw [encodeText_eq_bind, synthCreate_argument (s := { s with chk := 0 }) hsize]; rfl

theorem encodeText_capacity {nt : List TextUnit}
    (hsize : synthSizeOk s.params s.params.sampleRate (totalDuration s.params nt.length) = true)
    (hcap : s.params.bufMax < encodeSize s.params nt + s.params.headerBytes) :
    encodeText nt s = .error .capacity := by
  rw [encodeText_eq_bind, synthCreate_capacity (s := { s with chk := 0 }) hsize hcap]; rfl

theorem streamAndFinalize_ok {nt : List TextUnit} {a : State}
    (h : onTape (encodeTape s.params s.speriod nt) s = .ok a) : streamAndFinalize nt s = .ok (padState a).setFinal := by
  rw [streamAndFinalize, h]; exact containerFinalize_ok a

theorem streamAndFinalize_error {nt : List TextUnit} {c : FaultCode}
    (h : onTape (encodeTape s.params s.speriod nt) s = .error c) : streamAndFinalize nt s = .error c := by
  rw [streamAndFinalize, h]; rfl

/-! ### What OUT holds -/

/-- Bytes appended where the ones in OUT end. -/
theorem OutIs.append {bytes more : List Byte} (h : OutIs s bytes) (hcursor : s.cursor.toNat = bytes.length)
    (happended : OutAppended s t more) : OutIs t (bytes ++ more) := by
  intro a
  rw [happended a, h a, hcursor]
  rcases Nat.lt_or_ge a bytes.length with hlt | hge
  · rw [if_neg (by omega), List.getElem?_append_left hlt]
  · rw [List.getElem?_append_right hge]
    split
    case isTrue => rfl
    case isFalse => rw [List.getElem?_eq_none hge, List.getElem?_eq_none (by omega)]

/-- The state ENCODE leaves, for the train that its stream is. -/
def encodeEnd (sz : Nat) (ds : List F64) (ns : List Nat) (c : Byte) (s : State) : State :=
  (padState (afterTrain ds ns c (encodeStart sz s))).setFinal

section
variable {sz : Nat} {ds : List F64} {ns : List Nat} {c : Byte}
  (hheader : s.params.headerBytes = 44) (hsr : s.params.sampleRate ≤ 0xFFFFFFFF)
  (hsize : SizeAccepted s s.params.sampleRate sz)
  (hw : trainWrites (encodeStart sz s).speriod ds ns (encodeStart sz s).excess = true) (hfits : ns.sum ≤ sz)
include hheader hsr hsize hw hfits

/-- The stream at its place behind the header. -/
theorem samplesAppended_encodeStart :
    SamplesAppended (encodeStart sz s) (afterTrain ds ns c (encodeStart sz s))
      (trainSamples s.params (encodeStart sz s).speriod ds ns (encodeStart sz s).excess)
      (trainEnd (encodeStart sz s).speriod ds ns (encodeStart sz s).excess) c :=
  samplesAppended_afterTrain hw ((encodeStart_room hheader hsr hsize).symm ▸ hfits)
    (encodeStart_cursor_le hheader hsr hsize)

/-- The padding behind the stream (43_encoder.md R107 step 9). -/
theorem finalised_encodeEnd : Finalised (afterTrain ds ns c (encodeStart sz s)) (encodeEnd sz ds ns c s) := by
  refine finalised_padState ?_ (.inl ((afterTrain_created ..).trans (synthState_created ..)))
  obtain ⟨-, hmoved, -⟩ := samplesAppended_encodeStart (c := c) hheader hsr hsize hw hfits
  have hbuf := encodeStart_cursor_le hheader hsr hsize
  have hroom := encodeStart_room hheader hsr hsize
  rw [hmoved, trainSamples_length hw, afterTrain_buflen]
  omega

/-- The whole WAV byte sequence (43_encoder.md R107, 30_encoding.md R71). -/
theorem outIs_encodeEnd :
    OutIs (encodeEnd sz ds ns c s) (wavHeader s.params s.params.sampleRate sz ++
      trainSamples s.params (encodeStart sz s).speriod ds ns (encodeStart sz s).excess ++
      List.replicate (sz - ns.sum) s.params.silence) := by
  obtain ⟨hstream, hmoved, -⟩ := samplesAppended_encodeStart (c := c) hheader hsr hsize hw hfits
  obtain ⟨hpadded, -⟩ := finalised_encodeEnd (c := c) hheader hsr hsize hw hfits
  have hcursor : (encodeStart sz s).cursor.toNat = (wavHeader s.params s.params.sampleRate sz).length := by
    rw [encodeStart_cursor_toNat hheader, wavHeader_length]
  have hpad : (afterTrain ds ns c (encodeStart sz s)).buflen.toNat -
      (afterTrain ds ns c (encodeStart sz s)).cursor.toNat = sz - ns.sum := by
    rw [afterTrain_buflen, hmoved, trainSamples_length hw, ← Nat.sub_sub, encodeStart_room hheader hsr hsize]
  rw [hpad, afterTrain_params, encodeStart_params] at hpadded
  refine ((outIs_encodeStart sz s).append hcursor hstream).append ?_ hpadded
  rw [hmoved, hcursor, List.length_append]

theorem bufferOf_encodeEnd : BufferOf s (encodeEnd sz ds ns c s) s.params.sampleRate sz := by
  obtain ⟨hcreated, hsrate, hnsamp, hlen, -⟩ := bufferOf_encodeStart hheader hsr hsize
  have heffects := effects_encode hsize
    (tapeOf_extends_train (c := c) hw ((encodeStart_room hheader hsr hsize).symm ▸ hfits))
  exact ⟨(setFinal_created _).trans hcreated, hsrate, hnsamp, hlen, heffects.faultStatusKept, heffects.hostSideKept⟩

end

/-- Where the stream fits, ENCODE ends without a fault. -/
theorem streamAndFinalize_fits {sz : Nat} {nt : List TextUnit} {ns : List Nat} (hframe : s.params.frameBits = 11)
    (hroom : (encodeStart sz s).buflen.toNat - (encodeStart sz s).cursor.toNat = sz)
    (hw : trainWrites (encodeStart sz s).speriod (encodePulses s.params nt) ns (encodeStart sz s).excess = true)
    (hfits : ns.sum ≤ sz) :
    streamAndFinalize nt (encodeStart sz s) =
      .ok (encodeEnd sz (encodePulses s.params nt) ns (checksumOf (protocolBytes s.params nt)) s) :=
  streamAndFinalize_ok
    (onTape_train_fits (isTrain_encode (s := encodeStart sz s) hframe rfl nt) hw (hroom.symm ▸ hfits))

/-- Where it does not fit, it overruns the buffer. -/
theorem streamAndFinalize_overruns {sz : Nat} {nt : List TextUnit} (hframe : s.params.frameBits = 11)
    (hbuf : (encodeStart sz s).cursor.toNat ≤ (encodeStart sz s).buflen.toNat)
    (hroom : (encodeStart sz s).buflen.toNat - (encodeStart sz s).cursor.toNat = sz)
    (hlong : ∀ ns : List Nat,
      trainWrites (encodeStart sz s).speriod (encodePulses s.params nt) ns (encodeStart sz s).excess = true →
        sz < ns.sum) :
    streamAndFinalize nt (encodeStart sz s) = .error .bufferOverrun :=
  streamAndFinalize_error (onTape_train_overruns (isTrain_encode (s := encodeStart sz s) hframe rfl nt) hbuf
    fun ns hw => by have := hlong ns hw; omega)

/-- Settles O32: the checks of R107 in their order, then the stream as one train between the header and the padding. -/
theorem encodeRule : Obligations.EncodeRule := by
  refine ⟨rfl, fun s hparams hframe _ =>
    ⟨fun hlong => ?_, fun hl ⟨k, hk, hnone⟩ => ?_, fun us hl hlen hread => ?_⟩⟩
  · exact faults_of_exec (c := .argument) (execEncode_argument hlong)
  · exact execEncode_unwritten hl (Memory.readRange_eq_none hk hnone)
  · obtain ⟨⟨-, hsr⟩, hheader⟩ := paramsOk_iff.1 hparams
    have hexec : exec .encode s = finish .encode s (encodeText (normalizeText s.params us) s) :=
      execEncode_eq hl (hlen ▸ Memory.readRange_of_reads hread)
    intro p nt dur sz sp ds
    have haccept (hsize : synthSizeOk p p.sampleRate dur = true) (hcap : sz + 44 ≤ p.bufMax) :
        SizeAccepted s p.sampleRate sz ∧ encodeText nt s = streamAndFinalize nt (encodeStart sz s) :=
      ⟨sizeAccepted_of_synthSizeOk (.inr rfl) hsize (hheader.symm ▸ hcap),
        encodeText_of_accepted hsize (hheader.symm ▸ hcap)⟩
    refine ⟨fun hsize => ?_, fun hsize hcap => ?_, fun ns hsize hcap hw hfits => ?_, fun hsize hcap hlong => ?_⟩
    · exact faults_of_finish (c := .argument) hexec (encodeText_argument hsize)
    · exact faults_of_finish (c := .capacity) hexec (encodeText_capacity hsize (hheader.symm ▸ hcap))
    · obtain ⟨haccepted, hstart⟩ := haccept hsize hcap
      clear_value sz
      have hend := streamAndFinalize_fits hframe (encodeStart_room hheader hsr haccepted) hw hfits
      obtain ⟨-, hcursor, hfinal, -, hsynth, -⟩ :=
        finalised_encodeEnd (c := checksumOf (protocolBytes p nt)) hheader hsr haccepted hw hfits
      exact ⟨_, hexec.trans (finish_ok (hstart.trans hend)), bufferOf_encodeEnd hheader hsr haccepted hw hfits,
        hsynth.trans ((afterTrain_synth ..).trans (synthState_synth ..)), hfinal, hcursor, rfl, rfl, rfl,
        outIs_encodeEnd hheader hsr haccepted hw hfits⟩
    · obtain ⟨haccepted, hstart⟩ := haccept hsize hcap
      clear_value sz
      have hover := streamAndFinalize_overruns hframe (encodeStart_cursor_le hheader hsr haccepted)
        (encodeStart_room hheader hsr haccepted) hlong
      exact faults_of_finish (c := .bufferOverrun) hexec (hstart.trans hover)

/-! ### What an encode depends on -/

/-- ENCODE reads the units `us`, accepts the size `sz` for them and streams them without a fault, to the tape `c`. -/
structure EncodeRun (s : State) (us : List TextUnit) (sz : Nat) (c : Tape) : Prop where
  /-- L is within TEXT_MAX. -/
  length_le : s.a0.toNat ≤ s.params.textMax
  /-- The units of TEXT that it reads. -/
  text_eq : s.text.readRange 0 s.a0.toNat = some us
  /-- SynthCreate accepts the size. -/
  size_ok : synthSizeOk s.params s.params.sampleRate (totalDuration s.params (normalizeText s.params us).length) = true
  /-- The size SynthCreate computes. -/
  size_eq : sz = encodeSize s.params (normalizeText s.params us)
  /-- OUT has room for the buffer. -/
  size_le : sz + s.params.headerBytes ≤ s.params.bufMax
  /-- The stream ends without a fault. -/
  stream_eq :
    encodeTape s.params (encodeStart sz s).speriod (normalizeText s.params us) (tapeOf (encodeStart sz s)) = .ok c

theorem execEncode_of_run {us : List TextUnit} {sz : Nat} {c : Tape} (h : EncodeRun s us sz c) :
    execEncode s = .next (padState (commit (encodeStart sz s) c)).setFinal :=
  (execEncode_eq h.length_le h.text_eq).trans (finish_ok (encodeText_ok h.size_ok h.size_eq h.size_le h.stream_eq))

theorem execEncode_unfaulted (h : execEncode s = .next t) (hf : t.faulted = false) :
    ∃ us sz c, EncodeRun s us sz c ∧ t = (padState (commit (encodeStart sz s) c)).setFinal := by
  have hne := ne_raise_of_unfaulted (s := s) hf
  have hended := (((execEncode_next h).resolve_left (hne _ _)).resolve_left (hne _ _)).resolve_left (hne _ _)
  obtain ⟨us, c, hl, hus, hsize, hcap, hstream, -, ht⟩ := hended
  exact ⟨us, _, c, ⟨hl, hus, hsize, rfl, hcap, hstream⟩, ht⟩

/-- SynthCreate gives a fresh buffer: of the state before it, only the parameters show in the tape. -/
theorem tapeOf_encodeStart_congr {s₁ s₂ : State} (hp : s₁.params = s₂.params) (sz : Nat) :
    tapeOf (encodeStart sz s₁) = tapeOf (encodeStart sz s₂) := by
  simp [encodeStart, tapeOf, hp]

/-- The same run from another state with the same parameters, L and text. -/
theorem EncodeRun.congr {s₁ s₂ : State} {us : List TextUnit} {sz : Nat} {c : Tape} (h : EncodeRun s₁ us sz c)
    (hp : s₁.params = s₂.params) (ha0 : s₁.a0 = s₂.a0)
    (hread : ∀ k, k < s₁.a0.toNat → s₁.text.read k = s₂.text.read k) : EncodeRun s₂ us sz c := by
  obtain ⟨hl, hus, hsize, hsz, hcap, hstream⟩ := h
  have hus₂ := Memory.readRange_congr hread hus
  rw [encodeStart_speriod, tapeOf_encodeStart_congr hp] at hstream
  rw [hp] at hl hsize hsz hcap hstream
  rw [ha0] at hl hus₂
  exact ⟨hl, hus₂, hsize, hsz, hcap, hstream⟩

/-- Settles O33: the run of an encode without a fault is one of the second state as well, and on a fresh buffer it
leaves the same bytes and registers. -/
theorem encodeIsPure : Obligations.EncodeIsPure := by
  intro s₁ s₂ t₁ hp ha0 _ _ hread h hf
  obtain ⟨us, sz, c, hrun, rfl⟩ := execEncode_unfaulted h hf
  refine ⟨_, execEncode_of_run (hrun.congr hp ha0 hread), ?_⟩
  simp [encodeStart, hp]

end Sys2Proof.Machine
end

section
/-! SUPPORT. Faults (60_exceptions.md R113 to R119, R129): which command raises which code, and what stays
of a fault until reset. -/

namespace Sys2Proof.Machine

variable {s t : State}

/-! ### Fault entry and idling -/

/-- Settles O14: the six codes, each from what fault entry leaves. -/
theorem faultEntry : Obligations.FaultEntry := fun w s =>
  ⟨raise_takesFault .sampleRange w s, raise_takesFault .bufferOverrun w s, raise_takesFault .illegalCommand w s,
    raise_takesFault .sequence w s, raise_takesFault .argument w s, raise_takesFault .capacity w s⟩

/-- Settles O11: a step with no action to serve is the idle step (assumption log 10). -/
theorem idleKeepsState : Obligations.IdleKeepsState := fun _ hq => step_idle hq

/-! ### Which command raises which code -/

/-- The commands that raise each code, and the operand where one code depends on it (60_exceptions.md R113 to R115).
ILLEGAL_COMMAND is raised by words that are no command's. -/
def MayRaise (i : Instr) (s : State) : FaultCode → Prop
  | .sampleRange => i = .cappend ∧ 255 < s.a0.toNat
  | .bufferOverrun => i = .cappend ∨ i = .swave ∨ i = .srepeat ∨ i = .exmit ∨ i = .echk ∨ i = .encode
  | .illegalCommand => False
  | .sequence =>
    i = .cappend ∨ i = .cfinal ∨ i = .swave ∨ i = .srepeat ∨ i = .sfinal ∨ i = .exmit ∨ i = .echk
  | .argument => i = .ccreate ∨ i = .screate ∨ i = .encode
  | .capacity => i = .ccreate ∨ i = .screate ∨ i = .encode

@[simp] theorem faulted_setChk (v : Byte) (s : State) : State.faulted { s with chk := v } = s.faulted := rfl

@[simp] theorem faulted_setOut (m : Memory 8) (a : Word64) (s : State) :
    State.faulted { s with out := m, cursor := a } = s.faulted := rfl

/-- A command that takes a fault ends in fault entry with one of the codes it may raise. -/
theorem exec_faulted {i : Instr} (h : exec i s = .next t) (hs : s.faulted = false) (ht : t.faulted = true) :
    ∃ c, MayRaise i s c ∧ t = raise c (encode i) s := by
  cases i with
  | ccreate =>
    rcases execCcreate_next h with rfl | rfl | ⟨-, -, -, rfl⟩
    · exact ⟨.argument, by simp [MayRaise], rfl⟩
    · exact ⟨.capacity, by simp [MayRaise], rfl⟩
    · simp [hs] at ht
  | cappend =>
    rcases execCappend_next h with rfl | ⟨-, ⟨rfl, habove⟩ | rfl | ⟨-, -, rfl⟩⟩
    · exact ⟨.sequence, by simp [MayRaise], rfl⟩
    · exact ⟨.sampleRange, ⟨rfl, habove⟩, rfl⟩
    · exact ⟨.bufferOverrun, by simp [MayRaise], rfl⟩
    · simp [hs] at ht
  | cfinal =>
    rcases execCfinal_next h with rfl | ⟨-, rfl⟩
    · exact ⟨.sequence, by simp [MayRaise], rfl⟩
    · simp [hs] at ht
  | screate =>
    rcases execScreate_next h with rfl | rfl | ⟨-, -, -, rfl⟩
    · exact ⟨.argument, by simp [MayRaise], rfl⟩
    · exact ⟨.capacity, by simp [MayRaise], rfl⟩
    · simp [hs] at ht
  | swave =>
    rcases execSwave_next h with rfl | ⟨-, rfl | ⟨c, -, -, rfl⟩⟩
    · exact ⟨.sequence, by simp [MayRaise], rfl⟩
    · exact ⟨.bufferOverrun, by simp [MayRaise], rfl⟩
    · simp [hs] at ht
  | srepeat =>
    rcases execSrepeat_next h with rfl | ⟨-, rfl | ⟨c, -, -, rfl⟩⟩
    · exact ⟨.sequence, by simp [MayRaise], rfl⟩
    · exact ⟨.bufferOverrun, by simp [MayRaise], rfl⟩
    · simp [hs] at ht
  | sfinal =>
    rcases execSfinal_next h with rfl | ⟨-, rfl⟩
    · exact ⟨.sequence, by simp [MayRaise], rfl⟩
    · simp [hs] at ht
  | kreset => simp [execKreset_next h, hs] at ht
  | kfold => simp [execKfold_next h, hs] at ht
  | exmit =>
    rcases execExmit_next h with rfl | ⟨-, rfl | ⟨c, -, -, rfl⟩⟩
    · exact ⟨.sequence, by simp [MayRaise], rfl⟩
    · exact ⟨.bufferOverrun, by simp [MayRaise], rfl⟩
    · simp [hs] at ht
  | echk =>
    rcases execEchk_next h with rfl | ⟨-, rfl | ⟨c, -, -, -, rfl⟩⟩
    · exact ⟨.sequence, by simp [MayRaise], rfl⟩
    · exact ⟨.bufferOverrun, by simp [MayRaise], rfl⟩
    · simp [hs] at ht
  | encode =>
    rcases execEncode_next h with rfl | rfl | rfl | ⟨us, c, -, -, -, -, -, -, rfl⟩
    · exact ⟨.argument, by simp [MayRaise], rfl⟩
    · exact ⟨.capacity, by simp [MayRaise], rfl⟩
    · exact ⟨.bufferOverrun, by simp [MayRaise], rfl⟩
    · simp [hs] at ht

/-- Settles O16: the command ends in fault entry with a code it may raise, code by code. -/
theorem faultSources : Obligations.FaultSources := by
  intro i s t hs h ht
  obtain ⟨c, hraise, rfl⟩ := exec_faulted h hs ht
  rw [raise_finfo, raise_fcode]
  refine ⟨rfl, ?_⟩
  cases c with
  | sampleRange => exact .inl ⟨rfl, hraise⟩
  | bufferOverrun => exact .inr (.inl ⟨rfl, hraise⟩)
  | illegalCommand => exact hraise.elim
  | sequence => exact .inr (.inr (.inl ⟨rfl, hraise⟩))
  | argument => exact .inr (.inr (.inr (.inl ⟨rfl, hraise⟩)))
  | capacity => exact .inr (.inr (.inr (.inr ⟨rfl, hraise⟩)))

/-! ### The STATUS preconditions -/

theorem faults_sequence_of_not_created (hc : s.created = false) : Faults .cappend 4 s ∧ Faults .cfinal 4 s :=
  ⟨faults_of_exec (c := .sequence) (needCreated_missing _ hc),
    faults_of_exec (c := .sequence) (needCreated_missing _ hc)⟩

theorem faults_sequence_of_not_synth {i : Instr} {k : Result} (hi : exec i s = needSynth i s k) (hy : s.synth = false) :
    Faults i 4 s :=
  faults_of_exec (c := .sequence) (hi.trans (needSynth_missing k hy))

/-- Only fault entry with SEQUENCE leaves the code 4 (60_exceptions.md R113). -/
theorem eq_sequence_of_bits {c : FaultCode} (h : c.bits = 4) : c = .sequence := by
  cases c <;> simp [FaultCode.bits] at h ⊢

/-- Settles O15: the commands that test CREATED or SYNTH do so first, and the others may not raise SEQUENCE. -/
theorem statusPreconditions : Obligations.StatusPreconditions := by
  intro s
  refine ⟨faults_sequence_of_not_created, fun hy => ?_, ?_⟩
  · exact ⟨faults_sequence_of_not_synth rfl hy, faults_sequence_of_not_synth rfl hy,
      faults_sequence_of_not_synth rfl hy, faults_sequence_of_not_synth rfl hy, faults_sequence_of_not_synth rfl hy⟩
  · rintro i t hi hs h ⟨ht, hcode⟩
    obtain ⟨c, hraise, rfl⟩ := exec_faulted h hs ht
    obtain rfl := eq_sequence_of_bits ((raise_fcode ..).symm.trans hcode)
    rcases hi with rfl | rfl | rfl | rfl | rfl <;> simp [MayRaise] at hraise

/-! ### While FAULT = 1 -/

/-- Settles O7: CMD is ignored while FAULT = 1, OUT holds no byte to read, and the port's other rules do not test FAULT. -/
theorem faultedInstanceIgnoresCommands : Obligations.FaultedInstanceIgnoresCommands := by
  intro s rest hf
  refine ⟨fun v hq => ?_, fun v hq => ?_, fun v hq => ?_, fun i u hq hlt => ?_, fun n hq => step_readReg hq,
    fun a hq => (hostReadsOut s a rest hq).2 (.inr (.inl hf))⟩
  · rw [step_serve hq, serve_writeReg_cmd]
    exact issue_ignored (s := { s with inputs := rest }) hf
  · exact (hostRegisterAccess s 0x01 rest).1 v hq (by decide)
  · exact (hostRegisterAccess s 0x02 rest).1 v hq (by decide)
  · rw [step_serve hq]
    exact serve_writeText_below (s := { s with inputs := rest }) u hlt

theorem writeRegister_faultStatusKept (n : BitVec 8) (v : Word64) (s : State) :
    FaultStatusKept s (writeRegister n v s) := by
  rcases writeRegister_cases n v s with ⟨-, h⟩ | ⟨-, h⟩ | ⟨-, -, h⟩ <;> rw [h] <;> exact ⟨rfl, rfl, rfl⟩

/-- While FAULT = 1, only reset of the host's actions writes the fault fields (60_exceptions.md R118, R119). -/
theorem serve_faultStatusKept {a : HostAction} (hf : s.faulted = true) (ha : a ≠ .reset) (h : serve a s = .next t) :
    FaultStatusKept s t := by
  cases a with
  | writeReg n v =>
    by_cases hn : n = 0x00
    · subst hn
      rw [serve_writeReg_cmd, issue_ignored hf] at h
      cases h; exact ⟨rfl, rfl, rfl⟩
    · rw [serve_writeReg v s hn] at h
      cases h; exact writeRegister_faultStatusKept n v s
  | readReg n => cases h; exact ⟨rfl, rfl, rfl⟩
  | writeText i u =>
    rcases Nat.lt_or_ge i s.params.textMax with hlt | hge
    · rw [serve_writeText_below u hlt] at h
      cases h; exact ⟨rfl, rfl, rfl⟩
    · rw [serve_writeText_beyond u hge] at h
      cases h
  | readOut b =>
    rw [serve_readOut_none (readOutByte_eq_none (.inr (.inl hf)))] at h
    cases h
  | reset => exact absurd rfl ha

/-- Settles O17: the step idles or serves an action that is not reset. -/
theorem onlyResetClearsFault : Obligations.OnlyResetClearsFault := by
  intro s t hf hnot h
  have hkept : FaultStatusKept s t := by
    cases hq : s.inputs with
    | nil => rw [step_idle hq] at h; cases h; exact ⟨rfl, rfl, rfl⟩
    | cons a rest =>
      rw [step_serve hq] at h
      exact serve_faultStatusKept (s := { s with inputs := rest }) hf (fun ha => hnot rest (ha ▸ hq)) h
  obtain ⟨hfault, hcode, hinfo⟩ := hkept
  exact ⟨hfault.trans hf, hcode, hinfo⟩

end Sys2Proof.Machine
end

section
/-! SUPPORT. Reset (70_reset_and_hazards.md R130), and trains of pulses taken apart: a train that fits is its first part,
and then the rest from where that part ended (R135). -/

namespace Sys2Proof.Machine

/-! ### Reset -/

/-- Settles O12: the step serves the reset, and assertReset gives every register and memory its reset value. -/
theorem resetFromAnyState : Obligations.ResetFromAnyState := fun s rest hq =>
  ⟨assertReset { s with inputs := rest }, step_serve hq, rfl, rfl, rfl, rfl, rfl, rfl, rfl, rfl, rfl, rfl, rfl,
    Memory.read_nil, Memory.read_nil, rfl, rfl, rfl⟩

/-! ### Trains taken apart -/

theorem trainWrites_append {sp e : F64} {ds es : List F64} {ns : List Nat}
    (h : trainWrites sp (ds ++ es) ns e = true) :
    ∃ ns₁ ns₂, ns = ns₁ ++ ns₂ ∧ trainWrites sp ds ns₁ e = true ∧
      trainWrites sp es ns₂ (trainEnd sp ds ns₁ e) = true := by
  induction ds generalizing ns e with
  | nil => exact ⟨[], ns, rfl, rfl, h⟩
  | cons d ds ih =>
    cases ns with
    | nil => simp [trainWrites] at h
    | cons n ns =>
      simp only [List.cons_append, trainWrites, Bool.and_eq_true] at h
      obtain ⟨hfirst, hrest⟩ := h
      obtain ⟨ns₁, ns₂, rfl, hw₁, hw₂⟩ := ih hrest
      exact ⟨n :: ns₁, ns₂, rfl, by simp [trainWrites, hfirst, hw₁], hw₂⟩

theorem trainSamples_append {sp e : F64} {ds es : List F64} {ns₁ ns₂ : List Nat} (p : Config.Params)
    (h : trainWrites sp ds ns₁ e = true) :
    trainSamples p sp (ds ++ es) (ns₁ ++ ns₂) e =
      trainSamples p sp ds ns₁ e ++ trainSamples p sp es ns₂ (trainEnd sp ds ns₁ e) := by
  induction ds generalizing ns₁ e with
  | nil =>
    cases ns₁ with
    | nil => rfl
    | cons n ns => simp [trainWrites] at h
  | cons d ds ih =>
    cases ns₁ with
    | nil => simp [trainWrites] at h
    | cons n ns =>
      simp only [trainWrites, Bool.and_eq_true] at h
      obtain ⟨-, hrest⟩ := h
      simp only [List.cons_append, trainSamples, trainEnd, ih hrest, List.append_assoc]

theorem trainEnd_append {sp e : F64} {ds es : List F64} {ns₁ ns₂ : List Nat}
    (h : trainWrites sp ds ns₁ e = true) :
    trainEnd sp (ds ++ es) (ns₁ ++ ns₂) e = trainEnd sp es ns₂ (trainEnd sp ds ns₁ e) := by
  induction ds generalizing ns₁ e with
  | nil =>
    cases ns₁ with
    | nil => rfl
    | cons n ns => simp [trainWrites] at h
  | cons d ds ih =>
    cases ns₁ with
    | nil => simp [trainWrites] at h
    | cons n ns =>
      simp only [trainWrites, Bool.and_eq_true] at h
      obtain ⟨-, hrest⟩ := h
      exact ih hrest

variable {s t u : State} {ds es : List F64} {c : Byte}

/-- The rest of a train starts where its first part left CURSOR and EXCESS. -/
theorem afterTrain_append {ns₁ ns₂ : List Nat} (c₁ : Byte) (hw : trainWrites s.speriod ds ns₁ s.excess = true)
    (hfits : ns₁.sum ≤ s.buflen.toNat - s.cursor.toNat) (hbuf : s.cursor.toNat ≤ s.buflen.toNat) :
    afterTrain es ns₂ c (afterTrain ds ns₁ c₁ s) = afterTrain (ds ++ es) (ns₁ ++ ns₂) c s := by
  rw [afterTrain, afterTrain, commit_commit (tapeOf_extends_train hw hfits) hbuf, afterTrain,
    trainSamples_append _ hw, trainEnd_append hw]
  simp [commit, tapeAfter, Tape.withChk]

/-- The train `ds` fits behind CURSOR in `s` and leaves `t`, with `c` in CHK. -/
def PlaysTrain (ds : List F64) (c : Byte) (s t : State) : Prop :=
  ∃ ns, trainWrites s.speriod ds ns s.excess = true ∧ ns.sum ≤ s.buflen.toNat - s.cursor.toNat ∧
    t = afterTrain ds ns c s

/-- The tape operation of a train that ends has played it. -/
theorem playsTrain_of_onTape {f : Tape → Except FaultCode Tape} (hf : IsTrain s f ds c) (h : onTape f s = .ok t) :
    PlaysTrain ds c s t := by
  rcases playAll_cases (p := s.params) (speriod := s.speriod) ds ((tapeOf s).withChk c) with ⟨ns, hfits, hw⟩ | herr
  · exact ⟨ns, hw, hfits, Except.ok.inj (h.symm.trans (onTape_train_fits hf hw hfits))⟩
  · cases h.symm.trans (onTape_error_iff.2 (hf.trans herr))

/-- A train that fits is its first part and then the rest, whatever CHK is in between (70_reset_and_hazards.md R135). -/
theorem PlaysTrain.split (h : PlaysTrain (ds ++ es) c s u) (hbuf : s.cursor.toNat ≤ s.buflen.toNat) (c₁ : Byte) :
    ∃ t, PlaysTrain ds c₁ s t ∧ PlaysTrain es c t u := by
  obtain ⟨ns, hw, hfits, rfl⟩ := h
  obtain ⟨ns₁, ns₂, rfl, hw₁, hw₂⟩ := trainWrites_append hw
  rw [List.sum_append] at hfits
  have hfirst : ns₁.sum ≤ s.buflen.toNat - s.cursor.toNat := by omega
  obtain ⟨-, hcursor, -⟩ := samplesAppended_afterTrain (c := c₁) hw₁ hfirst hbuf
  rw [trainSamples_length hw₁] at hcursor
  refine ⟨afterTrain ds ns₁ c₁ s, ⟨ns₁, hw₁, hfirst, rfl⟩, ns₂, hw₂, ?_, (afterTrain_append c₁ hw₁ hfirst hbuf).symm⟩
  rw [afterTrain_buflen, hcursor]
  omega

theorem PlaysTrain.params_eq (h : PlaysTrain ds c s t) : t.params = s.params := by
  obtain ⟨ns, -, -, rfl⟩ := h; rfl

theorem PlaysTrain.chk_eq (h : PlaysTrain ds c s t) : t.chk = c := by
  obtain ⟨ns, -, -, rfl⟩ := h; rfl

/-- A state in which pulses can be played: the synthesizer is created, without a fault. -/
structure ReadyToPlay (s : State) : Prop where
  /-- 10_state.md R34. -/
  inv : s.Inv
  /-- FAULT = 0. -/
  unfaulted : s.faulted = false
  /-- SYNTH = 1. -/
  synth : s.synth = true

theorem ReadyToPlay.cursor_le (h : ReadyToPlay s) : s.cursor.toNat ≤ s.buflen.toNat :=
  cursor_le_buflen_of_inv h.inv h.unfaulted h.synth

/-- After a train more pulses can be played. -/
theorem ReadyToPlay.of_train (h : ReadyToPlay s) (ht : PlaysTrain ds c s t) : ReadyToPlay t := by
  obtain ⟨ns, hw, hfits, rfl⟩ := ht
  have happend : Effect s (afterTrain ds ns c s) := .append (.inr h.synth) (tapeOf_extends_train hw hfits)
  exact ⟨happend.keeps_inv h.inv h.unfaulted, h.unfaulted, h.synth⟩

/-- No pulses and CHK as it was: nothing happens. -/
theorem eq_of_playsTrain_nil (h : ReadyToPlay s) (ht : PlaysTrain [] s.chk s t) : t = s := by
  obtain ⟨ns, -, -, rfl⟩ := ht
  obtain ⟨-, hout, -⟩ := h.inv
  exact afterTrain_of_no_samples hout (by simp [trainSamples])

end Sys2Proof.Machine
end

section
/-! SUPPORT. Host programs (70_reset_and_hazards.md R134): what the actions of a program leave, one line after another,
and the program of primitive commands that builds an encode. -/

namespace Sys2Proof.Machine

variable {s t u : State} {i : Instr} {program rest : List HostAction} {ds : List F64} {c : Byte}

/-! ### Programs, action by action -/

/-- Run as the next actions, the program takes `s` to `t`, whatever stands behind it in the queue. -/
def Runs (program : List HostAction) (s t : State) : Prop :=
  ∀ q, Host.Core.run Sys2Proof.core program.length { s with inputs := program ++ q } = .next { t with inputs := q }

theorem run_add_of_run (M : Host.Core) {a b : M.State} {m : Nat} (n : Nat) (h : M.run m a = .next b) :
    M.run (m + n) a = M.run n b := by
  induction m generalizing a with
  | zero => rw [Nat.zero_add, Host.Outcome.next.inj h]
  | succ m ih =>
    rw [Nat.succ_add, Host.Core.run]
    rw [Host.Core.run] at h
    cases hstep : M.step a with
    | next a' => rw [hstep] at h; exact ih h
    | fault r => rw [hstep] at h; cases h
    | refused r => rw [hstep] at h; cases h

theorem Runs.append (h₁ : Runs program s t) (h₂ : Runs rest t u) : Runs (program ++ rest) s u := by
  intro q
  rw [List.length_append, List.append_assoc]
  exact (run_add_of_run Sys2Proof.core _ (h₁ (rest ++ q))).trans (h₂ q)

theorem runs_of_step {a : HostAction} (h : ∀ q, serve a { s with inputs := q } = .next { t with inputs := q }) :
    Runs [a] s t :=
  fun q => run_succ_of_step Sys2Proof.core 0 (Eq.trans (step_serve (s := { s with inputs := a :: q }) rfl) (h q))

theorem runs_asmA0 (x : Word64) (s : State) : Runs (asmA0 x) s { s with a0 := x, a0Written := true } :=
  runs_of_step fun _ => rfl

theorem runs_asmA1 (x : Word64) (s : State) : Runs (asmA1 x) s { s with a1 := x, a1Written := true } :=
  runs_of_step fun _ => rfl

/-- A bare mnemonic runs its command. -/
theorem runs_asmCommand (hf : s.faulted = false)
    (h : ∀ q, exec i { s with inputs := q } = .next { t with inputs := q }) : Runs (asmCommand i) s t := by
  refine runs_of_step fun q => ?_
  have hword : cmdWord ((encode i).setWidth 64) = encode i := BitVec.setWidth_setWidth_of_le _ (by decide)
  rw [serve_writeReg_cmd, hword, issue_command (s := { s with inputs := q }) hf (decode_encode i), h]

/-- A command made of a train plays it. -/
theorem runs_asmCommand_train {f : Tape → Except FaultCode Tape} (hf : s.faulted = false) (htrain : IsTrain s f ds c)
    (hexec : ∀ q, exec i { s with inputs := q } = finish i { s with inputs := q } (onTape f { s with inputs := q }))
    (hplay : PlaysTrain ds c s t) : Runs (asmCommand i) s t := by
  obtain ⟨ns, hw, hfits, rfl⟩ := hplay
  exact runs_asmCommand hf fun q =>
    (hexec q).trans (finish_train_fits (s := { s with inputs := q }) htrain hw hfits)

/-! ### Programs up to what they leave in A0 and A1 -/

/-- The argument registers, with their written marks. -/
structure ArgRegs where
  /-- A0. -/
  a0 : Word64
  /-- A0 was written. -/
  a0Written : Bool
  /-- A1. -/
  a1 : Word64
  /-- A1 was written. -/
  a1Written : Bool

/-- The state with other argument registers. -/
def State.withArgs (r : ArgRegs) (s : State) : State :=
  { s with a0 := r.a0, a0Written := r.a0Written, a1 := r.a1, a1Written := r.a1Written }

/-- The argument registers after a line with both operands. -/
def ArgRegs.ofBoth (x y : Word64) : ArgRegs := ⟨x, true, y, true⟩

/-- The argument registers after a line with one operand. -/
def ArgRegs.setA0 (x : Word64) (r : ArgRegs) : ArgRegs := { r with a0 := x, a0Written := true }

/-- Whatever A0 and A1 hold before it, the program takes `s` to `t`, but for A0 and A1. -/
def Performs (program : List HostAction) (s t : State) : Prop :=
  ∀ r, ∃ r', Runs program (s.withArgs r) (t.withArgs r')

theorem Performs.append (h₁ : Performs program s t) (h₂ : Performs rest t u) : Performs (program ++ rest) s u := by
  intro r
  obtain ⟨r₁, hrun₁⟩ := h₁ r
  obtain ⟨r₂, hrun₂⟩ := h₂ r₁
  exact ⟨r₂, hrun₁.append hrun₂⟩

theorem performs_nil (s : State) : Performs [] s s := fun r => ⟨r, fun _ => rfl⟩

theorem performs_asmCommand (h : ∀ r, Runs (asmCommand i) (s.withArgs r) (t.withArgs r)) :
    Performs (asmCommand i) s t :=
  fun r => ⟨r, h r⟩

theorem performs_asmCommand1 {x : Word64}
    (h : ∀ r : ArgRegs, Runs (asmCommand i) (s.withArgs (r.setA0 x)) (t.withArgs (r.setA0 x))) :
    Performs (asmCommand1 i x) s t :=
  fun r => ⟨r.setA0 x, (runs_asmA0 x (s.withArgs r)).append (h r)⟩

theorem performs_asmCommand2 {x y : Word64}
    (h : Runs (asmCommand i) (s.withArgs (.ofBoth x y)) (t.withArgs (.ofBoth x y))) :
    Performs (asmCommand2 i x y) s t :=
  fun r => ⟨.ofBoth x y, ((runs_asmA0 x (s.withArgs r)).append (runs_asmA1 y _)).append h⟩

/-- The argument registers are no part of what a train plays on. -/
theorem PlaysTrain.withArgs (h : PlaysTrain ds c s t) (r : ArgRegs) : PlaysTrain ds c (s.withArgs r) (t.withArgs r) := by
  obtain ⟨ns, hw, hfits, rfl⟩ := h
  exact ⟨ns, hw, hfits, rfl⟩

/-! ### The lines of the program -/

theorem performs_screate {x : Word64} {d : F64} (hf : s.faulted = false) (hrate : rateOk x.toNat = true)
    (hsize : synthSizeOk s.params x.toNat d = true)
    (hcap : (synthSamples s.params x.toNat d).toNat + s.params.headerBytes ≤ s.params.bufMax) :
    Performs (asmCommand2 .screate x d) s (synthState x.toNat (synthSamples s.params x.toNat d).toNat s) := by
  refine performs_asmCommand2 (runs_asmCommand hf fun q => ?_)
  exact (execScreate_eq hrate).trans (finish_ok (synthCreate_ok hsize hcap))

theorem performs_kreset (hf : s.faulted = false) : Performs (asmCommand .kreset) s { s with chk := 0 } :=
  performs_asmCommand fun _ => runs_asmCommand hf fun _ => rfl

/-- SREPEAT plays a train of equal pulses (41_synthesizer.md R88). -/
theorem performs_srepeat {d : F64} {n : Word64} (hs : ReadyToPlay s)
    (h : PlaysTrain (List.replicate n.toNat d) s.chk s t) : Performs (asmCommand2 .srepeat d n) s t :=
  performs_asmCommand2 (runs_asmCommand_train hs.unfaulted (isTrain_repeat _ d n.toNat)
    (fun _ => execSrepeat_eq hs.synth) (h.withArgs _))

/-- EXMIT plays the frame of its operand's low byte and folds it (43_encoder.md R105). -/
theorem performs_exmit {b : Nat} (hframe : s.params.frameBits = 11) (hs : ReadyToPlay s)
    (h : PlaysTrain (framePulses s.params (BitVec.ofNat 8 b)) (s.chk ^^^ BitVec.ofNat 8 b) s t) :
    Performs (asmCommand1 .exmit (BitVec.ofNat 64 b)) s t := by
  have hbyte : BitVec.ofNat 8 b = (BitVec.ofNat 64 b).setWidth 8 := (BitVec.setWidth_ofNat_of_le (by decide) b).symm
  rw [hbyte] at h
  exact performs_asmCommand1 fun r => runs_asmCommand_train hs.unfaulted (isTrain_frame hframe _)
    (fun _ => execExmit_eq hs.synth) (h.withArgs (r.setA0 _))

/-- EXMIT of one operand after another plays their frames and folds every one of them. -/
theorem performs_exmits (bs : List Nat) (hframe : s.params.frameBits = 11) (hs : ReadyToPlay s)
    (h : PlaysTrain ((bytesOf bs).flatMap (framePulses s.params)) ((bytesOf bs).foldl (· ^^^ ·) s.chk) s t) :
    Performs (bs.flatMap fun b => asmCommand1 .exmit (BitVec.ofNat 64 b)) s t := by
  induction bs generalizing s with
  | nil =>
    rw [eq_of_playsTrain_nil hs h]
    exact performs_nil s
  | cons b bs ih =>
    obtain ⟨a, hfirst, hrest⟩ := PlaysTrain.split (ds := framePulses s.params (BitVec.ofNat 8 b))
      (es := (bytesOf bs).flatMap (framePulses s.params)) h hs.cursor_le (s.chk ^^^ BitVec.ofNat 8 b)
    have hparams := hfirst.params_eq
    have hchk : (bytesOf (b :: bs)).foldl (· ^^^ ·) s.chk = (bytesOf bs).foldl (· ^^^ ·) a.chk := by
      rw [hfirst.chk_eq]; rfl
    rw [hchk, ← hparams] at hrest
    exact (performs_exmit hframe hs hfirst).append (ih (hparams ▸ hframe) (hs.of_train hfirst) hrest)

/-- ECHK plays CHK's frame (43_encoder.md R106). -/
theorem performs_echk (hframe : s.params.frameBits = 11) (hs : ReadyToPlay s)
    (h : PlaysTrain (framePulses s.params s.chk) s.chk s t) : Performs (asmCommand .echk) s t :=
  performs_asmCommand fun r => runs_asmCommand_train hs.unfaulted (isTrain_checksum hframe)
    (fun _ => execEchk_eq hs.synth) (h.withArgs r)

theorem performs_sfinal (hs : ReadyToPlay s) : Performs (asmCommand .sfinal) s (padState s).setFinal :=
  performs_asmCommand fun _ => runs_asmCommand hs.unfaulted fun _ => execSfinal_eq hs.synth

/-! ### The whole program -/

/-- SREPEAT, EXMIT of each byte, ECHK, SREPEAT: the part of the program that plays the pulses of an encode. -/
def primitiveStream (p : Config.Params) (nt : List TextUnit) : List HostAction :=
  asmCommand2 .srepeat p.shortWave (BitVec.ofNat 64 p.leaderCount)
    ++ (((foldedBytes p nt).flatMap fun b => asmCommand1 .exmit (BitVec.ofNat 64 b))
      ++ (asmCommand .echk ++ asmCommand2 .srepeat p.shortWave (BitVec.ofNat 64 p.trailerCount)))

theorem primitiveEncode_eq (p : Config.Params) (nt : List TextUnit) :
    primitiveEncode p nt =
      asmCommand2 .screate (BitVec.ofNat 64 p.sampleRate) (totalDuration p nt.length)
        ++ asmCommand .kreset ++ (primitiveStream p nt ++ asmCommand .sfinal) := by
  simp only [primitiveEncode, primitiveStream, foldedBytes, dataByte, List.flatMap_append, List.flatMap_cons,
    List.flatMap_nil, List.flatMap_map, List.append_nil, List.append_assoc, List.cons_append]

theorem encodePulses_eq (p : Config.Params) (nt : List TextUnit) :
    encodePulses p nt = List.replicate p.leaderCount p.shortWave ++ ((protocolBytes p nt).flatMap (framePulses p)
      ++ (framePulses p (checksumOf (protocolBytes p nt)) ++ List.replicate p.trailerCount p.shortWave)) := by
  rw [encodePulses, List.flatMap_append, List.flatMap_singleton]
  simp only [List.append_assoc]

/-- From CHK = 0, the primitive commands play the train that ENCODE's stream is (30_encoding.md R69). -/
theorem performs_primitiveStream {nt : List TextUnit} (hframe : s.params.frameBits = 11)
    (hleader : s.params.leaderCount < 2 ^ 64) (htrailer : s.params.trailerCount < 2 ^ 64) (hs : ReadyToPlay s)
    (hchk : s.chk = 0)
    (h : PlaysTrain (encodePulses s.params nt) (checksumOf (protocolBytes s.params nt)) s u) :
    Performs (primitiveStream s.params nt) s u := by
  rw [encodePulses_eq] at h
  obtain ⟨a, hlead, hrest⟩ := h.split hs.cursor_le s.chk
  have ha := hs.of_train hlead
  obtain ⟨b, hbytes, hrest⟩ := hrest.split ha.cursor_le (checksumOf (protocolBytes s.params nt))
  have hb := ha.of_train hbytes
  obtain ⟨d, hsum, htrail⟩ := hrest.split hb.cursor_le (checksumOf (protocolBytes s.params nt))
  have hd := hb.of_train hsum
  have hpa := hlead.params_eq
  have hpb := hbytes.params_eq.trans hpa
  have hfolded : checksumOf (protocolBytes s.params nt) =
      (bytesOf (foldedBytes s.params nt)).foldl (· ^^^ ·) a.chk := by
    rw [bytesOf_foldedBytes, hlead.chk_eq, hchk, checksumOf]
  have hexmits := performs_exmits (t := b) (foldedBytes s.params nt) (hpa ▸ hframe) ha
    (by rw [← hfolded, bytesOf_foldedBytes, hpa]; exact hbytes)
  have hechk := performs_echk (hpb ▸ hframe) hb (by rw [hpb, hbytes.chk_eq]; exact hsum)
  have hleading := performs_srepeat (n := BitVec.ofNat 64 s.params.leaderCount) hs
    (by rw [BitVec.toNat_ofNat, Nat.mod_eq_of_lt hleader]; exact hlead)
  have htrailing := performs_srepeat (n := BitVec.ofNat 64 s.params.trailerCount) hd
    (by rw [BitVec.toNat_ofNat, Nat.mod_eq_of_lt htrailer, hsum.chk_eq]; exact htrail)
  exact hleading.append (hexmits.append (hechk.append htrailing))

theorem readyToPlay_encodeStart {sz : Nat} (hs : s.Inv) (hf : s.faulted = false)
    (hsize : SizeAccepted s s.params.sampleRate sz) : ReadyToPlay (encodeStart sz s) := by
  have hclear : Effect s { s with chk := 0 } := .setChk s 0
  have hcreate : Effect { s with chk := 0 } (encodeStart sz s) := .createSynth hsize
  exact ⟨hcreate.keeps_inv (hclear.keeps_inv hs hf) hf, (synthState_faulted ..).trans hf, synthState_synth ..⟩

/-- SCREATE and KRESET leave the state in which ENCODE's stream begins: CHK may be cleared after the buffer is created. -/
theorem performs_encodeStart {d : F64} {sz : Nat} (hf : s.faulted = false) (hparams : paramsOk s.params = true)
    (hsize : synthSizeOk s.params s.params.sampleRate d = true)
    (hsz : sz = (synthSamples s.params s.params.sampleRate d).toNat)
    (hcap : sz + s.params.headerBytes ≤ s.params.bufMax) :
    Performs (asmCommand2 .screate (BitVec.ofNat 64 s.params.sampleRate) d ++ asmCommand .kreset) s
      (encodeStart sz s) := by
  subst hsz
  obtain ⟨hsr, -⟩ := paramsOk_iff.1 hparams
  have hrate : (BitVec.ofNat 64 s.params.sampleRate).toNat = s.params.sampleRate := by
    rw [BitVec.toNat_ofNat]; omega
  have hcreate : Performs (asmCommand2 .screate (BitVec.ofNat 64 s.params.sampleRate) d) s
      (synthState s.params.sampleRate (synthSamples s.params s.params.sampleRate d).toNat s) := by
    have hscreate := performs_screate (s := s) (x := BitVec.ofNat 64 s.params.sampleRate) (d := d) hf
    rw [hrate] at hscreate
    exact hscreate (rateOk_iff.2 hsr) hsize hcap
  exact hcreate.append (performs_kreset ((synthState_faulted ..).trans hf))

/-- The program of primitive commands leaves what ENCODE leaves, but for A0 and A1. -/
theorem performs_primitiveEncode {us : List TextUnit} {sz : Nat} {a : Tape} (hs : s.Inv) (hf : s.faulted = false)
    (hleader : s.params.leaderCount < 2 ^ 64) (htrailer : s.params.trailerCount < 2 ^ 64)
    (hframe : s.params.frameBits = 11) (h : EncodeRun s us sz a) :
    Performs (primitiveEncode s.params (normalizeText s.params us)) s
      (padState (commit (encodeStart sz s) a)).setFinal := by
  obtain ⟨-, -, hsize, hsz, hcap, hstream⟩ := h
  have ⟨hparams, _⟩ := hs
  have hready : ReadyToPlay (encodeStart sz s) := by
    subst hsz
    exact readyToPlay_encodeStart hs hf (sizeAccepted_of_synthSizeOk (.inr rfl) hsize hcap)
  have hplay := playsTrain_of_onTape (isTrain_encode (s := encodeStart sz s) hframe rfl (normalizeText s.params us))
    (onTape_ok_iff.2 ⟨a, hstream, rfl⟩)
  have hcreate := performs_encodeStart hf hparams hsize hsz hcap
  have hplayed := performs_primitiveStream (s := encodeStart sz s) hframe hleader htrailer hready rfl hplay
  have hfinal := performs_sfinal (hready.of_train hplay)
  rw [primitiveEncode_eq]
  exact hcreate.append (hplayed.append hfinal)

/-- Settles O34: an ENCODE without a fault has a stream that fits, and the primitive commands play it piece by piece. -/
theorem encodeEqualsPrimitiveCommands : Obligations.EncodeEqualsPrimitiveCommands := by
  intro s t us hs hf hleader htrailer hframe hus h hft program
  obtain ⟨us', sz, a, hrun, rfl⟩ := execEncode_unfaulted h hft
  obtain rfl : us' = us := Option.some.inj (hrun.text_eq.symm.trans hus)
  obtain ⟨r, hprogram⟩ :=
    performs_primitiveEncode hs hf hleader htrailer hframe hrun ⟨s.a0, s.a0Written, s.a1, s.a1Written⟩
  have hend := hprogram []
  rw [List.append_nil] at hend
  exact ⟨_, hend, rfl, rfl, rfl, rfl, rfl, rfl, rfl, rfl, rfl, rfl⟩

end Sys2Proof.Machine
end
